-- ==== Sys2Proof/Word.lean ====
section
/-! DEFINITION. The word types of the block (00_scope R7, R8): nothing in it is signed. -/

namespace Sys2Proof

/-- A byte of a stream; also a symbol, "a symbol is one byte, value 0..255" (00_scope R6). -/
abbrev Byte := BitVec 8

/-- A host-visible 64-bit register: ARG0, ARG1, RES (10_state R21). -/
abbrev Word := BitVec 64

/-- A word written to CMD (30_encoding R70). -/
abbrev CmdWord := BitVec 32

/-- A bit position in a stream, POS_WIDTH = 64 (00_scope R6). -/
abbrev Pos := BitVec 64

/-- A frequency count or node weight, COUNT_WIDTH = 64 (00_scope R6). -/
abbrev Count := BitVec 64

end Sys2Proof
end

