-- ==== Sys2Proof/Config.lean ====
section
/-! DEFINITION. What is fixed for the hardware (00_scope R6), what the host and the environment fix for
one run (10_state R40), and the free values: the values the spec leaves open although the command goes on.
A free value has no body, so nothing can be proved of it, and a statement holds whatever it is. -/

namespace Sys2Proof

/-- The six byte streams (20_memory R50). -/
inductive Stream where
  /-- SRC, read by BR -/
  | src
  /-- BW.SINK, written by BW -/
  | bwSink
  /-- IN, read by ENC_ANALYZE and ENC_COMPRESS -/
  | input
  /-- ESINK, written by ENC through EW -/
  | eSink
  /-- DSRC, read by DEC through DR -/
  | dsrc
  /-- OUT, written by DEC_DECODE -/
  | out
  deriving DecidableEq, Repr

/-- What the environment answers to one byte transfer: "ok" or "fail" (20_memory R56, R57), or nothing at
all (60_exceptions R240: "an environment that never answers leaves the command without an end"). -/
inductive IoAnswer where
  | ok
  | fail
  | never
  deriving DecidableEq, Repr

/-- One answer of IoOracle that is stated: the answer for byte `index` of `stream`. -/
structure IoEvent where
  stream : Stream
  index  : Nat
  answer : IoAnswer
  deriving DecidableEq, Repr

/-- The parameters of a run, fixed before reset and written by no command (10_state R40, 20_memory R68).
`io` is IoOracle as plain data: the first event for a byte is its answer, a byte without one is answered
ok. DESIGN CHOICE (log 1, log 4): safe, any finite pattern of answers can be written down. -/
structure Params where
  src    : List Byte
  dsrc   : List Byte
  bwBase : Pos
  wBase  : Pos
  io     : List IoEvent
  deriving DecidableEq, Repr

namespace Config

/-- SYMBOL_BYTES (00_scope R6). -/
def symbolBytes : Nat := 1

/-- MAX_CODE_LEN (00_scope R6). -/
def maxCodeLen : Nat := 16

/-- TOTAL_LIMIT, 2^61 symbols (00_scope R6, 10_state R31). -/
def totalLimit : Nat := 2 ^ 61

/-- BW_BASE and W_BASE both default to 0 (00_scope R6); the oracle that always answers ok is the
simulator's (20_memory R56). SRC and DSRC have no default: they are empty here.
DESIGN CHOICE (log 1): unsafe for a claim about `State.reset` alone. -/
def defaultParams : Params :=
  { src := [], dsrc := [], bwBase := 0, wBase := 0, io := [] }

/-- FREE VALUE (log 6). The 64-bit write cursor of a writer when the exact position does not fit in 64
bits: the spec states no value there. The arguments are the writer's sink, the cursor before, and the
number of bits the writer then holds. -/
opaque posPastEnd : Stream → Pos → Nat → Pos

/-- FREE VALUE (log 7). The RES of an ENC_COMPRESS whose exact bit count does not fit in 64 bits; the
arguments are the number of bits EW holds at its end and the exact count. -/
opaque bitCountPastEnd : Nat → Nat → Word

/-- FREE VALUE (log 8). The 3-bit CNT of a writer after the push of a complete byte failed: the rule
leaves 8 in a field that holds 0..7, and "nothing later reads the rest of W" (41_bit_writer R131). -/
opaque cntAfterFailedPush : Stream → Nat → Fin 8

/-- FREE VALUE (log 9). The 16-bit `bits` of a code whose path is longer than 16 steps
(42_tree_dictionary R149: "bits is then wider than 16 bits"). -/
opaque longCodeBits : List Bool → BitVec 16

end Config

end Sys2Proof
end

