-- ==== Sys2Proof/Syntax.lean ====
section
/-! DEFINITION. The commands of the block, one constructor per row of spec/opcode_table.json
(30_encoding R75), the raw fields of a command word (R70), and the assembler lines a host program is
written in (R79, R80). -/

namespace Sys2Proof

/-- The 24 commands. The only operand a word carries is the bit of BW_WRITE_BIT (R72); every other
operand is a register or the stream IN (R74). -/
inductive Instr where
  /-- BR_READ_BIT -/
  | brReadBit
  /-- BR_READ_U8 -/
  | brReadU8
  /-- BR_READ_U16 -/
  | brReadU16
  /-- BR_READ_U32 -/
  | brReadU32
  /-- BR_READ_U64 -/
  | brReadU64
  /-- BR_SKIP_BITS -/
  | brSkipBits
  /-- BR_SET_POSITION -/
  | brSetPosition
  /-- BR_POSITION -/
  | brPosition
  /-- BW_WRITE_BIT, with the field B of the word -/
  | bwWriteBit (b : Bool)
  /-- BW_WRITE_U8 -/
  | bwWriteU8
  /-- BW_WRITE_U16 -/
  | bwWriteU16
  /-- BW_WRITE_U32 -/
  | bwWriteU32
  /-- BW_WRITE_U64 -/
  | bwWriteU64
  /-- BW_FLUSH -/
  | bwFlush
  /-- BW_POSITION -/
  | bwPosition
  /-- BW_RELEASE -/
  | bwRelease
  /-- ENC_ANALYZE -/
  | encAnalyze
  /-- ENC_ANALYZE_FINISH -/
  | encAnalyzeFinish
  /-- ENC_COMPRESS -/
  | encCompress
  /-- ENC_COMPRESS_FINISH -/
  | encCompressFinish
  /-- ENC_POSITION -/
  | encPosition
  /-- ENC_RELEASE -/
  | encRelease
  /-- DEC_NEW -/
  | decNew
  /-- DEC_DECODE -/
  | decDecode
  deriving DecidableEq, Repr

/-- The fields of a command word (30_encoding R70): OPC = bits 7:0, W = bits 9:8, B = bit 10,
reserved = bits 31:11. -/
structure CmdFields where
  opc : BitVec 8
  w   : BitVec 2
  b   : Bool
  rsv : BitVec 21
  deriving DecidableEq, Repr

/-- A line of a host program (30_encoding R79), the three pseudo-instructions of R80 among them.
Numeric operands are naturals as the assembler reads them; BYTES is a byte sequence. -/
inductive Line where
  /-- `br.read_bit` -/
  | brReadBit
  /-- `br.read_u8` -/
  | brReadU8
  /-- `br.read_u16` -/
  | brReadU16
  /-- `br.read_u32` -/
  | brReadU32
  /-- `br.read_u64` -/
  | brReadU64
  /-- `br.skip_bits N` -/
  | brSkipBits (n : Nat)
  /-- `br.set_position I` -/
  | brSetPosition (i : Nat)
  /-- `br.position` -/
  | brPosition
  /-- `bw.write_bit 0|1` -/
  | bwWriteBit (b : Bool)
  /-- `bw.write_u8 V` -/
  | bwWriteU8 (v : Nat)
  /-- `bw.write_u16 V` -/
  | bwWriteU16 (v : Nat)
  /-- `bw.write_u32 V` -/
  | bwWriteU32 (v : Nat)
  /-- `bw.write_u64 V` -/
  | bwWriteU64 (v : Nat)
  /-- `bw.flush` -/
  | bwFlush
  /-- `bw.position` -/
  | bwPosition
  /-- `bw.release` -/
  | bwRelease
  /-- `enc.analyze BYTES` -/
  | encAnalyze (bytes : List Byte)
  /-- `enc.analyze_finish` -/
  | encAnalyzeFinish
  /-- `enc.compress BYTES` -/
  | encCompress (bytes : List Byte)
  /-- `enc.compress_finish` -/
  | encCompressFinish
  /-- `enc.position` -/
  | encPosition
  /-- `enc.release` -/
  | encRelease
  /-- `dec.new H` -/
  | decNew (h : Nat)
  /-- `dec.decode S, LBITS` -/
  | decDecode (s lbits : Nat)
  /-- Pseudo: `bw.write_bits V, N` -/
  | bwWriteBits (v n : Nat)
  /-- Pseudo: `br.rewind` -/
  | brRewind
  /-- Pseudo: `dec.decode_bytes S, NBYTES` -/
  | decDecodeBytes (s nbytes : Nat)
  deriving DecidableEq, Repr

end Sys2Proof
end

