-- ==== Sys2Proof/Machine/State.lean ====
section
/-! DEFINITION. The state of the machine as plain data (10_state), the reasons a step can stop, and the
state after reset (70_reset_and_hazards R260). -/

namespace Sys2Proof.Machine

/-- The status codes (60_exceptions R230); their numbers are `StatusCode.number`. -/
inductive StatusCode where
  | ok | endOfStream | invalidState | invalidHeader | corruptStream | io
  | unknownSymbol | codeTooLong | illegalCommand
  deriving DecidableEq, Repr

/-- ESTATE (10_state R29). -/
inductive EState where
  | initial | analyzed | compressed | failed | released
  deriving DecidableEq, Repr

/-- DSTATE (10_state R36). -/
inductive DState where
  | unconstructed | ready
  deriving DecidableEq, Repr

/-- A Code (00_scope R12, 10_state R33): `len` steps, bit i of `bits` the i-th step from the root. -/
structure Code where
  len  : BitVec 8
  bits : BitVec 16
  deriving DecidableEq, Repr

/-- What a tree node is: a leaf, or an internal node with the indices of its two children
(10_state R32). -/
inductive NodeKind where
  | leaf (sym : Byte)
  | internal (left right : Nat)
  deriving DecidableEq, Repr

/-- A node of TREE (10_state R32). `syms` is a set of symbols, held as an ascending list. -/
structure Node where
  weight : Count
  syms   : List Byte
  kind   : NodeKind
  deriving DecidableEq, Repr

/-- An entry of the inverse dictionary INV (10_state R35). -/
structure InvEntry where
  code : Code
  sym  : Byte
  deriving DecidableEq, Repr

/-- A bit reader: BR's, and DEC's private DR (10_state R25, R26, R35). `pb` is the queue of returned bits,
which is empty between commands (R26). -/
structure Reader where
  pos : Pos
  pb  : List Bool
  deriving DecidableEq, Repr

/-- A bit writer: BW's, and ENC's private EW (10_state R27, R28). -/
structure Writer where
  sink : List Byte
  buf  : Byte
  cnt  : Fin 8
  pos  : Pos
  deriving DecidableEq, Repr

/-- The unit BR (10_state R25). -/
structure Br where
  rd  : Reader
  iof : Bool
  deriving DecidableEq, Repr

/-- The unit BW (10_state R27). -/
structure Bw where
  wr  : Writer
  iof : Bool
  rel : Bool
  deriving DecidableEq, Repr

/-- The unit ENC (10_state R28). `dict[s] = none` is `valid = 0`. -/
structure Enc where
  estate       : EState
  freq         : Vector Count 256
  total        : Count
  tree         : List Node
  dict         : Vector (Option Code) 256
  payloadStart : Pos
  ew           : Writer
  iof          : Bool
  deriving DecidableEq, Repr

/-- The unit DEC (10_state R35). `inv` is ascending by (len, bits), so equal maps are equal lists. -/
structure Dec where
  dstate : DState
  inv    : List InvEntry
  maxLen : BitVec 5
  rd     : Reader
  out    : List Byte
  iof    : Bool
  deriving DecidableEq, Repr

/-- One move of the host (20_memory R68, 30_encoding R81). -/
inductive HostMove where
  /-- The host writes ARG0. -/
  | writeArg0 (v : Word)
  /-- The host writes ARG1. -/
  | writeArg1 (v : Word)
  /-- The host supplies the byte sequence IN, whose transfers the environment answers as `inputIo` says,
  and writes `word` to CMD. -/
  | issue (word : CmdWord) (input : List Byte) (inputIo : List (Nat × IoAnswer))
  /-- The host fixes the parameters of a new run and takes the block through reset (R260, R262, R264). -/
  | reset (p : Params)
  deriving DecidableEq, Repr

/-- The state of the machine. -/
structure State where
  arg0    : Word
  arg1    : Word
  res     : Word
  code    : StatusCode
  cmd     : Option CmdWord
  input   : List Byte
  inputIo : List (Nat × IoAnswer)
  br      : Br
  bw      : Bw
  enc     : Enc
  dec     : Dec
  params  : Params
  host    : List HostMove
  deriving DecidableEq, Repr

/-- Why the machine stops. -/
inductive Fault where
  /-- The environment never answers the transfer of byte `index` of `stream`: the command has no end, no
  status and no result (60_exceptions R240, 93 I2). Raised by every command that transfers a byte. Safe:
  the model gives the stuck run no value (log 5). -/
  | transferNeverAnswers (stream : Stream) (index : Nat)
  deriving DecidableEq, Repr

/-- Where the model has no meaning. -/
inductive Refusal where
  /-- An instruction without a meaning yet, by its mnemonic. Raised by `exec` alone. Safe. -/
  | notModelled (mnemonic : String)
  /-- ENC_ANALYZE would bring TOTAL to 2^61 symbols or more; the spec itself refuses (43_encoder R171,
  93 X1). Raised by ENC_ANALYZE alone. Safe. -/
  | totalLimit
  deriving DecidableEq, Repr

/-- A reader after reset (R260). -/
def Reader.reset : Reader := { pos := 0, pb := [] }

/-- A writer after reset, its cursor at its base (R260). -/
def Writer.reset (base : Pos) : Writer := { sink := [], buf := 0, cnt := 0, pos := base }

/-- BR after reset (R260). -/
def Br.reset : Br := { rd := Reader.reset, iof := false }

/-- BW after reset (R260). -/
def Bw.reset (base : Pos) : Bw := { wr := Writer.reset base, iof := false, rel := false }

/-- ENC after reset (R260). -/
def Enc.reset (base : Pos) : Enc :=
  { estate := .initial, freq := Vector.replicate 256 0, total := 0, tree := [],
    dict := Vector.replicate 256 none, payloadStart := 0, ew := Writer.reset base, iof := false }

/-- DEC after reset (R260). -/
def Dec.reset : Dec :=
  { dstate := .unconstructed, inv := [], maxLen := 0, rd := Reader.reset, out := [], iof := false }

/-- The machine right after reset in a run with the parameters `p` (R260, R261): "the block waits for the
first CMD write". IN and the host's moves are the model's own fields, empty here (log 2, log 3). -/
def State.resetWith (p : Params) : State :=
  { arg0 := 0, arg1 := 0, res := 0, code := .ok, cmd := none, input := [], inputIo := [],
    br := Br.reset, bw := Bw.reset p.bwBase, enc := Enc.reset p.wBase, dec := Dec.reset,
    params := p, host := [] }

/-- The machine right after reset with the default parameters (log 1). -/
def State.reset : State := State.resetWith Config.defaultParams

end Sys2Proof.Machine
end

