-- ==== Sys2Proof/Machine/Flags.lean ====
section
/-! DEFINITION. The STATUS register (10_state R23): its fields are stored once, in `State.code` and in the
units, and the 32-bit word the host reads is computed. The block has no other flag (R41). -/

namespace Sys2Proof.Machine

/-- The number of a status code (60_exceptions R230). -/
def StatusCode.number : StatusCode → Nat
  | .ok => 0
  | .endOfStream => 1
  | .invalidState => 2
  | .invalidHeader => 3
  | .corruptStream => 4
  | .io => 5
  | .unknownSymbol => 6
  | .codeTooLong => 7
  | .illegalCommand => 8

/-- The encoding of ESTATE (10_state R29). -/
def EState.number : EState → Nat
  | .initial => 0
  | .analyzed => 1
  | .compressed => 2
  | .failed => 3
  | .released => 4

/-- The encoding of DSTATE (10_state R36). -/
def DState.number : DState → Nat
  | .unconstructed => 0
  | .ready => 1

/-- STATUS as the host reads it (R23): CODE 7:0, ESTATE 10:8, DSTATE 12:11, BR_IOF 13, BW_IOF 14,
ENC_IOF 15, DEC_IOF 16, BW_REL 17, and 31:18 reads as 0. -/
def State.status (s : State) : BitVec 32 :=
  BitVec.ofNat 32
    (s.code.number + s.enc.estate.number * 2 ^ 8 + s.dec.dstate.number * 2 ^ 11
      + s.br.iof.toNat * 2 ^ 13 + s.bw.iof.toNat * 2 ^ 14 + s.enc.iof.toNat * 2 ^ 15
      + s.dec.iof.toNat * 2 ^ 16 + s.bw.rel.toNat * 2 ^ 17)

end Sys2Proof.Machine
end

