-- ==== Sys2Proof/Machine/Operands.lean ====
section
/-! DEFINITION. Bit order (00_scope R8, R9; 20_memory R51, R52) and the assembly of operands and results
(30_encoding R74). -/

namespace Sys2Proof.Machine

/-- `StreamBit(S, p) = S[p div 8][p mod 8]` (R9). Asked only at positions the stream has. -/
def streamBit (bytes : List Byte) (p : Nat) : Bool :=
  (bytes.getD (p / 8) 0).getLsbD (p % 8)

/-- The N bits of `v` in stream order, most significant first (R52). -/
def bitsMsb (n v : Nat) : List Bool :=
  (List.range n).map fun j => v.testBit (n - 1 - j)

/-- The value whose bits, most significant first, are the list: "compose ... using big-endian significance
across the composed bits" (40_bit_reader R102, `v <- 2*v + bit`). -/
def natOfBits (bits : List Bool) : Nat :=
  bits.foldl (fun v b => 2 * v + b.toNat) 0

/-- Stream bits p .. p+n-1 of a byte sequence. -/
def streamBits (bytes : List Byte) (p n : Nat) : List Bool :=
  (List.range n).map fun j => streamBit bytes (p + j)

/-- The byte with bit i moved to bit 7-i (00_scope R12), which describes stream images (R52). -/
def bitrev8 (b : Byte) : Byte :=
  BitVec.ofNat 8 (natOfBits ((List.range 8).map fun i => b.getLsbD i))

/-- `ARG0[N-1:0]`: "upper bits of ARG0 ignored" (R74). -/
def argLow (n : Nat) (arg : Word) : Nat := arg.toNat % 2 ^ n

/-- A result zero-extended to 64 bits (R74). -/
def resWord (v : Nat) : Word := BitVec.ofNat 64 v

/-- The bits of a code in emission order: `bits[0]` first (30_encoding R90). -/
def codeBits (c : Code) : List Bool :=
  (List.range c.len.toNat).map fun k => c.bits.getLsbD k

/-- The number of bytes DEC_DECODE emits: `ARG1 div 8` (44_decoder R204). -/
def bytesOwed (arg1 : Word) : Nat := arg1.toNat / 8

/-- The bits a writer holds: the bits of its sink's bytes, then the pending bits of BUF
(10_state R27, 20_memory R64). -/
def Writer.bitCount (w : Writer) : Nat := 8 * w.sink.length + w.cnt.val

/-- The RES of ENC_COMPRESS for `n` bits written; `held` is the number of bits EW then holds. The free value
stands where `n` does not fit in RES (log 7). -/
def bitsWritten (held n : Nat) : Word :=
  if n < 2 ^ 64 then BitVec.ofNat 64 n else Config.bitCountPastEnd held n

end Sys2Proof.Machine
end

