-- ==== Sys2Proof/Machine/Ops.lean ====
section
/-! DEFINITION. The operations the meanings share: one named update per part of State, the end of a command
(00_scope R10 `done` and `raise`; 60_exceptions R232: there is no trap, an error is a status code at the
command's end), byte transfers (20_memory R56, R57), and the primitives of a bit reader
(40_bit_reader R102, R112) and of a bit writer (41_bit_writer R131). -/

namespace Sys2Proof.Machine

/-- What a command ends in. -/
abbrev Result := Host.Outcome State Fault Refusal

/-! ### Updates -/

/-- ARG0 written by the host. -/
def State.withArg0 (s : State) (v : Word) : State := { s with arg0 := v }
/-- ARG1 written by the host. -/
def State.withArg1 (s : State) (v : Word) : State := { s with arg1 := v }
/-- RES written by the block. -/
def State.withRes (s : State) (v : Word) : State := { s with res := v }
/-- STATUS.CODE written by the block. -/
def State.withCode (s : State) (c : StatusCode) : State := { s with code := c }
/-- The pending command word. -/
def State.withCmd (s : State) (c : Option CmdWord) : State := { s with cmd := c }
/-- The unit BR. -/
def State.withBr (s : State) (u : Br) : State := { s with br := u }
/-- The unit BW. -/
def State.withBw (s : State) (u : Bw) : State := { s with bw := u }
/-- The unit ENC. -/
def State.withEnc (s : State) (u : Enc) : State := { s with enc := u }
/-- The unit DEC. -/
def State.withDec (s : State) (u : Dec) : State := { s with dec := u }
/-- The host's remaining moves. -/
def State.withHost (s : State) (h : List HostMove) : State := { s with host := h }

/-! ### The end of a command -/

/-- `done`: the command ends with OK (R10). -/
def State.done (s : State) : Result := .next (s.withCode .ok)

/-- `raise`: the command ends with an error; the state is as the rule's pseudocode left it (R10, R232). -/
def State.raise (s : State) (c : StatusCode) : Result := .next (s.withCode c)

/-! ### Byte transfers -/

/-- The first stated answer for a byte index, else ok. -/
def answerIn (events : List (Nat × IoAnswer)) (i : Nat) : IoAnswer :=
  match events.find? fun e => e.1 == i with
  | some e => e.2
  | none => .ok

/-- IoOracle(S, i) (R56, R57). The bytes of IN are answered as the host's supply of this IN says (log 3), the
bytes of the five lasting streams as the run's parameters say (log 4). -/
def State.answer (s : State) (S : Stream) (i : Nat) : IoAnswer :=
  match S with
  | .input => answerIn s.inputIo i
  | S =>
    match s.params.io.find? fun e => e.stream == S && e.index == i with
    | some e => e.answer
    | none => .ok

/-- The outcome of a list of transfers asked in order: all ok, or the first that is not. -/
inductive Transfer where
  | ok
  | fail
  | stuck (index : Nat)
  deriving DecidableEq, Repr

/-- Ask for the transfers in order and stop at the first that is not ok. -/
def transferAll (ask : Nat → IoAnswer) : List Nat → Transfer
  | [] => .ok
  | i :: is =>
    match ask i with
    | .ok => transferAll ask is
    | .fail => .fail
    | .never => .stuck i

/-! ### The bit reader (40_bit_reader R102, R112) -/

/-- What a read ends in. On `endOfStream` and `io` the reader is unchanged (R102, R110; log 18). -/
inductive ReadRes (α : Type) where
  | ok (v : α) (r : Reader)
  | endOfStream
  | io
  | stuck (index : Nat)

/-- `ReadBit(R)` over a source (R102). -/
def readBit (ask : Nat → IoAnswer) (source : List Byte) (r : Reader) : ReadRes Bool :=
  if 8 * source.length ≤ r.pos.toNat then .endOfStream
  else
    match transferAll ask [r.pos.toNat / 8] with
    | .ok => .ok (streamBit source r.pos.toNat) { r with pos := r.pos + 1 }
    | .fail => .io
    | .stuck i => .stuck i

/-- The bytes that hold at least one of the stream bits p .. p+n-1, in order, for n ≥ 1 (20_memory R56). -/
def bytesOfBits (p n : Nat) : List Nat :=
  (List.range ((p + n - 1) / 8 + 1 - p / 8)).map fun k => p / 8 + k

/-- `ReadBits(R, N)` over a source (R102); the value is below 2^N. The comparison is on unbounded
naturals. -/
def readBits (ask : Nat → IoAnswer) (source : List Byte) (n : Nat) (r : Reader) : ReadRes Nat :=
  if 8 * source.length < r.pos.toNat + n then .endOfStream
  else
    match transferAll ask (bytesOfBits r.pos.toNat n) with
    | .ok => .ok (natOfBits (streamBits source r.pos.toNat n)) { r with pos := r.pos + BitVec.ofNat 64 n }
    | .fail => .io
    | .stuck i => .stuck i

/-- `SetPosition(R, i)` (R112). -/
def Reader.setPosition (_r : Reader) (i : Pos) : Reader := { pos := i, pb := [] }

/-- The cursor of BR_SKIP_BITS: `min(POS + n, 2^64 - 1)`, PB emptied (R107). -/
def Reader.skip (r : Reader) (n : Word) : Reader :=
  { pos := BitVec.ofNat 64 (min (r.pos.toNat + n.toNat) (2 ^ 64 - 1)), pb := [] }

/-! ### The bit writer (41_bit_writer R131) -/

/-- What a write ends in. On `io` the fields of the writer are as the pseudocode left them. -/
inductive WriteRes where
  | ok (w : Writer)
  | io (w : Writer)
  | stuck (index : Nat)
  deriving DecidableEq, Repr

/-- The cursor advanced by `k` bits; the free value stands where the exact position does not fit in 64 bits
(log 6). -/
def Writer.advance (S : Stream) (w : Writer) (k : Nat) : Pos :=
  if w.pos.toNat + k < 2 ^ 64 then BitVec.ofNat 64 (w.pos.toNat + k)
  else Config.posPastEnd S w.pos (w.bitCount + k)

/-- BUF with the bit put at position CNT (R131: "fills from the least significant bit"). -/
def Writer.fill (w : Writer) (b : Bool) : Byte := w.buf ||| (BitVec.ofNat 8 b.toNat <<< w.cnt.val)

/-- `WriteBit(W, b)` into the sink of the stream `S` (R131). -/
def writeBit (S : Stream) (ask : Nat → IoAnswer) (b : Bool) (w : Writer) : WriteRes :=
  if h : w.cnt.val + 1 < 8 then
    .ok { sink := w.sink, buf := w.fill b, cnt := ⟨w.cnt.val + 1, h⟩, pos := w.advance S 1 }
  else
    match transferAll ask [w.sink.length] with
    | .ok => .ok { sink := w.sink ++ [w.fill b], buf := 0, cnt := 0, pos := w.advance S 1 }
    | .fail =>
      .io { sink := w.sink, buf := w.fill b, cnt := Config.cntAfterFailedPush S w.bitCount,
            pos := w.advance S 1 }
    | .stuck i => .stuck i

/-- Bits written one after another; the first that fails ends it. -/
def writeAll (S : Stream) (ask : Nat → IoAnswer) : List Bool → Writer → WriteRes
  | [], w => .ok w
  | b :: bs, w =>
    match writeBit S ask b w with
    | .ok w' => writeAll S ask bs w'
    | .io w' => .io w'
    | .stuck i => .stuck i

/-- `WriteBits(W, N, v)`: most significant bit first (R131). -/
def writeBits (S : Stream) (ask : Nat → IoAnswer) (n v : Nat) (w : Writer) : WriteRes :=
  writeAll S ask (bitsMsb n v) w

/-- `Flush(W)` (R131): the partial byte is pushed, the padding counts in POS. -/
def flush (S : Stream) (ask : Nat → IoAnswer) (w : Writer) : WriteRes :=
  if 0 < w.cnt.val then
    match transferAll ask [w.sink.length] with
    | .ok => .ok { sink := w.sink ++ [w.buf], buf := 0, cnt := 0, pos := w.advance S (8 - w.cnt.val) }
    | .fail => .io w
    | .stuck i => .stuck i
  else .ok w

end Sys2Proof.Machine
end

