-- ==== Sys2Proof/Machine/BitReader.lean ====
section
/-! DEFINITION. The commands of the bit reader BR (40_bit_reader). -/

namespace Sys2Proof.Machine

/-- Every BR command first checks BR_IOF (R100). -/
def brGuard (s : State) (body : Result) : Result :=
  if s.br.iof then s.raise .io else body

/-- BR with a new cursor. -/
def State.withBrReader (s : State) (r : Reader) : State := s.withBr { s.br with rd := r }

/-- The end of a BR read: RES and the cursor, or EndOfStream with no change, or Io with BR_IOF set
(R101, R111). -/
def brFinish (s : State) : ReadRes Nat → Result
  | .ok v r => ((s.withBrReader r).withRes (resWord v)).done
  | .endOfStream => s.raise .endOfStream
  | .io => (s.withBr { s.br with iof := true }).raise .io
  | .stuck i => .fault (.transferNeverAnswers .src i)

/-- `RES <- zext_64(ReadBits(BR, n))`, shared by the four widths. -/
def brRead (n : Nat) (s : State) : Result :=
  brGuard s (brFinish s (readBits (s.answer .src) s.params.src n s.br.rd))

/-- The bit a `ReadBit` returns, as a value. -/
def ReadRes.bitValue : ReadRes Bool → ReadRes Nat
  | .ok b r => .ok b.toNat r
  | .endOfStream => .endOfStream
  | .io => .io
  | .stuck i => .stuck i

/-- BR_READ_BIT (R101). -/
def execBrReadBit (s : State) : Result :=
  brGuard s (brFinish s (readBit (s.answer .src) s.params.src s.br.rd).bitValue)

/-- BR_READ_U8 (R103). -/
def execBrReadU8 (s : State) : Result := brRead 8 s

/-- BR_READ_U16 (R104). -/
def execBrReadU16 (s : State) : Result := brRead 16 s

/-- BR_READ_U32 (R105). -/
def execBrReadU32 (s : State) : Result := brRead 32 s

/-- BR_READ_U64 (R106). -/
def execBrReadU64 (s : State) : Result := brRead 64 s

/-- BR_SKIP_BITS (R107). -/
def execBrSkipBits (s : State) : Result :=
  brGuard s (s.withBrReader (s.br.rd.skip s.arg0)).done

/-- BR_SET_POSITION (R108). -/
def execBrSetPosition (s : State) : Result :=
  brGuard s (s.withBrReader (s.br.rd.setPosition s.arg0)).done

/-- BR_POSITION (R109). -/
def execBrPosition (s : State) : Result :=
  brGuard s (s.withRes s.br.rd.pos).done

end Sys2Proof.Machine
end

