-- ==== Sys2Proof/Machine/BitWriter.lean ====
section
/-! DEFINITION. The commands of the bit writer BW (41_bit_writer). -/

namespace Sys2Proof.Machine

/-- Every BW command first checks BW_IOF (R120). -/
def bwGuardIo (s : State) (body : Result) : Result :=
  if s.bw.iof then s.raise .io else body

/-- Every BW command but BW_POSITION then checks BW_REL (R120, R130). -/
def bwGuard (s : State) (body : Result) : Result :=
  bwGuardIo s (if s.bw.rel then s.raise .invalidState else body)

/-- The end of a BW command that writes: the writer, or Io with BW_IOF set; `rel` is BW_REL at a successful
end. -/
def bwFinish (s : State) (rel : Bool) : WriteRes → Result
  | .ok w => (s.withBw { wr := w, iof := s.bw.iof, rel := rel }).done
  | .io w => (s.withBw { wr := w, iof := true, rel := s.bw.rel }).raise .io
  | .stuck i => .fault (.transferNeverAnswers .bwSink i)

/-- `WriteBits(BW, n, ARG0[n-1:0])`, shared by the four widths. -/
def bwWrite (n : Nat) (s : State) : Result :=
  bwGuard s (bwFinish s s.bw.rel (writeBits .bwSink (s.answer .bwSink) n (argLow n s.arg0) s.bw.wr))

/-- BW_WRITE_BIT (R121). -/
def execBwWriteBit (b : Bool) (s : State) : Result :=
  bwGuard s (bwFinish s s.bw.rel (writeBit .bwSink (s.answer .bwSink) b s.bw.wr))

/-- BW_WRITE_U8 (R124). -/
def execBwWriteU8 (s : State) : Result := bwWrite 8 s

/-- BW_WRITE_U16 (R125). -/
def execBwWriteU16 (s : State) : Result := bwWrite 16 s

/-- BW_WRITE_U32 (R126). -/
def execBwWriteU32 (s : State) : Result := bwWrite 32 s

/-- BW_WRITE_U64 (R127). -/
def execBwWriteU64 (s : State) : Result := bwWrite 64 s

/-- BW_FLUSH (R128). -/
def execBwFlush (s : State) : Result :=
  bwGuard s (bwFinish s s.bw.rel (flush .bwSink (s.answer .bwSink) s.bw.wr))

/-- BW_POSITION (R129): allowed after BW_RELEASE. -/
def execBwPosition (s : State) : Result :=
  bwGuardIo s (s.withRes s.bw.wr.pos).done

/-- BW_RELEASE (R130): flush, then BW_REL <- 1; on a failed push BW_REL stays 0. -/
def execBwRelease (s : State) : Result :=
  bwGuard s (bwFinish s true (flush .bwSink (s.answer .bwSink) s.bw.wr))

end Sys2Proof.Machine
end

