-- ==== Sys2Proof/Machine/Decoder.lean ====
section
/-! DEFINITION. The commands of the decoder DEC (44_decoder). -/

namespace Sys2Proof.Machine

/-- Every DEC command first checks DEC_IOF (R200). -/
def decGuard (s : State) (body : Result) : Result :=
  if s.dec.iof then s.raise .io else body

/-! ### The inverse dictionary -/

/-- Two codes are equal or one is a prefix of the other (R203 case 4). -/
def codesClash (a b : Code) : Bool :=
  (b.len.toNat ≤ a.len.toNat && a.bits.toNat % 2 ^ b.len.toNat == b.bits.toNat)
    || (a.len.toNat ≤ b.len.toNat && b.bits.toNat % 2 ^ a.len.toNat == a.bits.toNat)

/-- A code the header may hold: 1 to 16 bits, right-aligned (R203 cases 1 and 2). -/
def codeInRange (c : Code) : Bool :=
  1 ≤ c.len.toNat && c.len.toNat ≤ Config.maxCodeLen && c.bits.toNat < 2 ^ c.len.toNat

/-- `CheckEntry(T, len, bits, s)` (R203): true where the entry is consistent with the table. -/
def checkEntry (t : List InvEntry) (e : InvEntry) : Bool :=
  codeInRange e.code && t.all fun x => x.sym != e.sym && !codesClash e.code x.code

/-- The order of INV: by length, then by bits. -/
def codeLt (a b : Code) : Bool :=
  a.len.toNat < b.len.toNat || (a.len.toNat == b.len.toNat && a.bits.toNat < b.bits.toNat)

/-- `T ∪ {(len, bits) -> s}`, kept in order (log 14). -/
def insertEntry (e : InvEntry) : List InvEntry → List InvEntry
  | [] => [e]
  | x :: xs => if codeLt e.code x.code then e :: x :: xs else x :: insertEntry e xs

/-- `INV(len, bits)`, by the exact length and path value of a candidate. -/
def lookupCode (inv : List InvEntry) (len bits : Nat) : Option Byte :=
  (inv.find? fun e => e.code.len.toNat == len && e.code.bits.toNat == bits).map (·.sym)

/-- `max{len}`, 0 for an empty table (R201). -/
def maxLenOf (inv : List InvEntry) : Nat := inv.foldr (fun e m => max e.code.len.toNat m) 0

/-! ### DEC_NEW -/

/-- What `ParseHeader` ends in, with the reader as it then stands. -/
inductive ParseRes where
  | ok (t : List InvEntry) (r : Reader)
  | invalidHeader (r : Reader)
  | io (r : Reader)
  | stuck (index : Nat)
  deriving DecidableEq, Repr

/-- A header field: EndOfStream becomes InvalidHeader (R202, 90 C5); on an error the reader stands where the
failed read began. -/
def parseField (ask : Nat → IoAnswer) (source : List Byte) (n : Nat) (r : Reader)
    (rest : Nat → Reader → ParseRes) : ParseRes :=
  match readBits ask source n r with
  | .ok v r' => rest v r'
  | .endOfStream => .invalidHeader r
  | .io => .io r
  | .stuck i => .stuck i

/-- The loop of R202: `cnt` entries still to read, `t` the table so far. -/
def parseEntries (ask : Nat → IoAnswer) (source : List Byte) :
    Nat → List InvEntry → Reader → ParseRes
  | 0, t, r => .ok t r
  | k + 1, t, r =>
    parseField ask source 8 r fun len r1 =>
    parseField ask source 16 r1 fun bits r2 =>
    parseField ask source 8 r2 fun slen r3 =>
    if slen = Config.symbolBytes then
      parseField ask source 8 r3 fun sym r4 =>
      let e : InvEntry :=
        { code := { len := BitVec.ofNat 8 len, bits := BitVec.ofNat 16 bits }, sym := BitVec.ofNat 8 sym }
      if checkEntry t e then parseEntries ask source k (insertEntry e t) r4
      else .invalidHeader r4
    else .invalidHeader r3

/-- `ParseHeader()` (R202). -/
def parseHeader (ask : Nat → IoAnswer) (source : List Byte) (r : Reader) : ParseRes :=
  parseField ask source 16 r fun cnt r' => parseEntries ask source cnt [] r'

/-- "INV <- empty; MAXLEN <- 0; DSTATE <- Unconstructed" (R201), with the reader where it stands. -/
def Dec.discard (d : Dec) (r : Reader) : Dec :=
  { d with dstate := .unconstructed, inv := [], maxLen := 0, rd := r }

/-- The decoder of a parsed header (R201). -/
def Dec.construct (d : Dec) (t : List InvEntry) (r : Reader) : Dec :=
  { d with dstate := .ready, inv := t, maxLen := BitVec.ofNat 5 (maxLenOf t), rd := r }

/-- DEC with its sticky fault set. -/
def Dec.withFault (d : Dec) : Dec := { d with iof := true }

/-- DEC_NEW (R201). -/
def execDecNew (s : State) : Result :=
  decGuard s
    (match parseHeader (s.answer .dsrc) s.params.dsrc (s.dec.rd.setPosition s.arg0) with
     | .ok t r => ((s.withDec (s.dec.construct t r)).withRes r.pos).done
     | .invalidHeader r => (s.withDec (s.dec.discard r)).raise .invalidHeader
     | .io r => (s.withDec (s.dec.discard r).withFault).raise .io
     | .stuck i => .fault (.transferNeverAnswers .dsrc i))

/-! ### DEC_DECODE -/

/-- What `MatchSymbol` ends in, with the reader as it then stands. -/
inductive MatchRes where
  | ok (s : Byte) (r : Reader)
  | corrupt (r : Reader)
  | io (r : Reader)
  | stuck (index : Nat)
  deriving DecidableEq, Repr

/-- The loop of R205 with the candidate (cl, cb). It ends after at most max(1, MAXLEN) bits, so the fuel
MAXLEN + 1 is never used up. -/
def matchLoop (ask : Nat → IoAnswer) (source : List Byte) (inv : List InvEntry) (maxLen : Nat) :
    Nat → Nat → Nat → Reader → MatchRes
  | 0, _, _, r => .corrupt r
  | k + 1, cl, cb, r =>
    match readBit ask source r with
    | .endOfStream => .corrupt r
    | .io => .io r
    | .stuck i => .stuck i
    | .ok b r' =>
      let cb' := cb + b.toNat * 2 ^ cl
      match lookupCode inv (cl + 1) cb' with
      | some s => .ok s r'
      | none => if maxLen ≤ cl + 1 then .corrupt r' else matchLoop ask source inv maxLen k (cl + 1) cb' r'

/-- `MatchSymbol()` (R205). -/
def matchSymbol (ask : Nat → IoAnswer) (source : List Byte) (inv : List InvEntry) (maxLen : Nat)
    (r : Reader) : MatchRes :=
  if inv.isEmpty then .corrupt r else matchLoop ask source inv maxLen (maxLen + 1) 0 0 r

/-- What the loop of DEC_DECODE ends in. -/
inductive DecodeRes where
  | ok (d : Dec)
  | corrupt (d : Dec)
  | io (d : Dec)
  | stuck (stream : Stream) (index : Nat)
  deriving DecidableEq, Repr

/-- DEC with a new cursor. -/
def Dec.withRd (d : Dec) (r : Reader) : Dec := { d with rd := r }

/-- DEC with one more byte in OUT. -/
def Dec.emit (d : Dec) (s : Byte) : Dec := { d with out := d.out ++ [s] }

/-- The loop of R204 with the given number of bytes still to emit: match a symbol, append it to OUT. -/
def decodeLoop (ask askOut : Nat → IoAnswer) (source : List Byte) : Nat → Dec → DecodeRes
  | 0, d => .ok d
  | k + 1, d =>
    match matchSymbol ask source d.inv d.maxLen.toNat d.rd with
    | .corrupt r => .corrupt (d.withRd r)
    | .io r => .io (d.withRd r).withFault
    | .stuck i => .stuck .dsrc i
    | .ok s r =>
      match transferAll askOut [d.out.length] with
      | .ok => decodeLoop ask askOut source k ((d.withRd r).emit s)
      | .fail => .io (d.withRd r).withFault
      | .stuck i => .stuck .out i

/-- DEC_DECODE (R204, R206). -/
def execDecDecode (s : State) : Result :=
  decGuard s
    (if s.dec.dstate = .ready then
      if s.arg1 = 0 then (s.withRes 0).done
      else
        match decodeLoop (s.answer .dsrc) (s.answer .out) s.params.dsrc (bytesOwed s.arg1)
            (s.dec.withRd (s.dec.rd.setPosition s.arg0)) with
        | .ok d => ((s.withDec d).withRes (d.rd.pos - s.arg0)).done
        | .corrupt d => ((s.withDec d).withRes (d.rd.pos - s.arg0)).raise .corruptStream
        | .io d => (s.withDec d).raise .io
        | .stuck S i => .fault (.transferNeverAnswers S i)
     else s.raise .invalidState)

end Sys2Proof.Machine
end

