-- ==== Sys2Proof/Machine/CodeTree.lean ====
section
/-! DEFINITION. The internal operations of ENC: frequency counting, the code tree, the dictionary
(42_tree_dictionary). -/

namespace Sys2Proof.Machine

/-- The 256 symbols, ascending. -/
def allSymbols : List Byte := (List.range 256).map (BitVec.ofNat 8)

/-- `FREQ[s]`. -/
def Enc.freqOf (e : Enc) (s : Byte) : Count := e.freq[s.toNat]'s.isLt

/-- `DICT[s]`, `none` where `valid` is 0. -/
def Enc.codeOf (e : Enc) (s : Byte) : Option Code := e.dict[s.toNat]'s.isLt

/-- `CountSymbol(s)` (R140). Below TOTAL_LIMIT neither sum overflows (10_state R31; log 15). -/
def Enc.countSymbol (e : Enc) (s : Byte) : Enc :=
  { e with freq := e.freq.set s.toNat (e.freqOf s + 1) s.isLt, total := e.total + 1 }

/-! ### The leaves (R141) -/

/-- A symbol with its count. -/
abbrev SymCount := Byte × Count

/-- The symbols with `FREQ[s] > 0`, ascending, with their counts. -/
def usedSymbols (freq : Vector Count 256) : List SymCount :=
  (allSymbols.zip freq.toList).filter fun p => 0 < p.2.toNat

/-- The order of the leaves: by weight, among equal weights by symbol value. -/
def leafLe (a b : SymCount) : Bool :=
  a.2.toNat < b.2.toNat || (a.2.toNat == b.2.toNat && a.1.toNat ≤ b.1.toNat)

/-- Insertion into a list in leaf order. -/
def insertLeaf (a : SymCount) : List SymCount → List SymCount
  | [] => [a]
  | b :: bs => if leafLe a b then a :: b :: bs else b :: insertLeaf a bs

/-- A list sorted in leaf order. -/
def sortLeaves (l : List SymCount) : List SymCount := l.foldr insertLeaf []

/-- A leaf node (R141). -/
def leafNode (p : SymCount) : Node := { weight := p.2, syms := [p.1], kind := .leaf p.1 }

/-! ### The merge loop (R142, R143) -/

/-- The arena with the two queues of node indices: LQ of leaves, IQ of internal nodes. -/
structure Forest where
  arena : List Node
  lq    : List Nat
  iq    : List Nat
  deriving DecidableEq, Repr

/-- The weight of node i of an arena. -/
def weightAt (arena : List Node) (i : Nat) : Count :=
  match arena[i]? with
  | some n => n.weight
  | none => 0

/-- The symbols of node i of an arena. -/
def symsAt (arena : List Node) (i : Nat) : List Byte :=
  match arena[i]? with
  | some n => n.syms
  | none => []

/-- Insertion into an ascending list without repeats. -/
def insertSym (s : Byte) : List Byte → List Byte
  | [] => [s]
  | t :: ts =>
    if s.toNat < t.toNat then s :: t :: ts
    else if s = t then t :: ts
    else t :: insertSym s ts

/-- `a.syms ∪ b.syms`. -/
def unionSyms (a b : List Byte) : List Byte := a.foldr insertSym b

/-- The leaves in their queue, no internal node yet (R141, R142). -/
def Forest.start (leaves : List SymCount) : Forest :=
  { arena := leaves.map leafNode, lq := List.range leaves.length, iq := [] }

/-- `Pick()` (R142): the head of LQ when it is not heavier than the head of IQ, else the head of IQ. -/
def Forest.pick (f : Forest) : Option (Nat × Forest) :=
  match f.lq, f.iq with
  | [], [] => none
  | a :: l, [] => some (a, { f with lq := l })
  | [], b :: q => some (b, { f with iq := q })
  | a :: l, b :: q =>
    if (weightAt f.arena a).toNat ≤ (weightAt f.arena b).toNat then some (a, { f with lq := l })
    else some (b, { f with iq := q })

/-- The new internal node, the first pick its left child (R143), at the tail of IQ. -/
def Forest.join (f : Forest) (a b : Nat) : Forest :=
  { arena := f.arena ++
      [{ weight := weightAt f.arena a + weightAt f.arena b
         syms := unionSyms (symsAt f.arena a) (symsAt f.arena b)
         kind := .internal a b }]
    lq := f.lq
    iq := f.iq ++ [f.arena.length] }

/-- `while |LQ| + |IQ| >= 2` (R142), at most `fuel` times; one merge takes one node away, so the number of
leaves is enough (R144). -/
def mergeLoop : Nat → Forest → Forest
  | 0, f => f
  | k + 1, f =>
    if f.lq.length + f.iq.length < 2 then f
    else
      match f.pick with
      | none => f
      | some (a, f1) =>
        match f1.pick with
        | none => f
        | some (b, f2) => mergeLoop k (f2.join a b)

/-- `BuildTree` on the sorted leaves. -/
def buildForest (leaves : List SymCount) : Forest := mergeLoop leaves.length (Forest.start leaves)

/-- The one node left in LQ or IQ (R144). -/
def Forest.root? (f : Forest) : Option Nat := (f.lq ++ f.iq).head?

/-! ### The dictionary (R146, R148, R149) -/

/-- The walk of R148 from node i to the leaf of s: `false` for a step to the left. A child is an earlier node
of the arena, so the arena's length is enough fuel. -/
def walk (arena : List Node) (s : Byte) : Nat → Nat → List Bool
  | 0, _ => []
  | k + 1, i =>
    match arena[i]? with
    | some { kind := .internal l r, .. } =>
      if s ∈ symsAt arena l then false :: walk arena s k l else true :: walk arena s k r
    | _ => []

/-- The number whose bit i is the i-th step (R149). -/
def pathValue : List Bool → Nat
  | [] => 0
  | b :: bs => b.toNat + 2 * pathValue bs

/-- The Code of a path (R149). The 16-bit field of a longer path is the free value (log 9). -/
def codeOfPath (path : List Bool) : Code :=
  { len := BitVec.ofNat 8 path.length
    bits := if path.length ≤ 16 then BitVec.ofNat 16 (pathValue path) else Config.longCodeBits path }

/-- The path of a symbol: one left step when it is the only symbol (R146), else the walk from the root
(R148). -/
def pathOf (n : Nat) (f : Forest) (s : Byte) : List Bool :=
  if n = 1 then [false]
  else
    match f.root? with
    | some r => walk f.arena s f.arena.length r
    | none => []

/-- `for each s with FREQ[s] > 0: DICT[s] <- ...` (R148, R146). -/
def buildDict (used : List SymCount) (f : Forest) (dict : Vector (Option Code) 256) :
    Vector (Option Code) 256 :=
  used.foldl (fun d p => d.set p.1.toNat (some (codeOfPath (pathOf used.length f p.1))) p.1.isLt) dict

/-- `BuildTree; BuildDict` (R141 to R149). -/
def Enc.buildCode (e : Enc) : Enc :=
  let used := usedSymbols e.freq
  let f := buildForest (sortLeaves used)
  { e with tree := f.arena, dict := buildDict used f e.dict }

/-! ### The checks and the header -/

/-- The valid entries of DICT, ascending by symbol. -/
def dictEntries (dict : Vector (Option Code) 256) : List InvEntry :=
  (allSymbols.zip dict.toList).filterMap fun p => p.2.map fun c => { code := c, sym := p.1 }

/-- "some valid DICT[s].len > 16" (R152, 43_encoder R172). -/
def codeTooLong (dict : Vector (Option Code) 256) : Bool :=
  (dictEntries dict).any fun e => Config.maxCodeLen < e.code.len.toNat

/-- One header entry: u8 len, u16 bits, u8 symbol length, the symbol (30_encoding R85, 43_encoder R173). -/
def entryBits (e : InvEntry) : List Bool :=
  bitsMsb 8 e.code.len.toNat ++ bitsMsb 16 e.code.bits.toNat ++ bitsMsb 8 Config.symbolBytes
    ++ bitsMsb 8 e.sym.toNat

/-- The header: u16 entry count, then the entries (30_encoding R85, 43_encoder R173). -/
def headerBits (entries : List InvEntry) : List Bool :=
  bitsMsb 16 entries.length ++ entries.flatMap entryBits

end Sys2Proof.Machine
end

