-- ==== Sys2Proof/Machine/Encoder.lean ====
section
/-! DEFINITION. The commands of the encoder ENC (43_encoder). -/

namespace Sys2Proof.Machine

/-- Every ENC command first checks ENC_IOF (R178). -/
def encGuardIo (s : State) (body : Result) : Result :=
  if s.enc.iof then s.raise .io else body

/-- Then the state table (R170): the command runs in the states `legal` allows. -/
def encGuard (legal : EState → Bool) (s : State) (body : Result) : Result :=
  encGuardIo s (if legal s.enc.estate then body else s.raise .invalidState)

/-- ENC with a new writer. -/
def Enc.withEw (e : Enc) (w : Writer) : Enc := { e with ew := w }

/-- ENC with its sticky fault set. -/
def Enc.withFault (e : Enc) : Enc := { e with iof := true }

/-- ENC in another state. -/
def Enc.withEState (e : Enc) (t : EState) : Enc := { e with estate := t }

/-! ### ENC_ANALYZE -/

/-- What the loop over IN of ENC_ANALYZE ends in. -/
inductive AnalyzeRes where
  | ok (e : Enc)
  | io (e : Enc)
  | stuck (index : Nat)
  deriving DecidableEq, Repr

/-- The loop of R171 from byte i of IN: transfer the byte, count the symbol. -/
def analyzeLoop (ask : Nat → IoAnswer) : Nat → List Byte → Enc → AnalyzeRes
  | _, [], e => .ok e
  | i, b :: bs, e =>
    match transferAll ask [i] with
    | .ok => analyzeLoop ask (i + 1) bs (e.countSymbol b)
    | .fail => .io e.withFault
    | .stuck j => .stuck j

/-- ENC_ANALYZE (R171). -/
def execEncAnalyze (s : State) : Result :=
  encGuard (· == .initial) s
    (if Config.totalLimit ≤ s.enc.total.toNat + s.input.length then .refused .totalLimit
     else
      match analyzeLoop (s.answer .input) 0 s.input s.enc with
      | .ok e => ((s.withEnc e).withRes (resWord (8 * s.input.length))).done
      | .io e => (s.withEnc e).raise .io
      | .stuck i => .fault (.transferNeverAnswers .input i))

/-! ### ENC_ANALYZE_FINISH -/

/-- The end of ENC_ANALYZE_FINISH after the header was written: PAYLOAD_START, ESTATE and RES (R172, R34). -/
def Enc.analyzed (e : Enc) (w : Writer) : Enc :=
  { e with ew := w, payloadStart := w.pos, estate := .analyzed }

/-- ENC_ANALYZE_FINISH (R172, R173). -/
def execEncAnalyzeFinish (s : State) : Result :=
  encGuard (· == .initial) s
    (let e := s.enc.buildCode
     if codeTooLong e.dict then (s.withEnc (e.withEState .failed)).raise .codeTooLong
     else
      match writeAll .eSink (s.answer .eSink) (headerBits (dictEntries e.dict)) e.ew with
      | .ok w => ((s.withEnc (e.analyzed w)).withRes w.pos).done
      | .io w => (s.withEnc (e.withEw w).withFault).raise .io
      | .stuck i => .fault (.transferNeverAnswers .eSink i))

/-! ### ENC_COMPRESS -/

/-- What the loop over IN of ENC_COMPRESS ends in, with the exact count of bits written. -/
inductive CompressRes where
  | ok (e : Enc) (nbits : Nat)
  | unknownSymbol (e : Enc) (nbits : Nat)
  | io (e : Enc)
  | stuck (stream : Stream) (index : Nat)
  deriving DecidableEq, Repr

/-- The loop of R174 from byte i of IN: transfer the byte, look its code up, write the code's bits. -/
def compressLoop (askIn askSink : Nat → IoAnswer) : Nat → List Byte → Enc → Nat → CompressRes
  | _, [], e, n => .ok e n
  | i, b :: bs, e, n =>
    match transferAll askIn [i] with
    | .fail => .io e.withFault
    | .stuck j => .stuck .input j
    | .ok =>
      match e.codeOf b with
      | none => .unknownSymbol e n
      | some c =>
        match writeAll .eSink askSink (codeBits c) e.ew with
        | .ok w => compressLoop askIn askSink (i + 1) bs (e.withEw w) (n + c.len.toNat)
        | .io w => .io (e.withEw w).withFault
        | .stuck j => .stuck .eSink j

/-- ENC_COMPRESS (R174). -/
def execEncCompress (s : State) : Result :=
  encGuard (· == .analyzed) s
    (match compressLoop (s.answer .input) (s.answer .eSink) 0 s.input s.enc 0 with
     | .ok e n => ((s.withEnc e).withRes (bitsWritten e.ew.bitCount n)).done
     | .unknownSymbol e n => ((s.withEnc e).withRes (bitsWritten e.ew.bitCount n)).raise .unknownSymbol
     | .io e => (s.withEnc e).raise .io
     | .stuck S i => .fault (.transferNeverAnswers S i))

/-! ### The commands that flush, and the cursor -/

/-- `Flush(EW)`, then ESTATE <- t; on a failed push ESTATE stays (R175, R177). -/
def encFlush (t : EState) (s : State) : Result :=
  match flush .eSink (s.answer .eSink) s.enc.ew with
  | .ok w => (s.withEnc ((s.enc.withEw w).withEState t)).done
  | .io w => (s.withEnc (s.enc.withEw w).withFault).raise .io
  | .stuck i => .fault (.transferNeverAnswers .eSink i)

/-- ENC_COMPRESS_FINISH (R175). -/
def execEncCompressFinish (s : State) : Result :=
  encGuard (· == .analyzed) s (encFlush .compressed s)

/-- ENC_POSITION (R176): legal in every ESTATE. -/
def execEncPosition (s : State) : Result :=
  encGuardIo s (s.withRes s.enc.ew.pos).done

/-- ENC_RELEASE (R177): legal in every ESTATE but Released. -/
def execEncRelease (s : State) : Result :=
  encGuard (· != .released) s (encFlush .released s)

end Sys2Proof.Machine
end

