-- ==== Sys2Proof/Machine/Dispatch.lean ====
section
/-! DEFINITION. One arm per constructor of `Instr`. -/

namespace Sys2Proof.Machine

/-- The effect of a command on the state. -/
def exec (i : Instr) (s : State) : Host.Outcome State Fault Refusal :=
  match i with
  | .brReadBit => Sys2Proof.Machine.execBrReadBit s
  | .brReadU8 => Sys2Proof.Machine.execBrReadU8 s
  | .brReadU16 => Sys2Proof.Machine.execBrReadU16 s
  | .brReadU32 => Sys2Proof.Machine.execBrReadU32 s
  | .brReadU64 => Sys2Proof.Machine.execBrReadU64 s
  | .brSkipBits => Sys2Proof.Machine.execBrSkipBits s
  | .brSetPosition => Sys2Proof.Machine.execBrSetPosition s
  | .brPosition => Sys2Proof.Machine.execBrPosition s
  | .bwWriteBit b => Sys2Proof.Machine.execBwWriteBit b s
  | .bwWriteU8 => Sys2Proof.Machine.execBwWriteU8 s
  | .bwWriteU16 => Sys2Proof.Machine.execBwWriteU16 s
  | .bwWriteU32 => Sys2Proof.Machine.execBwWriteU32 s
  | .bwWriteU64 => Sys2Proof.Machine.execBwWriteU64 s
  | .bwFlush => Sys2Proof.Machine.execBwFlush s
  | .bwPosition => Sys2Proof.Machine.execBwPosition s
  | .bwRelease => Sys2Proof.Machine.execBwRelease s
  | .encAnalyze => Sys2Proof.Machine.execEncAnalyze s
  | .encAnalyzeFinish => Sys2Proof.Machine.execEncAnalyzeFinish s
  | .encCompress => Sys2Proof.Machine.execEncCompress s
  | .encCompressFinish => Sys2Proof.Machine.execEncCompressFinish s
  | .encPosition => Sys2Proof.Machine.execEncPosition s
  | .encRelease => Sys2Proof.Machine.execEncRelease s
  | .decNew => Sys2Proof.Machine.execDecNew s
  | .decDecode => Sys2Proof.Machine.execDecDecode s

end Sys2Proof.Machine
end

