-- ==== Sys2Proof/WellFormed.lean ====
section
/-! DEFINITION. The checks: on the fields of a command word (30_encoding R70, R73, R76), on the operands of
an assembler line (R79, R80) and on the parameters of a run (00_scope R6, 10_state R25, R35). Every term of
`Instr` is well formed: its one operand is a Bool. -/

namespace Sys2Proof

/-- The opcodes of 30_encoding R75; R76 lists the gaps 0x00, 0x06..0x10, 0x16..0x20, 0x27..0x30,
0x33..0xFF. -/
def CmdFields.opcAssigned (f : CmdFields) : Bool :=
  let o := f.opc.toNat
  (1 ≤ o && o ≤ 5) || (0x11 ≤ o && o ≤ 0x15) || (0x21 ≤ o && o ≤ 0x26) || (0x31 ≤ o && o ≤ 0x32)

/-- "reserved | must be 0" (R70). -/
def CmdFields.reservedZero (f : CmdFields) : Bool := f.rsv == 0

/-- W "must be 0 for every other opcode" than the reads and writes of a width (R70). -/
def CmdFields.widthLegal (f : CmdFields) : Bool :=
  f.w == 0 || f.opc == 0x02 || f.opc == 0x12

/-- B "must be 0 for every other opcode" than BW_WRITE_BIT (R70). -/
def CmdFields.bitLegal (f : CmdFields) : Bool := !f.b || f.opc == 0x11

/-- A legal command word, by its fields (R70, R73, R76). -/
def CmdFields.wf (f : CmdFields) : Bool :=
  f.opcAssigned && f.reservedZero && f.widthLegal && f.bitLegal

/-- The operands of a line fit the registers they are written to; `bw.write_bits V, N` has 1 ≤ N ≤ 64 and
takes the bits V[N-1..0] (R80). DESIGN CHOICE (log 23): V below 2^64 there too, though R80 bounds only N and
V is written to no register. -/
def Line.wf : Line → Bool
  | .brReadBit | .brReadU8 | .brReadU16 | .brReadU32 | .brReadU64 | .brPosition => true
  | .brSkipBits n => n < 2 ^ 64
  | .brSetPosition i => i < 2 ^ 64
  | .bwWriteBit _ => true
  | .bwWriteU8 v | .bwWriteU16 v | .bwWriteU32 v | .bwWriteU64 v => v < 2 ^ 64
  | .bwFlush | .bwPosition | .bwRelease => true
  | .encAnalyze _ | .encCompress _ => true
  | .encAnalyzeFinish | .encCompressFinish | .encPosition | .encRelease => true
  | .decNew h => h < 2 ^ 64
  | .decDecode s l => s < 2 ^ 64 && l < 2 ^ 64
  | .bwWriteBits v n => v < 2 ^ 64 && 1 ≤ n && n ≤ 64
  | .brRewind => true
  | .decDecodeBytes s n => s < 2 ^ 64 && 8 * n < 2 ^ 64

/-- The lengths of SRC and DSRC are below 2^61 (10_state R25, R35); the bases are multiples of 8
(00_scope R6). -/
def Params.wf (p : Params) : Bool :=
  p.src.length < 2 ^ 61 && p.dsrc.length < 2 ^ 61 && p.bwBase.toNat % 8 == 0 && p.wBase.toNat % 8 == 0

end Sys2Proof
end

