-- ==== Sys2Proof/Decode.lean ====
section
/-! DEFINITION. Decoding and encoding the command word (30_encoding R70 to R77). One format, one length:
no prefix, mode bit or compressed form. -/

namespace Sys2Proof

/-- The fields of a word (R70). -/
def splitWord (word : CmdWord) : CmdFields :=
  { opc := word.extractLsb' 0 8
    w   := word.extractLsb' 8 2
    b   := word.getLsbD 10
    rsv := word.extractLsb' 11 21 }

/-- A row of the opcode map (R75): the values of OPC, W and B, and the command. -/
structure OpRow where
  opc   : BitVec 8
  w     : BitVec 2
  b     : Bool
  instr : Instr
  deriving DecidableEq, Repr

/-- The opcode map of R75, row by row; BW_WRITE_BIT stands with either value of B. -/
def opcodeMap : List OpRow :=
  [ ⟨0x01, 0, false, .brReadBit⟩,
    ⟨0x02, 0, false, .brReadU8⟩,
    ⟨0x02, 1, false, .brReadU16⟩,
    ⟨0x02, 2, false, .brReadU32⟩,
    ⟨0x02, 3, false, .brReadU64⟩,
    ⟨0x03, 0, false, .brSkipBits⟩,
    ⟨0x04, 0, false, .brSetPosition⟩,
    ⟨0x05, 0, false, .brPosition⟩ ] ++
  [ ⟨0x11, 0, false, .bwWriteBit false⟩,
    ⟨0x11, 0, true,  .bwWriteBit true⟩,
    ⟨0x12, 0, false, .bwWriteU8⟩,
    ⟨0x12, 1, false, .bwWriteU16⟩,
    ⟨0x12, 2, false, .bwWriteU32⟩,
    ⟨0x12, 3, false, .bwWriteU64⟩,
    ⟨0x13, 0, false, .bwFlush⟩,
    ⟨0x14, 0, false, .bwPosition⟩,
    ⟨0x15, 0, false, .bwRelease⟩ ] ++
  [ ⟨0x21, 0, false, .encAnalyze⟩,
    ⟨0x22, 0, false, .encAnalyzeFinish⟩,
    ⟨0x23, 0, false, .encCompress⟩,
    ⟨0x24, 0, false, .encCompressFinish⟩,
    ⟨0x25, 0, false, .encPosition⟩,
    ⟨0x26, 0, false, .encRelease⟩,
    ⟨0x31, 0, false, .decNew⟩,
    ⟨0x32, 0, false, .decDecode⟩ ]

/-- The command of the fields, if the reserved bits are 0 and the map has the row. -/
def decodeFields (f : CmdFields) : Option Instr :=
  if f.rsv = 0 then
    (opcodeMap.find? fun r => r.opc == f.opc && r.w == f.w && r.b == f.b).map (·.instr)
  else none

/-- The command a word spells, `none` for an illegal word (R76). Total on every 32-bit word. -/
def decode (word : CmdWord) : Option Instr := decodeFields (splitWord word)

/-- A word from its fields OPC, W, B, the reserved bits 0 (R70). -/
def assembleWord (opc w b : Nat) : CmdWord :=
  BitVec.ofNat 32 (opc + w * 2 ^ 8 + b * 2 ^ 10)

/-- The word of a command (R70 with the OPC, W and B columns of R75). -/
def encode : Instr → CmdWord
  | .brReadBit         => assembleWord 0x01 0 0
  | .brReadU8          => assembleWord 0x02 0 0
  | .brReadU16         => assembleWord 0x02 1 0
  | .brReadU32         => assembleWord 0x02 2 0
  | .brReadU64         => assembleWord 0x02 3 0
  | .brSkipBits        => assembleWord 0x03 0 0
  | .brSetPosition     => assembleWord 0x04 0 0
  | .brPosition        => assembleWord 0x05 0 0
  | .bwWriteBit b      => assembleWord 0x11 0 b.toNat
  | .bwWriteU8         => assembleWord 0x12 0 0
  | .bwWriteU16        => assembleWord 0x12 1 0
  | .bwWriteU32        => assembleWord 0x12 2 0
  | .bwWriteU64        => assembleWord 0x12 3 0
  | .bwFlush           => assembleWord 0x13 0 0
  | .bwPosition        => assembleWord 0x14 0 0
  | .bwRelease         => assembleWord 0x15 0 0
  | .encAnalyze        => assembleWord 0x21 0 0
  | .encAnalyzeFinish  => assembleWord 0x22 0 0
  | .encCompress       => assembleWord 0x23 0 0
  | .encCompressFinish => assembleWord 0x24 0 0
  | .encPosition       => assembleWord 0x25 0 0
  | .encRelease        => assembleWord 0x26 0 0
  | .decNew            => assembleWord 0x31 0 0
  | .decDecode         => assembleWord 0x32 0 0

/-- The CMD word of a table row's `nbits` bits `w`; every bit above them is 0. A command is one 32-bit word
written to CMD as a whole (R70), so no byte order enters. -/
def tableWord (nbits w : Nat) : CmdWord := BitVec.ofNat 32 (w % 2 ^ nbits)

/-- The instruction the decoder reads from a table row's bits. -/
def decodeTableWord (nbits w : Nat) : Option Instr := decode (tableWord nbits w)

end Sys2Proof
end

