-- ==== Sys2Proof/Machine/Program.lean ====
section
/-! DEFINITION. The host's side: what one move does, and the moves an assembler line stands for
(20_memory R68; 30_encoding R79, R80, R81). -/

namespace Sys2Proof.Machine

/-- The effect of one host move while no command is pending. A command is only issued here; it runs in the
next step. -/
def State.hostMove (s : State) : HostMove → State
  | .writeArg0 v => s.withArg0 v
  | .writeArg1 v => s.withArg1 v
  | .issue word input inputIo => { s with cmd := some word, input := input, inputIo := inputIo }
  | .reset p => (State.resetWith p).withHost s.host

/-- The end of an illegal word: IllegalCommand, nothing else changes (30_encoding R76). -/
def State.illegalCommand (s : State) : Result := s.raise .illegalCommand

/-- The host writes a word to CMD with the IN of the command. DESIGN CHOICE (log 22): every byte of a line's
IN is answered ok; a failing byte of IN is a move of its own, outside the lines. -/
def issueMove (i : Instr) (bytes : List Byte) : HostMove := .issue (encode i) bytes []

/-- The host writes ARG0, then the command word. -/
def withOperand (v : Nat) (i : Instr) : List HostMove :=
  [.writeArg0 (BitVec.ofNat 64 v), issueMove i []]

/-- The moves of a line: "the host writes the numeric operands to ARG0 (first) and ARG1 (second), supplies
BYTES as IN, then writes the rule R75 word to CMD" (R79); a pseudo-instruction expands as R80 says. -/
def lineMoves : Line → List HostMove
  | .brReadBit => [issueMove .brReadBit []]
  | .brReadU8 => [issueMove .brReadU8 []]
  | .brReadU16 => [issueMove .brReadU16 []]
  | .brReadU32 => [issueMove .brReadU32 []]
  | .brReadU64 => [issueMove .brReadU64 []]
  | .brSkipBits n => withOperand n .brSkipBits
  | .brSetPosition i => withOperand i .brSetPosition
  | .brPosition => [issueMove .brPosition []]
  | .bwWriteBit b => [issueMove (.bwWriteBit b) []]
  | .bwWriteU8 v => withOperand v .bwWriteU8
  | .bwWriteU16 v => withOperand v .bwWriteU16
  | .bwWriteU32 v => withOperand v .bwWriteU32
  | .bwWriteU64 v => withOperand v .bwWriteU64
  | .bwFlush => [issueMove .bwFlush []]
  | .bwPosition => [issueMove .bwPosition []]
  | .bwRelease => [issueMove .bwRelease []]
  | .encAnalyze bytes => [issueMove .encAnalyze bytes]
  | .encAnalyzeFinish => [issueMove .encAnalyzeFinish []]
  | .encCompress bytes => [issueMove .encCompress bytes]
  | .encCompressFinish => [issueMove .encCompressFinish []]
  | .encPosition => [issueMove .encPosition []]
  | .encRelease => [issueMove .encRelease []]
  | .decNew h => withOperand h .decNew
  | .decDecode st l =>
    [.writeArg0 (BitVec.ofNat 64 st), .writeArg1 (BitVec.ofNat 64 l), issueMove .decDecode []]
  | .bwWriteBits v n => (bitsMsb n v).map fun b => issueMove (.bwWriteBit b) []
  | .brRewind => withOperand 0 .brSetPosition
  | .decDecodeBytes st n =>
    [.writeArg0 (BitVec.ofNat 64 st), .writeArg1 (BitVec.ofNat 64 (8 * n)), issueMove .decDecode []]

/-- The moves of a program (R81): its lines in order. -/
def programMoves (lines : List Line) : List HostMove := lines.flatMap lineMoves

end Sys2Proof.Machine
end

