-- ==== Sys2Proof/Machine/Step.lean ====
section
/-! DEFINITION. One step: a pending command runs to completion (10_state R20, R62); with none pending the
host's next move happens (30_encoding R81); with no move left the block waits (70_reset_and_hazards R261).
The block has no program counter and fetches nothing (10_state R24): the word in CMD is the next command. -/

namespace Sys2Proof.Machine

/-- Run the word taken from CMD; the illegal word is checked first of all (60_exceptions R235). -/
def runWord (word : CmdWord) (s : State) : Host.Outcome State Fault Refusal :=
  match decode word with
  | some i => exec i s
  | none => s.illegalCommand

/-- One step of the machine. -/
def step (s : State) : Host.Outcome State Fault Refusal :=
  match s.cmd with
  | some word => runWord word (s.withCmd none)
  | none =>
    match s.host with
    | [] => .next s
    | m :: ms => .next ((s.withHost ms).hostMove m)

/-- The state with a table row's word pending in CMD: the next step runs it. -/
def State.withFetchWord (s : State) (nbits w : Nat) : State := s.withCmd (some (tableWord nbits w))

end Sys2Proof.Machine
end

