-- ==== Sys2Proof/Safety.lean ====
section
/-! DEFINITION. The words the claims are made of: which unit a command addresses, the state table of ENC,
the bits a writer holds, what a consistent dictionary is, and the invariants every step keeps. -/

namespace Sys2Proof.Machine

/-! ### Units -/

/-- The four units (00_scope R1). -/
inductive UnitName where
  | br | bw | enc | dec
  deriving DecidableEq, Repr

/-- The unit a command addresses (30_encoding R75, column Unit). -/
def unitOf : Instr → UnitName
  | .brReadBit | .brReadU8 | .brReadU16 | .brReadU32 | .brReadU64 | .brSkipBits | .brSetPosition
  | .brPosition => .br
  | .bwWriteBit _ | .bwWriteU8 | .bwWriteU16 | .bwWriteU32 | .bwWriteU64 | .bwFlush | .bwPosition
  | .bwRelease => .bw
  | .encAnalyze | .encAnalyzeFinish | .encCompress | .encCompressFinish | .encPosition | .encRelease => .enc
  | .decNew | .decDecode => .dec

/-- The sticky fault flag of a unit (10_state R39). -/
def State.faultOf (s : State) : UnitName → Bool
  | .br => s.br.iof
  | .bw => s.bw.iof
  | .enc => s.enc.iof
  | .dec => s.dec.iof

/-- The commands whose result R74 puts into RES. -/
def hasResult : Instr → Bool
  | .brReadBit | .brReadU8 | .brReadU16 | .brReadU32 | .brReadU64 | .brPosition => true
  | .bwPosition => true
  | .encAnalyze | .encAnalyzeFinish | .encCompress | .encPosition => true
  | .decNew | .decDecode => true
  | .brSkipBits | .brSetPosition => false
  | .bwWriteBit _ | .bwWriteU8 | .bwWriteU16 | .bwWriteU32 | .bwWriteU64 | .bwFlush | .bwRelease => false
  | .encCompressFinish | .encRelease => false

/-- The state table of ENC (43_encoder R170): where a command runs. Other units' commands run in every
ESTATE. -/
def encRunsIn : Instr → EState → Bool
  | .encAnalyze, t | .encAnalyzeFinish, t => t == .initial
  | .encCompress, t | .encCompressFinish, t => t == .analyzed
  | .encRelease, t => t != .released
  | _, _ => true

/-- ESTATE after a command that ended with the given code (43_encoder R170, R172, R175, R177, R178). -/
def estateAfter : Instr → StatusCode → EState → EState
  | .encAnalyzeFinish, .ok, _ => .analyzed
  | .encAnalyzeFinish, .codeTooLong, _ => .failed
  | .encCompressFinish, .ok, _ => .compressed
  | .encRelease, .ok, _ => .released
  | _, _, e => e

/-- The width of a BR read, 0 for every other command (40_bit_reader R101 to R106). -/
def readWidth : Instr → Nat
  | .brReadBit => 1
  | .brReadU8 => 8
  | .brReadU16 => 16
  | .brReadU32 => 32
  | .brReadU64 => 64
  | _ => 0

/-- The codes a command can end with (60_exceptions R230, column "Raised by"; every command raises OK, and Io
when its unit's sticky fault is set). -/
def mayEndWith (i : Instr) : StatusCode → Bool
  | .ok | .io => true
  | .endOfStream => 0 < readWidth i
  | .invalidState =>
    (unitOf i == .bw && i != .bwPosition) || (unitOf i == .enc && i != .encPosition) || i == .decDecode
  | .invalidHeader => i == .decNew
  | .corruptStream => i == .decDecode
  | .unknownSymbol => i == .encCompress
  | .codeTooLong => i == .encAnalyzeFinish
  | .illegalCommand => false

/-! ### Transfers -/

/-- Every transfer of the stream at the indices lo .. lo+n-1 is answered ok. -/
def State.TransfersOk (s : State) (S : Stream) (lo n : Nat) : Prop :=
  ∀ k < n, s.answer S (lo + k) = .ok

/-- Every transfer of every stream is answered ok: the simulator's oracle (20_memory R56). -/
def State.AllTransfersOk (s : State) : Prop := ∀ S i, s.answer S i = .ok

/-! ### Streams of bits -/

/-- All bits of a byte sequence, in stream order (00_scope R9). -/
def allBits (bytes : List Byte) : List Bool := streamBits bytes 0 (8 * bytes.length)

/-- The bits a writer holds: those of its sink, then the pending bits of BUF (20_memory R64). -/
def Writer.bits (w : Writer) : List Bool :=
  allBits w.sink ++ (List.range w.cnt.val).map fun i => w.buf.getLsbD i

/-- "bits at and above BW.CNT are 0" (10_state R27). -/
def Writer.Clean (w : Writer) : Prop := ∀ i, w.cnt.val ≤ i → w.buf.getLsbD i = false

/-- `POS = BASE + 8 × |SINK| + CNT` (10_state R27), wherever that number fits in 64 bits (log 6). -/
def Writer.PosExact (base : Pos) (w : Writer) : Prop :=
  base.toNat + w.bitCount < 2 ^ 64 → w.pos.toNat = base.toNat + w.bitCount

/-- The invariant of a writer (10_state R27). -/
def Writer.Inv (base : Pos) (w : Writer) : Prop := w.Clean ∧ w.PosExact base

/-- The stream bits of a source from position p on begin with the given bits; no bit is asked of the source
where none is given. -/
def BitsAt (source : List Byte) (p : Nat) (bits : List Bool) : Prop :=
  (bits = [] ∨ p + bits.length ≤ 8 * source.length) ∧ streamBits source p bits.length = bits

/-- The bits of a register below bit n, most significant first (20_memory R52). -/
def lowBits (n : Nat) (v : Word) : List Bool := (List.range n).map fun j => v.getLsbD (n - 1 - j)

/-! ### Codes and dictionaries -/

/-- The path of a code is an initial segment of another's (00_scope R12, prefix code). -/
def Code.InitialOf (a b : Code) : Prop := codeBits a <+: codeBits b

/-- A code of 1 to 16 bits with no bit set at or above its length (30_encoding R88, 44_decoder R203). -/
def Code.InRange (c : Code) : Prop :=
  1 ≤ c.len.toNat ∧ c.len.toNat ≤ 16 ∧ c.bits.toNat < 2 ^ c.len.toNat

/-- Two entries that may stand in one dictionary: different symbols, and neither code an initial segment of
the other (00_scope R12; 44_decoder R203 cases 3 and 4). -/
def InvEntry.Apart (a b : InvEntry) : Prop :=
  a.sym ≠ b.sym ∧ ¬ a.code.InitialOf b.code ∧ ¬ b.code.InitialOf a.code

/-- A consistent dictionary (44_decoder R203): every code in range, the entries pairwise apart. -/
def ConsistentDict (es : List InvEntry) : Prop :=
  (∀ e ∈ es, e.code.InRange) ∧ es.Pairwise InvEntry.Apart

/-- The codes of a byte sequence, one after another, by a dictionary's entries: `some bits` when every byte
has a code. -/
def encodeBytes (code : Byte → Option Code) : List Byte → Option (List Bool)
  | [] => some []
  | b :: bs =>
    match code b, encodeBytes code bs with
    | some c, some rest => some (codeBits c ++ rest)
    | _, _ => none

/-- The code of a symbol in a list of entries. -/
def codeIn (es : List InvEntry) (s : Byte) : Option Code := (es.find? fun e => e.sym == s).map (·.code)

/-- A header entry that may hold a symbol length other than 1 (30_encoding R85). -/
def rawEntryBits (p : InvEntry × BitVec 8) : List Bool :=
  bitsMsb 8 p.1.code.len.toNat ++ bitsMsb 16 p.1.code.bits.toNat ++ bitsMsb 8 p.2.toNat
    ++ bitsMsb 8 p.1.sym.toNat

/-- A header of such entries (30_encoding R85). -/
def rawHeaderBits (es : List (InvEntry × BitVec 8)) : List Bool :=
  bitsMsb 16 es.length ++ es.flatMap rawEntryBits

/-- The node a path leads to from node i: `false` to the left child, `true` to the right one
(42_tree_dictionary R148). -/
def follow (tree : List Node) : Nat → List Bool → Option Nat
  | i, [] => some i
  | i, b :: bs =>
    match tree[i]? with
    | some { kind := .internal l r, .. } => follow tree (if b then r else l) bs
    | _ => none

/-- Where a node stands among nodes of the same weight: a leaf before an internal node
(42_tree_dictionary R142, "ties prefer the leaves queue"). -/
def NodeKind.rank : NodeKind → Nat
  | .leaf _ => 0
  | .internal _ _ => 1

/-- Node m, at index i, is picked before node n, at index j (42_tree_dictionary R142): the lighter one, among
equal weights a leaf before an internal node, then the one created first. -/
def Node.Before (m : Node) (i : Nat) (n : Node) (j : Nat) : Prop :=
  m.weight.toNat < n.weight.toNat
    ∨ (m.weight.toNat = n.weight.toNat
      ∧ (m.kind.rank < n.kind.rank ∨ (m.kind.rank = n.kind.rank ∧ i < j)))

/-- `Σ 2^(16 - len)` over the entries: 2^16 times the Kraft sum (42_tree_dictionary R153). -/
def kraftSum (es : List InvEntry) : Nat := (es.map fun e => 2 ^ (16 - e.code.len.toNat)).sum

/-- `Σ FREQ[s] × len(s)` over the symbols counted (42_tree_dictionary R155). -/
def payloadLength (freq : Vector Count 256) (len : Byte → Nat) : Nat :=
  ((usedSymbols freq).map fun p => p.2.toNat * len p.1).sum

/-- The number of symbols with `FREQ[s] > 0`. -/
def Enc.distinct (e : Enc) : Nat := (usedSymbols e.freq).length

/-- `Σ FREQ[s]`. -/
def freqSum (freq : Vector Count 256) : Nat := (freq.toList.map (·.toNat)).sum

/-! ### The invariants -/

/-- The move fixes legal parameters, if it fixes any (00_scope R6, 10_state R25, R35). -/
def HostMove.wf : HostMove → Bool
  | .reset p => p.wf
  | .writeArg0 _ | .writeArg1 _ | .issue _ _ _ => true

/-- The parameters of this run, and of every run the host will start, are legal. -/
def ParamsInv (s : State) : Prop := s.params.wf = true ∧ ∀ m ∈ s.host, m.wf = true

/-- The streams' invariant: legal parameters, empty queues of returned bits (10_state R26), and each writer's
invariant while its unit has no fault (10_state R27, R28). -/
def StreamInv (s : State) : Prop :=
  ParamsInv s ∧ s.br.rd.pb = [] ∧ s.dec.rd.pb = []
    ∧ (s.bw.iof = false → s.bw.wr.Inv s.params.bwBase)
    ∧ (s.enc.iof = false → s.enc.ew.Inv s.params.wBase)

/-- TOTAL is the sum of the counts and below TOTAL_LIMIT (10_state R28, R31). -/
def CountInv (s : State) : Prop :=
  s.enc.total.toNat = freqSum s.enc.freq ∧ freqSum s.enc.freq < 2 ^ 61

/-- No tree and no dictionary before ENC_ANALYZE_FINISH (10_state R28), unless its header failed with Io
(60_exceptions R233); afterwards DICT is a consistent dictionary with a code for exactly the symbols counted
(42_tree_dictionary R151, R153; 10_state R33). -/
def DictInv (s : State) : Prop :=
  (s.enc.estate = .initial → s.enc.iof = false → s.enc.tree = [] ∧ ∀ b, s.enc.codeOf b = none)
    ∧ (s.enc.estate = .analyzed ∨ s.enc.estate = .compressed →
        ConsistentDict (dictEntries s.enc.dict)
          ∧ ∀ b, (s.enc.codeOf b).isSome = true ↔ 0 < (s.enc.freqOf b).toNat)

/-- INV is a consistent dictionary of at most 256 entries with MAXLEN its longest code (10_state R35); it is
empty while DEC is unconstructed (44_decoder R200). -/
def InverseInv (s : State) : Prop :=
  ConsistentDict s.dec.inv ∧ s.dec.inv.length ≤ 256
    ∧ s.dec.maxLen.toNat = maxLenOf s.dec.inv
    ∧ (s.dec.dstate = .unconstructed → s.dec.inv = [])

/-- The next step takes the block through reset. -/
def State.Resets (s : State) : Prop := s.cmd = none ∧ ∃ p ms, s.host = .reset p :: ms

/-! ### Sequences of commands -/

/-- The commands one after another, while each has a next state. -/
def runCommands : List Instr → State → Option State
  | [], s => some s
  | i :: is, s =>
    match exec i s with
    | .next t => runCommands is t
    | _ => none

/-- The widths of the reads that ended with OK, added up: "failed reads add nothing" (40_bit_reader R109). -/
def bitsReadBy : List Instr → State → Nat
  | [], _ => 0
  | i :: is, s =>
    match exec i s with
    | .next t => (if t.code = .ok then readWidth i else 0) + bitsReadBy is t
    | _ => 0

/-! ### Host programs -/

/-- The first steps of a host that is about to make the moves of a line. -/
def runLine (steps : Nat) (line : Line) (s : State) : Result :=
  Sys2Proof.core.run steps { s with host := lineMoves line }

/-- The state in which a line's command runs, before its operands: IN empty, no move left. -/
def State.issued (s : State) : State := { s with input := [], inputIo := [], host := [] }

/-! ### Members of one payload -/

/-- Compress the members one after another, each with its bytes as IN, every byte of them transferred: the
last state, if every command ended with OK (43_encoder R179). -/
def compressMembers : List (List Byte) → State → Option State
  | [], s => some s
  | x :: xs, s =>
    match exec .encCompress { s with input := x, inputIo := [] } with
    | .next t => if t.code = .ok then compressMembers xs t else none
    | _ => none

end Sys2Proof.Machine
end

