-- ==== Sys2Proof/Certificates/Slice0/Obligations.lean ====
section
/-! DEFINITION. The statements for the provers. Each docstring names the rules of spec/ it formalises. A full
next state `{ s with ... }` says what changes and that nothing else does. -/

open Sys2Proof Sys2Proof.Machine

/-! ### The command word -/

/-- 30_encoding R75, 95_test_vectors V-E01 to V-E13: sample words and what they spell. -/
def Obligations.SampleWordsDecode : Prop :=
  decode 0x00000001 = some .brReadBit ∧ decode 0x00000302 = some .brReadU64
    ∧ decode 0x00000411 = some (.bwWriteBit true) ∧ decode 0x00000011 = some (.bwWriteBit false)
    ∧ decode 0x00000212 = some .bwWriteU32 ∧ decode 0x00000026 = some .encRelease
    ∧ decode 0x00000032 = some .decDecode
    ∧ decode 0x00000000 = none ∧ decode 0x00000402 = none ∧ decode 0x00000111 = none
    ∧ decode 0x00000105 = none ∧ decode 0x00000813 = none ∧ decode 0x80000021 = none

/-- 30_encoding R70, R75: decoding an encoded command gives it back. -/
def Obligations.DecodeOfEncode : Prop := ∀ i : Instr, decode (encode i) = some i

/-- 30_encoding R75: "the word is legal only if it equals one of the words in the table". The words are those
of the table's column Word. -/
def Obligations.LegalWordsAreTheOpcodeMap : Prop :=
  ∀ (word : CmdWord) (i : Instr), decode word = some i ↔ (word, i) ∈
    ([ (0x00000001, .brReadBit), (0x00000002, .brReadU8), (0x00000102, .brReadU16),
       (0x00000202, .brReadU32), (0x00000302, .brReadU64), (0x00000003, .brSkipBits),
       (0x00000004, .brSetPosition), (0x00000005, .brPosition),
       (0x00000011, .bwWriteBit false), (0x00000411, .bwWriteBit true),
       (0x00000012, .bwWriteU8), (0x00000112, .bwWriteU16), (0x00000212, .bwWriteU32),
       (0x00000312, .bwWriteU64), (0x00000013, .bwFlush), (0x00000014, .bwPosition),
       (0x00000015, .bwRelease),
       (0x00000021, .encAnalyze), (0x00000022, .encAnalyzeFinish), (0x00000023, .encCompress),
       (0x00000024, .encCompressFinish), (0x00000025, .encPosition), (0x00000026, .encRelease),
       (0x00000031, .decNew), (0x00000032, .decDecode) ] : List (CmdWord × Instr))

/-- 30_encoding R73, R76: a word whose fields break a check of R70 or R76 ends with IllegalCommand and changes
nothing else. The checks are those of WellFormed.lean, written without the opcode map. CMD as the pending word is the
model's form (log 17). -/
def Obligations.IllegalWordChangesOnlyTheCode : Prop :=
  ∀ (s : State) (word : CmdWord), s.cmd = some word → (splitWord word).wf = false →
    step s = .next { s with cmd := none, code := .illegalCommand }

/-- 10_state R20, R22: a step with a word pending runs the command the word spells. CMD as the pending word is the
model's form (log 17). -/
def Obligations.StepRunsThePendingWord : Prop :=
  ∀ (s : State) (word : CmdWord) (i : Instr), s.cmd = some word → decode word = some i →
    step s = exec i { s with cmd := none }

/-- 20_memory R68, 30_encoding R79, R81 and 70_reset_and_hazards R261: with no word pending the host's next
move happens, and with no move left the block waits. The list of moves is the model's own (log 2). -/
def Obligations.HostMovesOneAtATime : Prop :=
  ∀ s : State, s.cmd = none →
    (s.host = [] → step s = .next s)
    ∧ (∀ v ms, s.host = .writeArg0 v :: ms → step s = .next { s with arg0 := v, host := ms })
    ∧ (∀ v ms, s.host = .writeArg1 v :: ms → step s = .next { s with arg1 := v, host := ms })
    ∧ (∀ w input io ms, s.host = .issue w input io :: ms →
        step s = .next { s with cmd := some w, input := input, inputIo := io, host := ms })

/-! ### Reset and STATUS -/

/-- 70_reset_and_hazards R260: the value of every field after the reset event. That reset can follow other
moves, with the parameters of a new run, is the model's reading (log 16), and the host's moves are its own field
(log 2). -/
def Obligations.ResetSetsEveryField : Prop :=
  ∀ (s : State) (p : Params) (ms : List HostMove), s.cmd = none → s.host = .reset p :: ms →
    ∃ t, step s = .next t
      ∧ t.arg0 = 0 ∧ t.arg1 = 0 ∧ t.res = 0 ∧ t.cmd = none
      ∧ t.status = 0 ∧ t.code = .ok ∧ t.enc.estate = .initial ∧ t.dec.dstate = .unconstructed
      ∧ t.br.iof = false ∧ t.bw.iof = false ∧ t.enc.iof = false ∧ t.dec.iof = false ∧ t.bw.rel = false
      ∧ t.br.rd.pos = 0 ∧ t.br.rd.pb = []
      ∧ t.bw.wr.sink = [] ∧ t.bw.wr.buf = 0 ∧ t.bw.wr.cnt = 0 ∧ t.bw.wr.pos = p.bwBase
      ∧ (∀ b, t.enc.freqOf b = 0) ∧ t.enc.total = 0 ∧ t.enc.tree = [] ∧ (∀ b, t.enc.codeOf b = none)
      ∧ t.enc.payloadStart = 0
      ∧ t.enc.ew.sink = [] ∧ t.enc.ew.buf = 0 ∧ t.enc.ew.cnt = 0 ∧ t.enc.ew.pos = p.wBase
      ∧ t.dec.inv = [] ∧ t.dec.maxLen = 0 ∧ t.dec.rd.pos = 0 ∧ t.dec.rd.pb = [] ∧ t.dec.out = []
      ∧ t.params = p ∧ t.host = ms

/-- 10_state R23, R29, R36; 60_exceptions R230: the fields of STATUS, their encodings, and 0 in 31:18. -/
def Obligations.StatusLayout : Prop :=
  ∀ s : State,
    (s.status.extractLsb' 0 8).toNat =
        (match s.code with
         | .ok => 0 | .endOfStream => 1 | .invalidState => 2 | .invalidHeader => 3 | .corruptStream => 4
         | .io => 5 | .unknownSymbol => 6 | .codeTooLong => 7 | .illegalCommand => 8)
    ∧ (s.status.extractLsb' 8 3).toNat =
        (match s.enc.estate with
         | .initial => 0 | .analyzed => 1 | .compressed => 2 | .failed => 3 | .released => 4)
    ∧ (s.status.extractLsb' 11 2).toNat = (match s.dec.dstate with | .unconstructed => 0 | .ready => 1)
    ∧ s.status.getLsbD 13 = s.br.iof ∧ s.status.getLsbD 14 = s.bw.iof ∧ s.status.getLsbD 15 = s.enc.iof
    ∧ s.status.getLsbD 16 = s.dec.iof ∧ s.status.getLsbD 17 = s.bw.rel
    ∧ s.status.extractLsb' 18 14 = 0

/-! ### The bit reader -/

/-- 40_bit_reader R101: BR_READ_BIT, its result and its errors. -/
def Obligations.BrReadBit : Prop :=
  ∀ s : State,
    (s.br.iof = true → exec .brReadBit s = .next { s with code := .io })
    ∧ (s.br.iof = false → 8 * s.params.src.length ≤ s.br.rd.pos.toNat →
        exec .brReadBit s = .next { s with code := .endOfStream })
    ∧ (s.br.iof = false → s.br.rd.pos.toNat < 8 * s.params.src.length →
        s.answer .src (s.br.rd.pos.toNat / 8) = .fail →
        exec .brReadBit s = .next { s with code := .io, br := { s.br with iof := true } })
    ∧ (s.br.iof = false → s.br.rd.pos.toNat < 8 * s.params.src.length →
        s.answer .src (s.br.rd.pos.toNat / 8) = .ok →
        exec .brReadBit s = .next
          { s with
            code := .ok
            res := if streamBit s.params.src s.br.rd.pos.toNat then 1 else 0
            br := { s.br with rd := { s.br.rd with pos := s.br.rd.pos + 1 } } })

/-- 40_bit_reader R103, R104, R105, R106: the reads of a width, most significant bit first, and their errors. A
read with too few bits left changes nothing. That a read that ends with Io leaves the cursor is the model's reading
(log 18). -/
def Obligations.BrReadWidth : Prop :=
  ∀ (i : Instr) (n : Nat),
    (i, n) ∈ [(Instr.brReadU8, 8), (Instr.brReadU16, 16), (Instr.brReadU32, 32), (Instr.brReadU64, 64)] →
  ∀ s : State,
    (s.br.iof = true → exec i s = .next { s with code := .io })
    ∧ (s.br.iof = false → 8 * s.params.src.length < s.br.rd.pos.toNat + n →
        exec i s = .next { s with code := .endOfStream })
    ∧ (s.br.iof = false → s.br.rd.pos.toNat + n ≤ 8 * s.params.src.length →
        ∀ k, s.br.rd.pos.toNat / 8 + k ≤ (s.br.rd.pos.toNat + n - 1) / 8 →
        (∀ j < k, s.answer .src (s.br.rd.pos.toNat / 8 + j) = .ok) →
        s.answer .src (s.br.rd.pos.toNat / 8 + k) = .fail →
        exec i s = .next { s with code := .io, br := { s.br with iof := true } })
    ∧ (s.br.iof = false → s.br.rd.pos.toNat + n ≤ 8 * s.params.src.length →
        (∀ j, s.br.rd.pos.toNat / 8 ≤ j → j ≤ (s.br.rd.pos.toNat + n - 1) / 8 → s.answer .src j = .ok) →
        ∃ v : Word,
          exec i s = .next
            { s with
              code := .ok
              res := v
              br := { s.br with rd := { s.br.rd with pos := s.br.rd.pos + BitVec.ofNat 64 n } } }
          ∧ (∀ j < n, v.getLsbD (n - 1 - j) = streamBit s.params.src (s.br.rd.pos.toNat + j))
          ∧ (∀ j, n ≤ j → v.getLsbD j = false))

/-- 40_bit_reader R107: BR_SKIP_BITS saturates and never fails by itself. -/
def Obligations.BrSkipBits : Prop :=
  ∀ s : State,
    (s.br.iof = true → exec .brSkipBits s = .next { s with code := .io })
    ∧ (s.br.iof = false → ∃ p : Pos,
        exec .brSkipBits s = .next { s with code := .ok, br := { s.br with rd := { pos := p, pb := [] } } }
        ∧ p.toNat = min (s.br.rd.pos.toNat + s.arg0.toNat) (2 ^ 64 - 1))

/-- 40_bit_reader R108: BR_SET_POSITION accepts any index. -/
def Obligations.BrSetPosition : Prop :=
  ∀ s : State,
    (s.br.iof = true → exec .brSetPosition s = .next { s with code := .io })
    ∧ (s.br.iof = false →
        exec .brSetPosition s =
          .next { s with code := .ok, br := { s.br with rd := { pos := s.arg0, pb := [] } } })

/-- 40_bit_reader R109: BR_POSITION gives the cursor, which is where the reads started plus the widths of those
that ended with OK. -/
def Obligations.BrPositionCountsTheReads : Prop :=
  (∀ s : State,
    (s.br.iof = true → exec .brPosition s = .next { s with code := .io })
    ∧ (s.br.iof = false → exec .brPosition s = .next { s with code := .ok, res := s.br.rd.pos }))
  ∧ ∀ (is : List Instr) (s t : State), (∀ i ∈ is, 0 < readWidth i) → s.params.src.length < 2 ^ 61 →
      runCommands is s = some t → t.br.iof = false →
      t.br.rd.pos.toNat = s.br.rd.pos.toNat + bitsReadBy is s

/-! ### The bit writer -/

/-- 41_bit_writer R121: BW_WRITE_BIT. The bit goes to bit CNT of BUF; the eighth completes a byte. The cursor is
stated where it fits in 64 bits; past that it is a free value (log 6), and so is CNT after a failed push
(log 8). -/
def Obligations.BwWriteBit : Prop :=
  ∀ (s : State) (b : Bool),
    (s.bw.iof = true → exec (.bwWriteBit b) s = .next { s with code := .io })
    ∧ (s.bw.iof = false → s.bw.rel = true → exec (.bwWriteBit b) s = .next { s with code := .invalidState })
    ∧ (s.bw.iof = false → s.bw.rel = false → s.bw.wr.Clean → ∃ (byte : Byte) (p : Pos),
        (∀ k, byte.getLsbD k = if k = s.bw.wr.cnt.val then b else s.bw.wr.buf.getLsbD k)
        ∧ (s.bw.wr.pos.toNat + 1 < 2 ^ 64 → p.toNat = s.bw.wr.pos.toNat + 1)
        ∧ (∀ h : s.bw.wr.cnt.val + 1 < 8,
            exec (.bwWriteBit b) s = .next
              { s with
                code := .ok
                bw := { s.bw with
                        wr := { s.bw.wr with buf := byte, cnt := ⟨s.bw.wr.cnt.val + 1, h⟩, pos := p } } })
        ∧ (s.bw.wr.cnt.val = 7 → s.answer .bwSink s.bw.wr.sink.length = .ok →
            exec (.bwWriteBit b) s = .next
              { s with
                code := .ok
                bw := { s.bw with
                        wr := { sink := s.bw.wr.sink ++ [byte], buf := 0, cnt := 0, pos := p } } })
        ∧ (s.bw.wr.cnt.val = 7 → s.answer .bwSink s.bw.wr.sink.length = .fail →
            ∃ w, exec (.bwWriteBit b) s = .next
                { s with code := .io, bw := { s.bw with wr := w, iof := true } }
              ∧ w.sink = s.bw.wr.sink))

/-- 41_bit_writer R124, R125, R126, R127: the writes of a width put ARG0[N-1:0], most significant bit first,
behind the bits the writer holds; when the push of a byte fails, the bytes before it stay. -/
def Obligations.BwWriteWidth : Prop :=
  ∀ (i : Instr) (n : Nat),
    (i, n) ∈ [(Instr.bwWriteU8, 8), (Instr.bwWriteU16, 16), (Instr.bwWriteU32, 32), (Instr.bwWriteU64, 64)] →
  ∀ s : State,
    (s.bw.iof = true → exec i s = .next { s with code := .io })
    ∧ (s.bw.iof = false → s.bw.rel = true → exec i s = .next { s with code := .invalidState })
    ∧ (s.bw.iof = false → s.bw.rel = false → s.bw.wr.Clean →
        s.TransfersOk .bwSink s.bw.wr.sink.length (n / 8) →
        ∃ w : Writer,
          exec i s = .next { s with code := .ok, bw := { s.bw with wr := w } }
          ∧ w.bits = s.bw.wr.bits ++ lowBits n s.arg0 ∧ w.Clean
          ∧ s.bw.wr.sink <+: w.sink ∧ w.sink.length = s.bw.wr.sink.length + n / 8
          ∧ w.cnt = s.bw.wr.cnt
          ∧ (s.bw.wr.pos.toNat + n < 2 ^ 64 → w.pos.toNat = s.bw.wr.pos.toNat + n))
    ∧ (s.bw.iof = false → s.bw.rel = false → s.bw.wr.Clean →
        ∀ k < n / 8, s.TransfersOk .bwSink s.bw.wr.sink.length k →
        s.answer .bwSink (s.bw.wr.sink.length + k) = .fail →
        ∃ w : Writer,
          exec i s = .next { s with code := .io, bw := { s.bw with wr := w, iof := true } }
          ∧ w.sink.length = s.bw.wr.sink.length + k
          ∧ allBits w.sink <+: s.bw.wr.bits ++ lowBits n s.arg0)

/-- 20_memory R52: "a u8 value b written at a byte-aligned position lands in the stream as the byte bitrev8(b)",
and a u16 value as the two reversed bytes, the high one first. -/
def Obligations.AlignedWritesReverseBytes : Prop :=
  ∀ s : State, s.bw.iof = false → s.bw.rel = false → s.bw.wr.cnt = 0 → s.bw.wr.buf = 0 →
    (s.TransfersOk .bwSink s.bw.wr.sink.length 1 →
      ∃ t, exec .bwWriteU8 s = .next t
        ∧ t.bw.wr.sink = s.bw.wr.sink ++ [bitrev8 (s.arg0.extractLsb' 0 8)] ∧ t.bw.wr.cnt = 0)
    ∧ (s.TransfersOk .bwSink s.bw.wr.sink.length 2 →
      ∃ t, exec .bwWriteU16 s = .next t
        ∧ t.bw.wr.sink =
            s.bw.wr.sink ++ [bitrev8 (s.arg0.extractLsb' 8 8), bitrev8 (s.arg0.extractLsb' 0 8)]
        ∧ t.bw.wr.cnt = 0)

/-- 41_bit_writer R128: BW_FLUSH pushes the partial byte and is idempotent. -/
def Obligations.BwFlush : Prop :=
  ∀ s : State,
    (s.bw.iof = true → exec .bwFlush s = .next { s with code := .io })
    ∧ (s.bw.iof = false → s.bw.rel = true → exec .bwFlush s = .next { s with code := .invalidState })
    ∧ (s.bw.iof = false → s.bw.rel = false → s.bw.wr.cnt.val = 0 →
        exec .bwFlush s = .next { s with code := .ok })
    ∧ (s.bw.iof = false → s.bw.rel = false → 0 < s.bw.wr.cnt.val →
        s.answer .bwSink s.bw.wr.sink.length = .ok →
        ∃ p : Pos,
          exec .bwFlush s = .next
            { s with
              code := .ok
              bw := { s.bw with
                      wr := { sink := s.bw.wr.sink ++ [s.bw.wr.buf], buf := 0, cnt := 0, pos := p } } }
          ∧ (s.bw.wr.pos.toNat + (8 - s.bw.wr.cnt.val) < 2 ^ 64 →
              p.toNat = s.bw.wr.pos.toNat + (8 - s.bw.wr.cnt.val)))
    ∧ (s.bw.iof = false → s.bw.rel = false → 0 < s.bw.wr.cnt.val →
        s.answer .bwSink s.bw.wr.sink.length = .fail →
        exec .bwFlush s = .next { s with code := .io, bw := { s.bw with iof := true } })
    ∧ (∀ t, exec .bwFlush s = .next t → t.code = .ok → exec .bwFlush t = .next t)

/-- 41_bit_writer R130: BW_RELEASE flushes and ends the writer's scope; afterwards only BW_POSITION succeeds. -/
def Obligations.BwRelease : Prop :=
  ∀ s : State,
    (s.bw.iof = true → exec .bwRelease s = .next { s with code := .io })
    ∧ (s.bw.iof = false → s.bw.rel = false → s.bw.wr.cnt.val = 0 →
        exec .bwRelease s = .next { s with code := .ok, bw := { s.bw with rel := true } })
    ∧ (s.bw.iof = false → s.bw.rel = false → 0 < s.bw.wr.cnt.val →
        s.answer .bwSink s.bw.wr.sink.length = .ok →
        ∃ p : Pos,
          exec .bwRelease s = .next
            { s with
              code := .ok
              bw := { s.bw with
                      wr := { sink := s.bw.wr.sink ++ [s.bw.wr.buf], buf := 0, cnt := 0, pos := p }
                      rel := true } }
          ∧ (s.bw.wr.pos.toNat + (8 - s.bw.wr.cnt.val) < 2 ^ 64 →
              p.toNat = s.bw.wr.pos.toNat + (8 - s.bw.wr.cnt.val)))
    ∧ (s.bw.iof = false → s.bw.rel = false → 0 < s.bw.wr.cnt.val →
        s.answer .bwSink s.bw.wr.sink.length = .fail →
        exec .bwRelease s = .next { s with code := .io, bw := { s.bw with iof := true } })
    ∧ (s.bw.iof = false → s.bw.rel = true → ∀ i : Instr, unitOf i = .bw → i ≠ .bwPosition →
        exec i s = .next { s with code := .invalidState })

/-- 41_bit_writer R129: BW_POSITION gives the cursor, after a release too; N single bits move it by N. -/
def Obligations.BwPositionCountsTheBits : Prop :=
  (∀ s : State,
    (s.bw.iof = true → exec .bwPosition s = .next { s with code := .io })
    ∧ (s.bw.iof = false → exec .bwPosition s = .next { s with code := .ok, res := s.bw.wr.pos }))
  ∧ ∀ (bits : List Bool) (s t : State), s.bw.rel = false → s.bw.wr.pos.toNat + bits.length < 2 ^ 64 →
      runCommands (bits.map .bwWriteBit) s = some t → t.bw.iof = false →
      t.bw.wr.pos.toNat = s.bw.wr.pos.toNat + bits.length

/-- 20_memory R53 and the source's "Bit I/O identity" (95_test_vectors V-S4): a value written at any bit position
and flushed is read back at that position, once the sink's bytes are the source of a new run. -/
def Obligations.WrittenValueReadsBack : Prop :=
  ∀ (wi ri : Instr) (n : Nat),
    (wi, ri, n) ∈ [(Instr.bwWriteU8, Instr.brReadU8, 8), (Instr.bwWriteU16, Instr.brReadU16, 16),
      (Instr.bwWriteU32, Instr.brReadU32, 32), (Instr.bwWriteU64, Instr.brReadU64, 64)] →
  ∀ s : State, s.bw.iof = false → s.bw.rel = false → s.bw.wr.Clean → (∀ k, s.answer .bwSink k = .ok) →
    ∃ t u, exec wi s = .next t ∧ exec .bwFlush t = .next u ∧ t.code = .ok ∧ u.code = .ok
      ∧ ∀ r : State, r.br.iof = false → (∀ k, r.answer .src k = .ok) → r.params.src = u.bw.wr.sink →
          r.br.rd.pos.toNat = s.bw.wr.bitCount →
          ∃ q, exec ri r = .next q ∧ q.code = .ok ∧ q.res.toNat = s.arg0.toNat % 2 ^ n

/-! ### Rules over all commands -/

/-- 10_state R39, 60_exceptions R234: an Io failure sets the flag of the unit that failed and of no other; from
then on every command to that unit ends with Io and changes nothing, until reset. -/
def Obligations.IoFaultIsSticky : Prop :=
  (∀ (i : Instr) (s : State), s.faultOf (unitOf i) = true → exec i s = .next { s with code := .io })
  ∧ (∀ (i : Instr) (s t : State), exec i s = .next t → t.code = .io → t.faultOf (unitOf i) = true)
  ∧ (∀ (i : Instr) (s t : State), exec i s = .next t → t.code ≠ .io →
      t.faultOf (unitOf i) = s.faultOf (unitOf i))
  ∧ (∀ (i : Instr) (s t : State), exec i s = .next t → ∀ u, u ≠ unitOf i → t.faultOf u = s.faultOf u)
  ∧ (∀ s t : State, step s = .next t → ¬ s.Resets → ∀ u, s.faultOf u = true → t.faultOf u = true)

/-- 10_state R21: "A command never writes ARG0 or ARG1", a command without a result leaves RES unchanged (30_encoding
R74), and (40 R100, 41 R120, 44 R208, 20_memory R65) no command changes another unit or the parameters. The clauses on
`cmd` (log 17), on `input` and `inputIo` (log 3) and on `host` (log 2) are the model's own choices, no rule of the
spec. -/
def Obligations.CommandsStayInTheirUnit : Prop :=
  ∀ (i : Instr) (s t : State), exec i s = .next t →
    t.arg0 = s.arg0 ∧ t.arg1 = s.arg1 ∧ (hasResult i = false → t.res = s.res)
    ∧ t.cmd = s.cmd ∧ t.input = s.input ∧ t.inputIo = s.inputIo ∧ t.params = s.params ∧ t.host = s.host
    ∧ (unitOf i ≠ .br → t.br = s.br) ∧ (unitOf i ≠ .bw → t.bw = s.bw)
    ∧ (unitOf i ≠ .enc → t.enc = s.enc) ∧ (unitOf i ≠ .dec → t.dec = s.dec)

/-- 60_exceptions R230: a command ends only with a code the table lists for it, and RES keeps its value on every
error but CorruptStream and UnknownSymbol. -/
def Obligations.CodesAndRes : Prop :=
  ∀ (i : Instr) (s t : State), exec i s = .next t →
    mayEndWith i t.code = true
    ∧ (t.code ≠ .ok → t.code ≠ .corruptStream → t.code ≠ .unknownSymbol → t.res = s.res)

/-- 60_exceptions R231, R240; 43_encoder R171: a command has an end unless the environment never answers one of
its unit's transfers or ENC_ANALYZE would reach TOTAL_LIMIT. That a transfer without an answer is a fault is the
model's form of "stuck" (log 5). -/
def Obligations.CommandsEnd : Prop :=
  ∀ (i : Instr) (s : State),
    (∃ t, exec i s = .next t)
    ∨ (∃ S k, exec i s = .fault (.transferNeverAnswers S k) ∧ s.answer S k = .never
        ∧ (match unitOf i with
           | .br => S = .src
           | .bw => S = .bwSink
           | .enc => S = .input ∨ S = .eSink
           | .dec => S = .dsrc ∨ S = .out))
    ∨ (exec i s = .refused .totalLimit ∧ i = .encAnalyze ∧ s.enc.iof = false ∧ s.enc.estate = .initial
        ∧ 2 ^ 61 ≤ s.enc.total.toNat + s.input.length)

/-- 20_memory R50, R57: the three sinks are append-only; only reset empties them. -/
def Obligations.SinksOnlyGrow : Prop :=
  ∀ s t : State, step s = .next t → ¬ s.Resets →
    s.bw.wr.sink <+: t.bw.wr.sink ∧ s.enc.ew.sink <+: t.enc.ew.sink ∧ s.dec.out <+: t.dec.out

/-! ### The encoder: state machine and counting -/

/-- 43_encoder R170: out of its states an ENC command ends with InvalidState and changes nothing, in its states it
runs; ESTATE changes as the table says, by the code the command ends with. -/
def Obligations.EncStateTable : Prop :=
  (∀ (i : Instr) (s : State), unitOf i = .enc → s.enc.iof = false → encRunsIn i s.enc.estate = false →
    exec i s = .next { s with code := .invalidState })
  ∧ (∀ (i : Instr) (s t : State), unitOf i = .enc → s.enc.iof = false → encRunsIn i s.enc.estate = true →
      exec i s = .next t → t.code ≠ .invalidState)
  ∧ (∀ (i : Instr) (s t : State), exec i s = .next t →
      t.enc.estate = estateAfter i t.code s.enc.estate)

/-- 10_state R29: "a strictly forward state machine"; only reset goes back. -/
def Obligations.EncStateOnlyMovesForward : Prop :=
  ∀ s t : State, step s = .next t → ¬ s.Resets → s.enc.estate.number ≤ t.enc.estate.number

/-- 43_encoder R171, 42_tree_dictionary R140: ENC_ANALYZE counts each symbol of IN; the counts before a failing
byte stay; at TOTAL_LIMIT the command is refused. -/
def Obligations.EncAnalyze : Prop :=
  ∀ s : State,
    (s.enc.iof = true → exec .encAnalyze s = .next { s with code := .io })
    ∧ (s.enc.iof = false → s.enc.estate ≠ .initial →
        exec .encAnalyze s = .next { s with code := .invalidState })
    ∧ (s.enc.iof = false → s.enc.estate = .initial → 2 ^ 61 ≤ s.enc.total.toNat + s.input.length →
        exec .encAnalyze s = .refused .totalLimit)
    ∧ (s.enc.iof = false → s.enc.estate = .initial → s.enc.total.toNat + s.input.length < 2 ^ 61 →
        s.TransfersOk .input 0 s.input.length →
        ∃ e : Enc,
          exec .encAnalyze s = .next
            { s with code := .ok, res := BitVec.ofNat 64 (8 * s.input.length), enc := e }
          ∧ e = { s.enc with freq := e.freq, total := e.total }
          ∧ (∀ b, e.freqOf b = s.enc.freqOf b + BitVec.ofNat 64 (s.input.count b))
          ∧ e.total.toNat = s.enc.total.toNat + s.input.length)
    ∧ (s.enc.iof = false → s.enc.estate = .initial → s.enc.total.toNat + s.input.length < 2 ^ 61 →
        ∀ k < s.input.length, s.TransfersOk .input 0 k → s.answer .input k = .fail →
        ∃ e : Enc,
          exec .encAnalyze s = .next { s with code := .io, enc := e }
          ∧ e = { s.enc with freq := e.freq, total := e.total, iof := true }
          ∧ (∀ b, e.freqOf b = s.enc.freqOf b + BitVec.ofNat 64 ((s.input.take k).count b))
          ∧ e.total.toNat = s.enc.total.toNat + k)

/-! ### The encoder: tree, dictionary, header -/

/-- 43_encoder R172, R173: ENC_ANALYZE_FINISH fixes tree and dictionary, and writes the header behind the bits
EW holds; a code above 16 bits ends it with CodeTooLong and nothing written. The cursor is stated where it fits
in 64 bits (log 6). -/
def Obligations.EncAnalyzeFinish : Prop :=
  ∀ s : State,
    (s.enc.iof = true → exec .encAnalyzeFinish s = .next { s with code := .io })
    ∧ (s.enc.iof = false → s.enc.estate ≠ .initial →
        exec .encAnalyzeFinish s = .next { s with code := .invalidState })
    ∧ (s.enc.iof = false → s.enc.estate = .initial → (∃ e ∈ dictEntries s.enc.buildCode.dict, 16 < e.code.len.toNat) →
        exec .encAnalyzeFinish s = .next
          { s with
            code := .codeTooLong
            enc := { s.enc with
                     tree := s.enc.buildCode.tree, dict := s.enc.buildCode.dict, estate := .failed } })
    ∧ (s.enc.iof = false → s.enc.estate = .initial → (∀ e ∈ dictEntries s.enc.buildCode.dict, e.code.len.toNat ≤ 16) →
        s.enc.ew.Clean →
        (s.TransfersOk .eSink s.enc.ew.sink.length
            ((s.enc.ew.cnt.val + 16 + 40 * (dictEntries s.enc.buildCode.dict).length) / 8) →
          ∃ w : Writer,
            exec .encAnalyzeFinish s = .next
              { s with
                code := .ok
                res := w.pos
                enc := { s.enc with
                         tree := s.enc.buildCode.tree, dict := s.enc.buildCode.dict, ew := w
                         payloadStart := w.pos, estate := .analyzed } }
            ∧ w.bits = s.enc.ew.bits ++ headerBits (dictEntries s.enc.buildCode.dict) ∧ w.Clean
            ∧ s.enc.ew.sink <+: w.sink
            ∧ (s.enc.ew.pos.toNat + 16 + 40 * (dictEntries s.enc.buildCode.dict).length < 2 ^ 64 →
                w.pos.toNat = s.enc.ew.pos.toNat + 16 + 40 * (dictEntries s.enc.buildCode.dict).length))
        ∧ (∀ k < (s.enc.ew.cnt.val + 16 + 40 * (dictEntries s.enc.buildCode.dict).length) / 8,
            s.TransfersOk .eSink s.enc.ew.sink.length k →
            s.answer .eSink (s.enc.ew.sink.length + k) = .fail →
            ∃ w : Writer,
              exec .encAnalyzeFinish s = .next
                { s with
                  code := .io
                  enc := { s.enc with
                           tree := s.enc.buildCode.tree, dict := s.enc.buildCode.dict, ew := w
                           iof := true } }
              ∧ w.sink.length = s.enc.ew.sink.length + k
              ∧ allBits w.sink <+: s.enc.ew.bits ++ headerBits (dictEntries s.enc.buildCode.dict)))

/-- 30_encoding R85: the header's fields, each most significant bit first, and its length. -/
def Obligations.HeaderLayout : Prop :=
  ∀ es : List InvEntry, es.length < 2 ^ 16 →
    (headerBits es).length = 16 + 40 * es.length
    ∧ natOfBits ((headerBits es).take 16) = es.length
    ∧ ∀ k e, es[k]? = some e →
        natOfBits (((headerBits es).drop (16 + 40 * k)).take 8) = e.code.len.toNat
        ∧ natOfBits (((headerBits es).drop (24 + 40 * k)).take 16) = e.code.bits.toNat
        ∧ natOfBits (((headerBits es).drop (40 + 40 * k)).take 8) = 1
        ∧ natOfBits (((headerBits es).drop (48 + 40 * k)).take 8) = e.sym.toNat

/-- 30_encoding R87, 43_encoder R173: the header's entries are the valid entries of DICT, in ascending symbol
order. -/
def Obligations.HeaderEntriesAscend : Prop :=
  ∀ e : Enc,
    (dictEntries e.dict).Pairwise (fun a b => a.sym.toNat < b.sym.toNat)
    ∧ ∀ (s : Byte) (c : Code), { code := c, sym := s } ∈ dictEntries e.dict ↔ e.codeOf s = some c

/-- 42_tree_dictionary R145, with R172 and R206: with no symbol counted, tree and dictionary stay empty, the
header is the count 0, and compressing or decoding nothing is a no-op. -/
def Obligations.EmptyTable : Prop :=
  ∀ s : State, s.enc.iof = false → s.enc.estate = .initial → (∀ b, s.enc.freqOf b = 0) →
    (∀ b, s.enc.codeOf b = none) → s.enc.ew.Clean → (∀ k, s.answer .eSink k = .ok) →
    ∃ t, exec .encAnalyzeFinish s = .next t ∧ t.code = .ok
      ∧ t.enc.tree = [] ∧ (∀ b, t.enc.codeOf b = none)
      ∧ t.enc.ew.bits = s.enc.ew.bits ++ List.replicate 16 false
      ∧ exec .encCompress { t with input := [] } = .next { t with input := [], code := .ok, res := 0 }
      ∧ (t.dec.iof = false → t.dec.dstate = .ready → t.arg1 = 0 →
          exec .decDecode t = .next { t with code := .ok, res := 0 })

/-- 42_tree_dictionary R146: a single distinct symbol has the code of length 1 and bits 0; compressing m copies of
it then writes m zero bits. -/
def Obligations.SingleSymbol : Prop :=
  ∀ (s : State) (a : Byte), s.enc.iof = false → s.enc.estate = .initial → 0 < (s.enc.freqOf a).toNat →
    (∀ b, b ≠ a → s.enc.freqOf b = 0) → (∀ b, s.enc.codeOf b = none) → s.enc.ew.Clean →
    (∀ k, s.answer .eSink k = .ok) →
    ∃ t, exec .encAnalyzeFinish s = .next t ∧ t.code = .ok
      ∧ (∀ b, t.enc.codeOf b = if b = a then some { len := 1, bits := 0 } else none)
      ∧ ∀ m < 2 ^ 64, ∃ u,
          exec .encCompress { t with input := List.replicate m a, inputIo := [] } = .next u
          ∧ u.code = .ok ∧ u.res = BitVec.ofNat 64 m
          ∧ u.enc.ew.bits = t.enc.ew.bits ++ List.replicate m false

/-- 42_tree_dictionary R141, R143, R144, R147: the tree. The leaves come first, by weight and then by symbol; each
later node joins two earlier ones; the last node is the root and weighs TOTAL; the internal nodes' weights do not
decrease. R142, R143: the nodes are picked in the order `Node.Before`, of each pair the first is the left child, and
the pairs follow one another in the order of creation. -/
def Obligations.TreeShape : Prop :=
  ∀ s t : State, s.enc.iof = false → s.enc.estate = .initial → CountInv s → 1 ≤ s.enc.distinct →
    exec .encAnalyzeFinish s = .next t →
    t.enc.tree.length = 2 * s.enc.distinct - 1
    ∧ (∀ i < s.enc.distinct, ∃ b,
        t.enc.tree[i]? = some { weight := s.enc.freqOf b, syms := [b], kind := .leaf b }
        ∧ 0 < (s.enc.freqOf b).toNat)
    ∧ (∀ b, 0 < (s.enc.freqOf b).toNat → ∃ i < s.enc.distinct,
        t.enc.tree[i]? = some { weight := s.enc.freqOf b, syms := [b], kind := .leaf b })
    ∧ (∀ i j a b, i < j → j < s.enc.distinct →
        t.enc.tree[i]? = some { weight := s.enc.freqOf a, syms := [a], kind := .leaf a } →
        t.enc.tree[j]? = some { weight := s.enc.freqOf b, syms := [b], kind := .leaf b } →
        (s.enc.freqOf a).toNat < (s.enc.freqOf b).toNat
          ∨ ((s.enc.freqOf a).toNat = (s.enc.freqOf b).toNat ∧ a.toNat < b.toNat))
    ∧ (∀ i n, s.enc.distinct ≤ i → t.enc.tree[i]? = some n → ∃ l r nl nr,
        n.kind = .internal l r ∧ l < i ∧ r < i ∧ l ≠ r
        ∧ t.enc.tree[l]? = some nl ∧ t.enc.tree[r]? = some nr
        ∧ n.weight.toNat = nl.weight.toNat + nr.weight.toNat
        ∧ (∀ b, b ∈ n.syms ↔ b ∈ nl.syms ∨ b ∈ nr.syms)
        ∧ (∀ b, ¬ (b ∈ nl.syms ∧ b ∈ nr.syms)))
    ∧ (∀ i j m n, s.enc.distinct ≤ i → i ≤ j → t.enc.tree[i]? = some m → t.enc.tree[j]? = some n →
        m.weight.toNat ≤ n.weight.toNat)
    ∧ (∀ (i l r : Nat) (n nl nr : Node), t.enc.tree[i]? = some n → n.kind = .internal l r →
        t.enc.tree[l]? = some nl → t.enc.tree[r]? = some nr → nl.Before l nr r)
    ∧ (∀ (i j l r l' r' : Nat) (m n nr nl' : Node), i < j →
        t.enc.tree[i]? = some m → m.kind = .internal l r → t.enc.tree[j]? = some n → n.kind = .internal l' r' →
        t.enc.tree[r]? = some nr → t.enc.tree[l']? = some nl' → nr.Before r nl' l')
    ∧ (∃ root, t.enc.tree.getLast? = some root ∧ root.weight = s.enc.total
        ∧ ∀ b, b ∈ root.syms ↔ 0 < (s.enc.freqOf b).toNat)

/-- 42_tree_dictionary R148, R149: for two or more symbols the code of a symbol, read from bit 0 on, is the path
from the root (the last node) to the symbol's leaf, 0 to the left and 1 to the right. -/
def Obligations.CodesArePaths : Prop :=
  ∀ s t : State, s.enc.iof = false → s.enc.estate = .initial → 2 ≤ s.enc.distinct →
    (∀ b, s.enc.codeOf b = none) → exec .encAnalyzeFinish s = .next t → t.code = .ok →
    ∀ b, 0 < (s.enc.freqOf b).toNat → ∃ c i n,
      t.enc.codeOf b = some c ∧ c.InRange
      ∧ follow t.enc.tree (t.enc.tree.length - 1) (codeBits c) = some i
      ∧ t.enc.tree[i]? = some n ∧ n.kind = .leaf b

/-- 42_tree_dictionary R151, R153: the dictionary holds exactly the symbols counted, its codes are distinct and
prefix-free, and its Kraft sum is 1 for two or more symbols and 1/2 for one. -/
def Obligations.DictionaryIsPrefixFree : Prop :=
  ∀ s t : State, s.enc.iof = false → s.enc.estate = .initial → (∀ b, s.enc.codeOf b = none) →
    exec .encAnalyzeFinish s = .next t → t.code = .ok →
    ConsistentDict (dictEntries t.enc.dict)
    ∧ (dictEntries t.enc.dict).length = s.enc.distinct
    ∧ (∀ b, (t.enc.codeOf b).isSome = true ↔ 0 < (s.enc.freqOf b).toNat)
    ∧ (2 ≤ s.enc.distinct → kraftSum (dictEntries t.enc.dict) = 2 ^ 16)
    ∧ (s.enc.distinct = 1 → kraftSum (dictEntries t.enc.dict) = 2 ^ 15)

/-- 42_tree_dictionary R155: for two or more symbols no lengths that satisfy Kraft's inequality give a shorter
payload for the data analyzed. -/
def Obligations.DictionaryIsOptimal : Prop :=
  ∀ s t : State, s.enc.iof = false → s.enc.estate = .initial → CountInv s → 2 ≤ s.enc.distinct →
    (∀ b, s.enc.codeOf b = none) → exec .encAnalyzeFinish s = .next t → t.code = .ok →
    ∀ (len : Byte → Nat) (K : Nat), (∀ p ∈ usedSymbols s.enc.freq, len p.1 ≤ K) →
      ((usedSymbols s.enc.freq).map fun p => 2 ^ (K - len p.1)).sum ≤ 2 ^ K →
      payloadLength s.enc.freq (fun b => match t.enc.codeOf b with | some c => c.len.toNat | none => 0)
        ≤ payloadLength s.enc.freq len

/-! ### The encoder: payload -/

/-- 43_encoder R174: ENC_COMPRESS writes the codes of IN behind the bits EW holds, root step first. What was
written before an error stays; a failing push among the codes of the first bytes is reported whatever follows them. RES
is stated where the bit count fits in 64 bits (log 7), the cursor where it does (log 6). -/
def Obligations.EncCompress : Prop :=
  ∀ s : State,
    (s.enc.iof = true → exec .encCompress s = .next { s with code := .io })
    ∧ (s.enc.iof = false → s.enc.estate ≠ .analyzed →
        exec .encCompress s = .next { s with code := .invalidState })
    ∧ (s.enc.iof = false → s.enc.estate = .analyzed → s.enc.ew.Clean →
        ∀ bits, encodeBytes s.enc.codeOf s.input = some bits →
        s.TransfersOk .input 0 s.input.length →
        s.TransfersOk .eSink s.enc.ew.sink.length ((s.enc.ew.cnt.val + bits.length) / 8) →
        ∃ (w : Writer) (v : Word),
          exec .encCompress s = .next { s with code := .ok, res := v, enc := { s.enc with ew := w } }
          ∧ w.bits = s.enc.ew.bits ++ bits ∧ w.Clean ∧ s.enc.ew.sink <+: w.sink
          ∧ (bits.length < 2 ^ 64 → v.toNat = bits.length)
          ∧ (s.enc.ew.pos.toNat + bits.length < 2 ^ 64 →
              w.pos.toNat = s.enc.ew.pos.toNat + bits.length))
    ∧ (s.enc.iof = false → s.enc.estate = .analyzed → s.enc.ew.Clean →
        ∀ x y bits, s.input = x ++ y → encodeBytes s.enc.codeOf x = some bits →
        s.TransfersOk .input 0 x.length →
        ∀ k < (s.enc.ew.cnt.val + bits.length) / 8, s.TransfersOk .eSink s.enc.ew.sink.length k →
        s.answer .eSink (s.enc.ew.sink.length + k) = .fail →
        ∃ w : Writer,
          exec .encCompress s = .next
            { s with code := .io, enc := { s.enc with ew := w, iof := true } }
          ∧ w.sink.length = s.enc.ew.sink.length + k
          ∧ allBits w.sink <+: s.enc.ew.bits ++ bits)
    ∧ (s.enc.iof = false → s.enc.estate = .analyzed → s.enc.ew.Clean →
        ∀ x b y bits, s.input = x ++ b :: y → encodeBytes s.enc.codeOf x = some bits →
        s.TransfersOk .input 0 x.length →
        s.TransfersOk .eSink s.enc.ew.sink.length ((s.enc.ew.cnt.val + bits.length) / 8) →
        (s.answer .input x.length = .ok → s.enc.codeOf b = none →
          ∃ (w : Writer) (v : Word),
            exec .encCompress s = .next
              { s with code := .unknownSymbol, res := v, enc := { s.enc with ew := w } }
            ∧ w.bits = s.enc.ew.bits ++ bits ∧ w.Clean
            ∧ (bits.length < 2 ^ 64 → v.toNat = bits.length))
        ∧ (s.answer .input x.length = .fail →
          ∃ w : Writer,
            exec .encCompress s = .next
              { s with code := .io, enc := { s.enc with ew := w, iof := true } }
            ∧ w.bits = s.enc.ew.bits ++ bits ∧ w.Clean))

/-- 43_encoder R175, R177: ENC_COMPRESS_FINISH and ENC_RELEASE flush EW and move ESTATE; a failed push leaves
ESTATE. -/
def Obligations.EncFlushCommands : Prop :=
  ∀ (i : Instr) (e : EState),
    (i, e) ∈ [(Instr.encCompressFinish, EState.compressed), (Instr.encRelease, EState.released)] →
  ∀ s : State,
    (s.enc.iof = true → exec i s = .next { s with code := .io })
    ∧ (s.enc.iof = false → encRunsIn i s.enc.estate = false →
        exec i s = .next { s with code := .invalidState })
    ∧ (s.enc.iof = false → encRunsIn i s.enc.estate = true → s.enc.ew.cnt.val = 0 →
        exec i s = .next { s with code := .ok, enc := { s.enc with estate := e } })
    ∧ (s.enc.iof = false → encRunsIn i s.enc.estate = true → 0 < s.enc.ew.cnt.val →
        s.answer .eSink s.enc.ew.sink.length = .ok →
        ∃ p : Pos,
          exec i s = .next
            { s with
              code := .ok
              enc := { s.enc with
                       ew := { sink := s.enc.ew.sink ++ [s.enc.ew.buf], buf := 0, cnt := 0, pos := p }
                       estate := e } }
          ∧ (s.enc.ew.pos.toNat + (8 - s.enc.ew.cnt.val) < 2 ^ 64 →
              p.toNat = s.enc.ew.pos.toNat + (8 - s.enc.ew.cnt.val)))
    ∧ (s.enc.iof = false → encRunsIn i s.enc.estate = true → 0 < s.enc.ew.cnt.val →
        s.answer .eSink s.enc.ew.sink.length = .fail →
        exec i s = .next { s with code := .io, enc := { s.enc with iof := true } })

/-- 43_encoder R176: ENC_POSITION gives EW's cursor in every ESTATE. -/
def Obligations.EncPosition : Prop :=
  ∀ s : State,
    (s.enc.iof = true → exec .encPosition s = .next { s with code := .io })
    ∧ (s.enc.iof = false → exec .encPosition s = .next { s with code := .ok, res := s.enc.ew.pos })

/-! ### The decoder -/

/-- 44_decoder R201, R202, R203: a header whose entries are consistent, in any order, constructs the decoder; any
other is InvalidHeader and leaves no dictionary. Of a consistent header the first byte whose transfer fails ends the
command with Io (20_memory R56). -/
def Obligations.DecNewParsesTheHeader : Prop :=
  ∀ (s : State) (es : List (InvEntry × BitVec 8)), s.dec.iof = false → es.length < 2 ^ 16 →
    s.params.dsrc.length < 2 ^ 61 → BitsAt s.params.dsrc s.arg0.toNat (rawHeaderBits es) →
    ((∀ k, s.answer .dsrc k = .ok) → ConsistentDict (es.map (·.1)) ∧ (∀ p ∈ es, p.2 = 1) →
      ∃ (inv : List InvEntry) (m : BitVec 5) (v : Pos),
        exec .decNew s = .next
          { s with
            code := .ok
            res := v
            dec := { s.dec with dstate := .ready, inv := inv, maxLen := m, rd := { pos := v, pb := [] } } }
        ∧ v.toNat = s.arg0.toNat + 16 + 40 * es.length
        ∧ inv.Perm (es.map (·.1))
        ∧ (∀ p ∈ es, p.1.code.len.toNat ≤ m.toNat) ∧ (es = [] → m = 0)
        ∧ (es ≠ [] → ∃ p ∈ es, p.1.code.len.toNat = m.toNat))
    ∧ ((∀ k, s.answer .dsrc k = .ok) → ¬ (ConsistentDict (es.map (·.1)) ∧ ∀ p ∈ es, p.2 = 1) →
      ∃ r : Reader,
        exec .decNew s = .next
          { s with
            code := .invalidHeader
            dec := { s.dec with dstate := .unconstructed, inv := [], maxLen := 0, rd := r } })
    ∧ (ConsistentDict (es.map (·.1)) → (∀ p ∈ es, p.2 = 1) →
      ∀ q, s.arg0.toNat / 8 ≤ q → q ≤ (s.arg0.toNat + 15 + 40 * es.length) / 8 →
      (∀ k, s.arg0.toNat / 8 ≤ k → k < q → s.answer .dsrc k = .ok) → s.answer .dsrc q = .fail →
      ∃ r : Reader,
        exec .decNew s = .next
          { s with
            code := .io
            dec := { s.dec with dstate := .unconstructed, inv := [], maxLen := 0, rd := r, iof := true } })

/-- 44_decoder R202, 90_conflicts C5: a source that ends inside a header, whatever its entries, is InvalidHeader, not
EndOfStream. -/
def Obligations.DecNewTruncatedHeader : Prop :=
  ∀ (s : State) (es : List (InvEntry × BitVec 8)), s.dec.iof = false → es.length < 2 ^ 16 →
    s.params.dsrc.length < 2 ^ 61 → (∀ k, s.answer .dsrc k = .ok) →
    8 * s.params.dsrc.length - s.arg0.toNat < (rawHeaderBits es).length →
    streamBits s.params.dsrc s.arg0.toNat (8 * s.params.dsrc.length - s.arg0.toNat)
      <+: rawHeaderBits es →
    ∃ r : Reader,
      exec .decNew s = .next
        { s with
          code := .invalidHeader
          dec := { s.dec with dstate := .unconstructed, inv := [], maxLen := 0, rd := r } }

/-- 44_decoder R200 (with R36): the transitions of DSTATE, and what a failed DEC_NEW leaves. -/
def Obligations.DecStateTransitions : Prop :=
  (∀ s t : State, s.dec.iof = false → exec .decNew s = .next t →
    (t.code = .ok ∧ t.dec.dstate = .ready ∧ t.dec.iof = false)
    ∨ (t.code = .invalidHeader ∧ t.dec.dstate = .unconstructed ∧ t.dec.inv = [] ∧ t.dec.maxLen = 0
        ∧ t.dec.iof = false ∧ t.res = s.res ∧ t.dec.out = s.dec.out)
    ∨ (t.code = .io ∧ t.dec.dstate = .unconstructed ∧ t.dec.inv = [] ∧ t.dec.maxLen = 0
        ∧ t.dec.iof = true ∧ t.res = s.res ∧ t.dec.out = s.dec.out))
  ∧ (∀ s t : State, exec .decDecode s = .next t →
      t.dec.dstate = s.dec.dstate ∧ t.dec.inv = s.dec.inv ∧ t.dec.maxLen = s.dec.maxLen)
  ∧ (∀ s : State, s.dec.iof = false → s.dec.dstate = .unconstructed →
      exec .decDecode s = .next { s with code := .invalidState })

/-- 44_decoder R204, R205: where the payload holds the codes of x, DEC_DECODE emits x and counts their bits. An Io
keeps the bytes emitted before it (60_exceptions R233) and RES: the push of a byte whose code was read, or the transfer
of the next bit, after bits no code of INV begins. Only the bytes that hold bits read need be transferred; what follows
them in the payload is free. -/
def Obligations.DecDecodeEmitsTheSymbols : Prop :=
  ∀ (s : State) (bits : List Bool), s.dec.iof = false → s.dec.dstate = .ready → s.arg1 ≠ 0 →
    ConsistentDict s.dec.inv → s.dec.maxLen.toNat = maxLenOf s.dec.inv → s.params.dsrc.length < 2 ^ 61 →
    BitsAt s.params.dsrc s.arg0.toNat bits →
    (∀ j < bits.length, s.answer .dsrc ((s.arg0.toNat + j) / 8) = .ok) →
    (∀ x, x.length = s.arg1.toNat / 8 → encodeBytes (codeIn s.dec.inv) x = some bits →
      s.TransfersOk .out s.dec.out.length x.length →
      exec .decDecode s = .next
        { s with
          code := .ok
          res := BitVec.ofNat 64 bits.length
          dec := { s.dec with
                   rd := { pos := s.arg0 + BitVec.ofNat 64 bits.length, pb := [] }
                   out := s.dec.out ++ x } })
    ∧ (∀ x b, x.length < s.arg1.toNat / 8 → encodeBytes (codeIn s.dec.inv) (x ++ [b]) = some bits →
      s.TransfersOk .out s.dec.out.length x.length → s.answer .out (s.dec.out.length + x.length) = .fail →
      ∃ r : Reader,
        exec .decDecode s = .next
          { s with
            code := .io
            dec := { s.dec with rd := r, out := s.dec.out ++ x, iof := true } })
    ∧ (∀ x codes rest, x.length < s.arg1.toNat / 8 → encodeBytes (codeIn s.dec.inv) x = some codes →
      bits = codes ++ rest → rest.length < s.dec.maxLen.toNat →
      (∀ e ∈ s.dec.inv, ¬ codeBits e.code <+: rest) →
      s.TransfersOk .out s.dec.out.length x.length →
      s.arg0.toNat + bits.length < 8 * s.params.dsrc.length →
      s.answer .dsrc ((s.arg0.toNat + bits.length) / 8) = .fail →
      ∃ r : Reader,
        exec .decDecode s = .next
          { s with
            code := .io
            dec := { s.dec with rd := r, out := s.dec.out ++ x, iof := true } })

/-- 44_decoder R206: a zero-length request reads nothing and returns 0, with an empty dictionary too. -/
def Obligations.DecDecodeZeroLength : Prop :=
  ∀ s : State, s.dec.iof = false → s.dec.dstate = .ready → s.arg1 = 0 →
    exec .decDecode s = .next { s with code := .ok, res := 0 }

/-- 44_decoder R207: DEC_DECODE ends with CorruptStream exactly when, after the codes of fewer bytes than asked
for, no code of INV begins the bits that are left (at most MAXLEN of them): an empty INV, a truncated stream, or
MAXLEN bits without a match. RES counts the bits read and the bytes before stay in OUT. -/
def Obligations.DecDecodeCorruptStream : Prop :=
  ∀ s : State, s.dec.iof = false → s.dec.dstate = .ready → s.arg1 ≠ 0 →
    ConsistentDict s.dec.inv → s.dec.maxLen.toNat = maxLenOf s.dec.inv →
    s.params.dsrc.length < 2 ^ 61 → (∀ k, s.answer .dsrc k = .ok) → (∀ k, s.answer .out k = .ok) →
    ∀ t : State,
      (exec .decDecode s = .next t ∧ t.code = .corruptStream) ↔
      ∃ (x : List Byte) (bits rest : List Bool),
        x.length < s.arg1.toNat / 8
        ∧ encodeBytes (codeIn s.dec.inv) x = some bits ∧ BitsAt s.params.dsrc s.arg0.toNat bits
        ∧ rest = streamBits s.params.dsrc (s.arg0.toNat + bits.length)
            (min (8 * s.params.dsrc.length - (s.arg0.toNat + bits.length)) s.dec.maxLen.toNat)
        ∧ (∀ e ∈ s.dec.inv, ¬ codeBits e.code <+: rest)
        ∧ t = { s with
                code := .corruptStream
                res := BitVec.ofNat 64 (bits.length + rest.length)
                dec := { s.dec with
                         rd := { pos := s.arg0 + BitVec.ofNat 64 (bits.length + rest.length), pb := [] }
                         out := s.dec.out ++ x } }

/-- 44_decoder R208: decoding depends only on INV, DSRC, ARG0 and ARG1: two machines that agree on these emit the
same bytes and the same result, whatever else they hold. MAXLEN, a function of INV, and the environment's answers
are agreed on too. -/
def Obligations.MembersDecodeIndependently : Prop :=
  ∀ s1 s2 t1 t2 : State,
    s1.dec.iof = false → s2.dec.iof = false → s1.dec.dstate = s2.dec.dstate → s1.dec.inv = s2.dec.inv →
    s1.dec.maxLen = s2.dec.maxLen → s1.params.dsrc = s2.params.dsrc → s1.arg0 = s2.arg0 → s1.arg1 = s2.arg1 →
    (∀ k, s1.answer .dsrc k = s2.answer .dsrc k) →
    (∀ k, s1.answer .out k = .ok) → (∀ k, s2.answer .out k = .ok) →
    exec .decDecode s1 = .next t1 → exec .decDecode s2 = .next t2 →
    t1.code = t2.code
    ∧ (∃ x, t1.dec.out = s1.dec.out ++ x ∧ t2.dec.out = s2.dec.out ++ x)
    ∧ ((t1.code = .ok ∨ t1.code = .corruptStream) → t1.res = t2.res)

/-- 44_decoder R209: "for all finite byte sequences x, decode(encode(x)) == x". ENC, whose writer holds nothing
yet, finishes the analysis, compresses members, among them x, and finishes; a new run whose DSRC places ESINK at
W_BASE parses the header there and decodes x at the position EW had before x was compressed. -/
def Obligations.RoundTrip : Prop :=
  ∀ (s a b c t d : State) (before after : List (List Byte)) (x lead : List Byte),
    s.enc.iof = false → s.enc.estate = .initial → s.AllTransfersOk → (∀ y, s.enc.codeOf y = none) →
    s.enc.ew = Writer.reset s.params.wBase →
    (∀ y ∈ x, 0 < (s.enc.freqOf y).toNat) →
    exec .encAnalyzeFinish s = .next a → a.code = .ok →
    compressMembers before a = some b →
    exec .encCompress { b with input := x, inputIo := [] } = .next c →
    compressMembers after c = some t →
    d.dec.iof = false → d.AllTransfersOk → d.arg0 = s.params.wBase →
    8 * lead.length = s.params.wBase.toNat →
    (∃ u, exec .encCompressFinish t = .next u ∧ d.params.dsrc = lead ++ u.enc.ew.sink) →
    d.params.dsrc.length < 2 ^ 61 →
    c.code = .ok
    ∧ ∃ e, exec .decNew d = .next e ∧ e.code = .ok ∧ e.res = a.res
      ∧ ∀ f : State, f.dec = e.dec → f.params = e.params → f.arg0 = b.enc.ew.pos →
          f.arg1.toNat = 8 * x.length →
          ∃ g, exec .decDecode f = .next g ∧ g.code = .ok ∧ g.dec.out = f.dec.out ++ x ∧ g.res = c.res

/-! ### Invariants of every step -/

/-- 10_state R26, R27, R28: every step keeps POS = BASE + 8 |SINK| + CNT for each writer without a fault (where the
number fits in 64 bits), BUF clean above CNT, PB empty, and the parameters legal. -/
def Obligations.StepKeepsStreamInv : Prop :=
  ∀ s t : State, StreamInv s → step s = .next t → StreamInv t

/-- 10_state R28, R31: every step keeps TOTAL the sum of the counts, below 2^61. -/
def Obligations.StepKeepsCountInv : Prop :=
  ∀ s t : State, CountInv s → step s = .next t → CountInv t

/-- 10_state R28, R33; 42_tree_dictionary R151, R153: every step keeps DICT empty before the analysis is finished
and a prefix-free dictionary of exactly the symbols counted after it. -/
def Obligations.StepKeepsDictInv : Prop :=
  ∀ s t : State, DictInv s → step s = .next t → DictInv t

/-- 10_state R35; 44_decoder R200, R203: every step keeps INV a consistent dictionary of at most 256 entries with
MAXLEN its longest code, and empty while DEC is unconstructed. -/
def Obligations.StepKeepsInverseInv : Prop :=
  ∀ s t : State, InverseInv s → step s = .next t → InverseInv t

/-- 70_reset_and_hazards R260: the four invariants hold right after reset, with any legal parameters. -/
def Obligations.InvariantsHoldAtReset : Prop :=
  ∀ p : Params, p.wf = true →
    StreamInv (State.resetWith p) ∧ CountInv (State.resetWith p) ∧ DictInv (State.resetWith p)
      ∧ InverseInv (State.resetWith p)

/-! ### Host programs -/

/-- 30_encoding R80: `bw.write_bits V, N` issues the writes of the bits V[N-1] to V[0] in turn, and so writes the bits
`bw.write_uN` writes, for N = 8, 16, 32, 64: the two lines leave the same writer, though only the second writes ARG0.
The host's moves are the model's own (log 2), the bound on V too (log 23). -/
def Obligations.WriteBitsIsWriteWidth : Prop :=
  (∀ (s t : State) (v n : Nat), s.cmd = none → (Line.bwWriteBits v n).wf = true →
    runCommands ((List.range n).map fun j => .bwWriteBit (v.testBit (n - 1 - j))) s.issued = some t →
    runLine (2 * n) (.bwWriteBits v n) s = .next t)
  ∧ ∀ (n : Nat) (line : Nat → Line),
    (n, line) ∈ [(8, Line.bwWriteU8), (16, Line.bwWriteU16), (32, Line.bwWriteU32), (64, Line.bwWriteU64)] →
  ∀ (s : State) (v : Nat), v < 2 ^ 64 → s.cmd = none → s.bw.iof = false → s.bw.rel = false →
    (∀ k, s.answer .bwSink k = .ok) →
    ∃ t u,
      runLine (2 * n) (.bwWriteBits v n) s = .next t ∧ runLine 3 (line v) s = .next u
      ∧ t.host = [] ∧ u.host = [] ∧ t.code = .ok ∧ u.code = .ok
      ∧ t.bw = u.bw ∧ t.res = u.res ∧ t.arg0 = s.arg0 ∧ u.arg0 = BitVec.ofNat 64 v

/-- 30_encoding R79, R80: a line writes its first numeric operand to ARG0 and its second to ARG1, supplies BYTES as IN,
and issues its command; `br.rewind` seeks to 0 and `dec.decode_bytes S, NBYTES` passes 8 × NBYTES. The host's moves are
the model's own (log 2), and so is that IN is empty for a line without BYTES and answered ok (log 3, log 22). -/
def Obligations.HostLinesRunTheirCommands : Prop :=
  ∀ s : State, s.cmd = none →
    (∀ p ∈ [(Line.brReadBit, Instr.brReadBit), (.brReadU8, .brReadU8), (.brReadU16, .brReadU16),
        (.brReadU32, .brReadU32), (.brReadU64, .brReadU64), (.brPosition, .brPosition),
        (.bwWriteBit false, .bwWriteBit false), (.bwWriteBit true, .bwWriteBit true),
        (.bwFlush, .bwFlush), (.bwPosition, .bwPosition), (.bwRelease, .bwRelease),
        (.encAnalyzeFinish, .encAnalyzeFinish), (.encCompressFinish, .encCompressFinish),
        (.encPosition, .encPosition), (.encRelease, .encRelease)],
      runLine 2 p.1 s = exec p.2 s.issued)
    ∧ (∀ bytes, runLine 2 (.encAnalyze bytes) s = exec .encAnalyze { s.issued with input := bytes })
    ∧ (∀ bytes, runLine 2 (.encCompress bytes) s = exec .encCompress { s.issued with input := bytes })
    ∧ (∀ p ∈ [(Line.brSkipBits, Instr.brSkipBits), (.brSetPosition, .brSetPosition), (.bwWriteU8, .bwWriteU8),
        (.bwWriteU16, .bwWriteU16), (.bwWriteU32, .bwWriteU32), (.bwWriteU64, .bwWriteU64),
        (.decNew, .decNew)],
      ∀ a : Word, runLine 3 (p.1 a.toNat) s = exec p.2 { s.issued with arg0 := a })
    ∧ runLine 3 .brRewind s = exec .brSetPosition { s.issued with arg0 := 0 }
    ∧ (∀ a b : Word,
      runLine 4 (.decDecode a.toNat b.toNat) s = exec .decDecode { s.issued with arg0 := a, arg1 := b })
    ∧ (∀ (a b : Word) (n : Nat), b.toNat = 8 * n →
      runLine 4 (.decDecodeBytes a.toNat n) s = exec .decDecode { s.issued with arg0 := a, arg1 := b })
end

