-- ==== Sys2Proof/Laws/Bits.lean ====
section
/-! SUPPORT. Bit order: a value and its bits, most significant first, determine each other; the bits of a
byte sequence. -/

namespace Sys2Proof.Machine

theorem length_bitsMsb (n v : Nat) : (bitsMsb n v).length = n := by simp [bitsMsb]
theorem length_streamBits (bytes : List Byte) (p n : Nat) : (streamBits bytes p n).length = n := by
  simp [streamBits]
theorem length_allBits (bytes : List Byte) : (allBits bytes).length = 8 * bytes.length := by
  simp [allBits, length_streamBits]
theorem length_codeBits (c : Code) : (codeBits c).length = c.len.toNat := by simp [codeBits]

theorem natOfBits_append_bit (l : List Bool) (b : Bool) :
    natOfBits (l ++ [b]) = 2 * natOfBits l + b.toNat := by simp [natOfBits]

theorem natOfBits_lt (l : List Bool) : natOfBits l < 2 ^ l.length := by
  induction l using List.reverseRecOn with
  | nil => simp [natOfBits]
  | append_singleton l b ih =>
    rw [natOfBits_append_bit, List.length_append, pow_add]
    cases b <;> simp <;> omega

/-- Bit `k` of the value counts from the end of the list. -/
theorem testBit_natOfBits (l : List Bool) (k : Nat) (hk : k < l.length) :
    (natOfBits l).testBit (l.length - 1 - k) = l[k] := by
  induction l using List.reverseRecOn with
  | nil => simp at hk
  | append_singleton l b ih =>
    rw [natOfBits_append_bit]
    simp only [List.length_append, List.length_singleton] at hk ⊢
    by_cases h : k < l.length
    · have e : l.length + 1 - 1 - k = (l.length - 1 - k) + 1 := by omega
      rw [e, Nat.testBit_succ]
      have : (2 * natOfBits l + b.toNat) / 2 = natOfBits l := by cases b <;> (simp; try omega)
      rw [this, ih h, List.getElem_append_left h]
    · have : k = l.length := by omega
      subst this
      simp only [Nat.add_sub_cancel, Nat.sub_self, Nat.testBit_zero]
      cases b <;> simp

theorem bitsMsb_natOfBits (l : List Bool) : bitsMsb l.length (natOfBits l) = l := by
  apply List.ext_getElem
  · simp [length_bitsMsb]
  · intro k h1 h2
    simp only [bitsMsb, List.getElem_map, List.getElem_range]
    exact testBit_natOfBits l k h2

theorem bitsMsb_mod (n v : Nat) : bitsMsb n (v % 2 ^ n) = bitsMsb n v := by
  apply List.ext_getElem
  · simp [length_bitsMsb]
  · intro k h1 h2
    simp only [length_bitsMsb] at h1
    simp only [bitsMsb, List.getElem_map, List.getElem_range, Nat.testBit_mod_two_pow]
    simp; omega

theorem bitsMsb_inj {n a b : Nat} (ha : a < 2 ^ n) (hb : b < 2 ^ n) (h : bitsMsb n a = bitsMsb n b) :
    a = b := by
  apply Nat.eq_of_testBit_eq
  intro i
  by_cases hi : i < n
  · have := List.getElem_of_eq h (i := n - 1 - i) (by simp [length_bitsMsb]; omega)
    simp only [bitsMsb, List.getElem_map, List.getElem_range] at this
    have e : n - 1 - (n - 1 - i) = i := by omega
    rwa [e] at this
  · rw [Nat.testBit_lt_two_pow (lt_of_lt_of_le ha (Nat.pow_le_pow_right (by omega) (by omega))),
      Nat.testBit_lt_two_pow (lt_of_lt_of_le hb (Nat.pow_le_pow_right (by omega) (by omega)))]

/-- Reading back what was decomposed. -/
theorem natOfBits_bitsMsb (n v : Nat) : natOfBits (bitsMsb n v) = v % 2 ^ n := by
  have h := bitsMsb_natOfBits (bitsMsb n v)
  rw [length_bitsMsb] at h
  have hl := natOfBits_lt (bitsMsb n v)
  rw [length_bitsMsb] at hl
  exact bitsMsb_inj hl (Nat.mod_lt _ (by positivity)) (by rw [h, bitsMsb_mod])

/-- The bits of an operand's low part are the register's bits (30_encoding R74). -/
theorem bitsMsb_argLow (n : Nat) (v : Word) : bitsMsb n (argLow n v) = lowBits n v := by
  rw [argLow, bitsMsb_mod]
  simp [bitsMsb, lowBits, BitVec.getLsbD]

theorem length_lowBits (n : Nat) (v : Word) : (lowBits n v).length = n := by simp [lowBits]

theorem natOfBits_lowBits (n : Nat) (v : Word) : natOfBits (lowBits n v) = v.toNat % 2 ^ n := by
  rw [← bitsMsb_argLow, natOfBits_bitsMsb, argLow, Nat.mod_mod]

theorem streamBits_append (bytes : List Byte) (p m n : Nat) :
    streamBits bytes p (m + n) = streamBits bytes p m ++ streamBits bytes (p + m) n := by
  simp [streamBits, List.range_add, Nat.add_assoc]

theorem streamBits_congr {a b : List Byte} {p n : Nat}
    (h : ∀ i, p / 8 ≤ i → i ≤ (p + n - 1) / 8 → a[i]? = b[i]?) : streamBits a p n = streamBits b p n := by
  simp only [streamBits, List.map_inj_left, List.mem_range]
  intro j hj
  have := h ((p + j) / 8) (by omega) (by omega)
  simp [streamBit, List.getD_eq_getElem?_getD, this]

theorem streamBit_append_left (a b : List Byte) (p : Nat) (h : p < 8 * a.length) :
    streamBit (a ++ b) p = streamBit a p := by
  have : p / 8 < a.length := by omega
  simp [streamBit, List.getD_eq_getElem?_getD, List.getElem?_append_left this]

theorem streamBit_append_right (a b : List Byte) (p : Nat) :
    streamBit (a ++ b) (8 * a.length + p) = streamBit b p := by
  have h : (8 * a.length + p) / 8 = a.length + p / 8 := by omega
  have h2 : (8 * a.length + p) % 8 = p % 8 := by omega
  simp [streamBit, List.getD_eq_getElem?_getD, h, h2, List.getElem?_append_right]

theorem allBits_append (a b : List Byte) : allBits (a ++ b) = allBits a ++ allBits b := by
  simp only [allBits, List.length_append, Nat.mul_add, streamBits_append]
  congr 1
  · simp only [streamBits, List.map_inj_left, List.mem_range]
    intro j hj; exact streamBit_append_left _ _ _ (by omega)
  · simp only [streamBits, List.map_inj_left, List.mem_range]
    intro j hj; simpa using streamBit_append_right a b j

theorem allBits_singleton (b : Byte) : allBits [b] = (List.range 8).map fun i => b.getLsbD i := by
  simp only [allBits, streamBits, List.length_singleton, List.map_inj_left, List.mem_range]
  intro j hj
  have h1 : j / 8 = 0 := by omega
  have h2 : j % 8 = j := by omega
  simp [streamBit, h1, h2]

theorem streamBits_eq_drop_take (bytes : List Byte) (p n : Nat) (h : p + n ≤ 8 * bytes.length) :
    streamBits bytes p n = ((allBits bytes).drop p).take n := by
  apply List.ext_getElem
  · simp [length_streamBits, length_allBits]; omega
  · intro k h1 h2
    simp [streamBits, allBits]

theorem allBits_inj {a b : List Byte} (h : allBits a = allBits b) : a = b := by
  have hl := congrArg List.length h
  simp only [length_allBits] at hl
  apply List.ext_getElem (by omega)
  intro i h1 h2
  apply BitVec.eq_of_getLsbD_eq
  intro k hk
  have := List.getElem_of_eq h (i := 8 * i + k) (by simp [length_allBits]; omega)
  have e1 : (8 * i + k) / 8 = i := by omega
  have e2 : (8 * i + k) % 8 = k := by omega
  simpa [allBits, streamBits, streamBit, e1, e2, List.getD_eq_getElem?_getD, h1, h2] using this

end Sys2Proof.Machine
end

