-- ==== Sys2Proof/Laws/Codes.lean ====
section
/-! SUPPORT. Codes as paths (00_scope R12, 10_state R33, 42_tree_dictionary R149): the number of a path, the path of
a code, and when one code is an initial segment of another. -/

namespace Sys2Proof.Machine

theorem pathValue_append_bit (l : List Bool) (b : Bool) :
    pathValue (l ++ [b]) = pathValue l + b.toNat * 2 ^ l.length := by
  induction l with
  | nil => simp [pathValue]
  | cons x xs ih =>
    simp only [List.cons_append, pathValue, ih, List.length_cons, Nat.pow_succ]
    ring

theorem pathValue_lt (l : List Bool) : pathValue l < 2 ^ l.length := by
  induction l with
  | nil => simp [pathValue]
  | cons x xs ih =>
    have := Bool.toNat_le x
    simp only [pathValue, List.length_cons, Nat.pow_succ]
    omega

theorem testBit_pathValue (l : List Bool) (k : Nat) : (pathValue l).testBit k = l.getD k false := by
  induction l generalizing k with
  | nil => simp [pathValue]
  | cons x xs ih =>
    cases k with
    | zero => cases x <;> simp [pathValue, Nat.testBit_zero]
    | succ k =>
      rw [Nat.testBit_succ]
      have : (x.toNat + 2 * pathValue xs) / 2 = pathValue xs := by
        have := Bool.toNat_le x
        omega
      simp only [pathValue, this, ih, List.getD_cons_succ]

theorem pathValue_inj {a b : List Bool} (hl : a.length = b.length) (h : pathValue a = pathValue b) : a = b := by
  apply List.ext_getElem hl
  intro k h1 h2
  have := congrArg (·.testBit k) h
  simpa [testBit_pathValue, h1, h2] using this

/-- The number of the path's first `k` steps. -/
theorem pathValue_take (l : List Bool) (k : Nat) : pathValue (l.take k) = pathValue l % 2 ^ k := by
  apply Nat.eq_of_testBit_eq
  intro i
  rw [testBit_pathValue, Nat.testBit_mod_two_pow, testBit_pathValue]
  by_cases h : i < k
  · by_cases h2 : i < l.length <;> simp [h, List.getD_eq_getElem?_getD]
  · simp [h, List.getD_eq_getElem?_getD]

theorem pathValue_codeBits (c : Code) : pathValue (codeBits c) = c.bits.toNat % 2 ^ c.len.toNat := by
  apply Nat.eq_of_testBit_eq
  intro i
  rw [testBit_pathValue, Nat.testBit_mod_two_pow]
  by_cases h : i < c.len.toNat
  · simp [codeBits, h, List.getD_eq_getElem?_getD, BitVec.getLsbD]
  · simp [codeBits, h, List.getD_eq_getElem?_getD]

/-- A code's path is its number, where no bit is set at or above its length (30_encoding R88). -/
theorem codeBits_eq_iff {c : Code} (h : c.bits.toNat < 2 ^ c.len.toNat) (l : List Bool) :
    codeBits c = l ↔ c.len.toNat = l.length ∧ c.bits.toNat = pathValue l := by
  have hv := pathValue_codeBits c
  rw [Nat.mod_eq_of_lt h] at hv
  constructor
  · rintro rfl; exact ⟨(length_codeBits c).symm, hv.symm⟩
  · rintro ⟨h1, h2⟩
    exact pathValue_inj (by rw [length_codeBits, h1]) (by rw [hv, h2])

/-- The code of a path of at most 16 steps has that path (42_tree_dictionary R149). -/
theorem codeBits_codeOfPath {path : List Bool} (h : path.length ≤ 16) :
    codeBits (codeOfPath path) = path ∧ (codeOfPath path).len.toNat = path.length
      ∧ (codeOfPath path).bits.toNat < 2 ^ path.length := by
  have hlen : (codeOfPath path).len.toNat = path.length := by
    simp only [codeOfPath, BitVec.toNat_ofNat]; omega
  have hlt := pathValue_lt path
  have h16 : 2 ^ path.length ≤ 2 ^ 16 := Nat.pow_le_pow_right (by omega) h
  have hbits : (codeOfPath path).bits.toNat = pathValue path := by
    simp only [codeOfPath, h, if_true, BitVec.toNat_ofNat]
    exact Nat.mod_eq_of_lt (by omega)
  have hr : (codeOfPath path).bits.toNat < 2 ^ path.length := by rw [hbits]; exact hlt
  exact ⟨(codeBits_eq_iff (by rw [hlen]; exact hr) path).mpr ⟨hlen, hbits⟩, hlen, hr⟩

/-- A list of steps is an initial segment of a code's path exactly when it is the path's first steps, by number. -/
theorem initialOf_iff {a b : Code} (ha : a.bits.toNat < 2 ^ a.len.toNat) (hb : b.bits.toNat < 2 ^ b.len.toNat) :
    a.InitialOf b ↔ a.len.toNat ≤ b.len.toNat ∧ b.bits.toNat % 2 ^ a.len.toNat = a.bits.toNat := by
  have hv := pathValue_codeBits b
  rw [Nat.mod_eq_of_lt hb] at hv
  rw [Code.InitialOf, List.prefix_iff_eq_take, length_codeBits, codeBits_eq_iff ha]
  rw [List.length_take, length_codeBits, pathValue_take, hv]
  omega

end Sys2Proof.Machine
end

