-- ==== Sys2Proof/Laws/State.lean ====
section
/-! SUPPORT. One lemma per field per update of State, and what an update leaves of the oracle. -/

namespace Sys2Proof.Machine

/-! ### withArg0 -/

@[simp] theorem State.withArg0_arg0 (s : State) (v : Word) : (s.withArg0 v).arg0 = v := rfl
@[simp] theorem State.withArg0_arg1 (s : State) (v : Word) : (s.withArg0 v).arg1 = s.arg1 := rfl
@[simp] theorem State.withArg0_res (s : State) (v : Word) : (s.withArg0 v).res = s.res := rfl
@[simp] theorem State.withArg0_code (s : State) (v : Word) : (s.withArg0 v).code = s.code := rfl
@[simp] theorem State.withArg0_cmd (s : State) (v : Word) : (s.withArg0 v).cmd = s.cmd := rfl
@[simp] theorem State.withArg0_input (s : State) (v : Word) : (s.withArg0 v).input = s.input := rfl
@[simp] theorem State.withArg0_inputIo (s : State) (v : Word) : (s.withArg0 v).inputIo = s.inputIo := rfl
@[simp] theorem State.withArg0_br (s : State) (v : Word) : (s.withArg0 v).br = s.br := rfl
@[simp] theorem State.withArg0_bw (s : State) (v : Word) : (s.withArg0 v).bw = s.bw := rfl
@[simp] theorem State.withArg0_enc (s : State) (v : Word) : (s.withArg0 v).enc = s.enc := rfl
@[simp] theorem State.withArg0_dec (s : State) (v : Word) : (s.withArg0 v).dec = s.dec := rfl
@[simp] theorem State.withArg0_params (s : State) (v : Word) : (s.withArg0 v).params = s.params := rfl
@[simp] theorem State.withArg0_host (s : State) (v : Word) : (s.withArg0 v).host = s.host := rfl
@[simp] theorem State.withArg0_answer (s : State) (v : Word) : (s.withArg0 v).answer = s.answer := rfl

/-! ### withArg1 -/

@[simp] theorem State.withArg1_arg0 (s : State) (v : Word) : (s.withArg1 v).arg0 = s.arg0 := rfl
@[simp] theorem State.withArg1_arg1 (s : State) (v : Word) : (s.withArg1 v).arg1 = v := rfl
@[simp] theorem State.withArg1_res (s : State) (v : Word) : (s.withArg1 v).res = s.res := rfl
@[simp] theorem State.withArg1_code (s : State) (v : Word) : (s.withArg1 v).code = s.code := rfl
@[simp] theorem State.withArg1_cmd (s : State) (v : Word) : (s.withArg1 v).cmd = s.cmd := rfl
@[simp] theorem State.withArg1_input (s : State) (v : Word) : (s.withArg1 v).input = s.input := rfl
@[simp] theorem State.withArg1_inputIo (s : State) (v : Word) : (s.withArg1 v).inputIo = s.inputIo := rfl
@[simp] theorem State.withArg1_br (s : State) (v : Word) : (s.withArg1 v).br = s.br := rfl
@[simp] theorem State.withArg1_bw (s : State) (v : Word) : (s.withArg1 v).bw = s.bw := rfl
@[simp] theorem State.withArg1_enc (s : State) (v : Word) : (s.withArg1 v).enc = s.enc := rfl
@[simp] theorem State.withArg1_dec (s : State) (v : Word) : (s.withArg1 v).dec = s.dec := rfl
@[simp] theorem State.withArg1_params (s : State) (v : Word) : (s.withArg1 v).params = s.params := rfl
@[simp] theorem State.withArg1_host (s : State) (v : Word) : (s.withArg1 v).host = s.host := rfl
@[simp] theorem State.withArg1_answer (s : State) (v : Word) : (s.withArg1 v).answer = s.answer := rfl

/-! ### withRes -/

@[simp] theorem State.withRes_arg0 (s : State) (v : Word) : (s.withRes v).arg0 = s.arg0 := rfl
@[simp] theorem State.withRes_arg1 (s : State) (v : Word) : (s.withRes v).arg1 = s.arg1 := rfl
@[simp] theorem State.withRes_res (s : State) (v : Word) : (s.withRes v).res = v := rfl
@[simp] theorem State.withRes_code (s : State) (v : Word) : (s.withRes v).code = s.code := rfl
@[simp] theorem State.withRes_cmd (s : State) (v : Word) : (s.withRes v).cmd = s.cmd := rfl
@[simp] theorem State.withRes_input (s : State) (v : Word) : (s.withRes v).input = s.input := rfl
@[simp] theorem State.withRes_inputIo (s : State) (v : Word) : (s.withRes v).inputIo = s.inputIo := rfl
@[simp] theorem State.withRes_br (s : State) (v : Word) : (s.withRes v).br = s.br := rfl
@[simp] theorem State.withRes_bw (s : State) (v : Word) : (s.withRes v).bw = s.bw := rfl
@[simp] theorem State.withRes_enc (s : State) (v : Word) : (s.withRes v).enc = s.enc := rfl
@[simp] theorem State.withRes_dec (s : State) (v : Word) : (s.withRes v).dec = s.dec := rfl
@[simp] theorem State.withRes_params (s : State) (v : Word) : (s.withRes v).params = s.params := rfl
@[simp] theorem State.withRes_host (s : State) (v : Word) : (s.withRes v).host = s.host := rfl
@[simp] theorem State.withRes_answer (s : State) (v : Word) : (s.withRes v).answer = s.answer := rfl

/-! ### withCode -/

@[simp] theorem State.withCode_arg0 (s : State) (c : StatusCode) : (s.withCode c).arg0 = s.arg0 := rfl
@[simp] theorem State.withCode_arg1 (s : State) (c : StatusCode) : (s.withCode c).arg1 = s.arg1 := rfl
@[simp] theorem State.withCode_res (s : State) (c : StatusCode) : (s.withCode c).res = s.res := rfl
@[simp] theorem State.withCode_code (s : State) (c : StatusCode) : (s.withCode c).code = c := rfl
@[simp] theorem State.withCode_cmd (s : State) (c : StatusCode) : (s.withCode c).cmd = s.cmd := rfl
@[simp] theorem State.withCode_input (s : State) (c : StatusCode) : (s.withCode c).input = s.input := rfl
@[simp] theorem State.withCode_inputIo (s : State) (c : StatusCode) : (s.withCode c).inputIo = s.inputIo := rfl
@[simp] theorem State.withCode_br (s : State) (c : StatusCode) : (s.withCode c).br = s.br := rfl
@[simp] theorem State.withCode_bw (s : State) (c : StatusCode) : (s.withCode c).bw = s.bw := rfl
@[simp] theorem State.withCode_enc (s : State) (c : StatusCode) : (s.withCode c).enc = s.enc := rfl
@[simp] theorem State.withCode_dec (s : State) (c : StatusCode) : (s.withCode c).dec = s.dec := rfl
@[simp] theorem State.withCode_params (s : State) (c : StatusCode) : (s.withCode c).params = s.params := rfl
@[simp] theorem State.withCode_host (s : State) (c : StatusCode) : (s.withCode c).host = s.host := rfl
@[simp] theorem State.withCode_answer (s : State) (c : StatusCode) : (s.withCode c).answer = s.answer := rfl

/-! ### withCmd -/

@[simp] theorem State.withCmd_arg0 (s : State) (c : Option CmdWord) : (s.withCmd c).arg0 = s.arg0 := rfl
@[simp] theorem State.withCmd_arg1 (s : State) (c : Option CmdWord) : (s.withCmd c).arg1 = s.arg1 := rfl
@[simp] theorem State.withCmd_res (s : State) (c : Option CmdWord) : (s.withCmd c).res = s.res := rfl
@[simp] theorem State.withCmd_code (s : State) (c : Option CmdWord) : (s.withCmd c).code = s.code := rfl
@[simp] theorem State.withCmd_cmd (s : State) (c : Option CmdWord) : (s.withCmd c).cmd = c := rfl
@[simp] theorem State.withCmd_input (s : State) (c : Option CmdWord) : (s.withCmd c).input = s.input := rfl
@[simp] theorem State.withCmd_inputIo (s : State) (c : Option CmdWord) : (s.withCmd c).inputIo = s.inputIo := rfl
@[simp] theorem State.withCmd_br (s : State) (c : Option CmdWord) : (s.withCmd c).br = s.br := rfl
@[simp] theorem State.withCmd_bw (s : State) (c : Option CmdWord) : (s.withCmd c).bw = s.bw := rfl
@[simp] theorem State.withCmd_enc (s : State) (c : Option CmdWord) : (s.withCmd c).enc = s.enc := rfl
@[simp] theorem State.withCmd_dec (s : State) (c : Option CmdWord) : (s.withCmd c).dec = s.dec := rfl
@[simp] theorem State.withCmd_params (s : State) (c : Option CmdWord) : (s.withCmd c).params = s.params := rfl
@[simp] theorem State.withCmd_host (s : State) (c : Option CmdWord) : (s.withCmd c).host = s.host := rfl
@[simp] theorem State.withCmd_answer (s : State) (c : Option CmdWord) : (s.withCmd c).answer = s.answer := rfl

/-! ### withBr -/

@[simp] theorem State.withBr_arg0 (s : State) (u : Br) : (s.withBr u).arg0 = s.arg0 := rfl
@[simp] theorem State.withBr_arg1 (s : State) (u : Br) : (s.withBr u).arg1 = s.arg1 := rfl
@[simp] theorem State.withBr_res (s : State) (u : Br) : (s.withBr u).res = s.res := rfl
@[simp] theorem State.withBr_code (s : State) (u : Br) : (s.withBr u).code = s.code := rfl
@[simp] theorem State.withBr_cmd (s : State) (u : Br) : (s.withBr u).cmd = s.cmd := rfl
@[simp] theorem State.withBr_input (s : State) (u : Br) : (s.withBr u).input = s.input := rfl
@[simp] theorem State.withBr_inputIo (s : State) (u : Br) : (s.withBr u).inputIo = s.inputIo := rfl
@[simp] theorem State.withBr_br (s : State) (u : Br) : (s.withBr u).br = u := rfl
@[simp] theorem State.withBr_bw (s : State) (u : Br) : (s.withBr u).bw = s.bw := rfl
@[simp] theorem State.withBr_enc (s : State) (u : Br) : (s.withBr u).enc = s.enc := rfl
@[simp] theorem State.withBr_dec (s : State) (u : Br) : (s.withBr u).dec = s.dec := rfl
@[simp] theorem State.withBr_params (s : State) (u : Br) : (s.withBr u).params = s.params := rfl
@[simp] theorem State.withBr_host (s : State) (u : Br) : (s.withBr u).host = s.host := rfl
@[simp] theorem State.withBr_answer (s : State) (u : Br) : (s.withBr u).answer = s.answer := rfl

/-! ### withBw -/

@[simp] theorem State.withBw_arg0 (s : State) (u : Bw) : (s.withBw u).arg0 = s.arg0 := rfl
@[simp] theorem State.withBw_arg1 (s : State) (u : Bw) : (s.withBw u).arg1 = s.arg1 := rfl
@[simp] theorem State.withBw_res (s : State) (u : Bw) : (s.withBw u).res = s.res := rfl
@[simp] theorem State.withBw_code (s : State) (u : Bw) : (s.withBw u).code = s.code := rfl
@[simp] theorem State.withBw_cmd (s : State) (u : Bw) : (s.withBw u).cmd = s.cmd := rfl
@[simp] theorem State.withBw_input (s : State) (u : Bw) : (s.withBw u).input = s.input := rfl
@[simp] theorem State.withBw_inputIo (s : State) (u : Bw) : (s.withBw u).inputIo = s.inputIo := rfl
@[simp] theorem State.withBw_br (s : State) (u : Bw) : (s.withBw u).br = s.br := rfl
@[simp] theorem State.withBw_bw (s : State) (u : Bw) : (s.withBw u).bw = u := rfl
@[simp] theorem State.withBw_enc (s : State) (u : Bw) : (s.withBw u).enc = s.enc := rfl
@[simp] theorem State.withBw_dec (s : State) (u : Bw) : (s.withBw u).dec = s.dec := rfl
@[simp] theorem State.withBw_params (s : State) (u : Bw) : (s.withBw u).params = s.params := rfl
@[simp] theorem State.withBw_host (s : State) (u : Bw) : (s.withBw u).host = s.host := rfl
@[simp] theorem State.withBw_answer (s : State) (u : Bw) : (s.withBw u).answer = s.answer := rfl

/-! ### withEnc -/

@[simp] theorem State.withEnc_arg0 (s : State) (u : Enc) : (s.withEnc u).arg0 = s.arg0 := rfl
@[simp] theorem State.withEnc_arg1 (s : State) (u : Enc) : (s.withEnc u).arg1 = s.arg1 := rfl
@[simp] theorem State.withEnc_res (s : State) (u : Enc) : (s.withEnc u).res = s.res := rfl
@[simp] theorem State.withEnc_code (s : State) (u : Enc) : (s.withEnc u).code = s.code := rfl
@[simp] theorem State.withEnc_cmd (s : State) (u : Enc) : (s.withEnc u).cmd = s.cmd := rfl
@[simp] theorem State.withEnc_input (s : State) (u : Enc) : (s.withEnc u).input = s.input := rfl
@[simp] theorem State.withEnc_inputIo (s : State) (u : Enc) : (s.withEnc u).inputIo = s.inputIo := rfl
@[simp] theorem State.withEnc_br (s : State) (u : Enc) : (s.withEnc u).br = s.br := rfl
@[simp] theorem State.withEnc_bw (s : State) (u : Enc) : (s.withEnc u).bw = s.bw := rfl
@[simp] theorem State.withEnc_enc (s : State) (u : Enc) : (s.withEnc u).enc = u := rfl
@[simp] theorem State.withEnc_dec (s : State) (u : Enc) : (s.withEnc u).dec = s.dec := rfl
@[simp] theorem State.withEnc_params (s : State) (u : Enc) : (s.withEnc u).params = s.params := rfl
@[simp] theorem State.withEnc_host (s : State) (u : Enc) : (s.withEnc u).host = s.host := rfl
@[simp] theorem State.withEnc_answer (s : State) (u : Enc) : (s.withEnc u).answer = s.answer := rfl

/-! ### withDec -/

@[simp] theorem State.withDec_arg0 (s : State) (u : Dec) : (s.withDec u).arg0 = s.arg0 := rfl
@[simp] theorem State.withDec_arg1 (s : State) (u : Dec) : (s.withDec u).arg1 = s.arg1 := rfl
@[simp] theorem State.withDec_res (s : State) (u : Dec) : (s.withDec u).res = s.res := rfl
@[simp] theorem State.withDec_code (s : State) (u : Dec) : (s.withDec u).code = s.code := rfl
@[simp] theorem State.withDec_cmd (s : State) (u : Dec) : (s.withDec u).cmd = s.cmd := rfl
@[simp] theorem State.withDec_input (s : State) (u : Dec) : (s.withDec u).input = s.input := rfl
@[simp] theorem State.withDec_inputIo (s : State) (u : Dec) : (s.withDec u).inputIo = s.inputIo := rfl
@[simp] theorem State.withDec_br (s : State) (u : Dec) : (s.withDec u).br = s.br := rfl
@[simp] theorem State.withDec_bw (s : State) (u : Dec) : (s.withDec u).bw = s.bw := rfl
@[simp] theorem State.withDec_enc (s : State) (u : Dec) : (s.withDec u).enc = s.enc := rfl
@[simp] theorem State.withDec_dec (s : State) (u : Dec) : (s.withDec u).dec = u := rfl
@[simp] theorem State.withDec_params (s : State) (u : Dec) : (s.withDec u).params = s.params := rfl
@[simp] theorem State.withDec_host (s : State) (u : Dec) : (s.withDec u).host = s.host := rfl
@[simp] theorem State.withDec_answer (s : State) (u : Dec) : (s.withDec u).answer = s.answer := rfl

/-! ### withHost -/

@[simp] theorem State.withHost_arg0 (s : State) (h : List HostMove) : (s.withHost h).arg0 = s.arg0 := rfl
@[simp] theorem State.withHost_arg1 (s : State) (h : List HostMove) : (s.withHost h).arg1 = s.arg1 := rfl
@[simp] theorem State.withHost_res (s : State) (h : List HostMove) : (s.withHost h).res = s.res := rfl
@[simp] theorem State.withHost_code (s : State) (h : List HostMove) : (s.withHost h).code = s.code := rfl
@[simp] theorem State.withHost_cmd (s : State) (h : List HostMove) : (s.withHost h).cmd = s.cmd := rfl
@[simp] theorem State.withHost_input (s : State) (h : List HostMove) : (s.withHost h).input = s.input := rfl
@[simp] theorem State.withHost_inputIo (s : State) (h : List HostMove) : (s.withHost h).inputIo = s.inputIo := rfl
@[simp] theorem State.withHost_br (s : State) (h : List HostMove) : (s.withHost h).br = s.br := rfl
@[simp] theorem State.withHost_bw (s : State) (h : List HostMove) : (s.withHost h).bw = s.bw := rfl
@[simp] theorem State.withHost_enc (s : State) (h : List HostMove) : (s.withHost h).enc = s.enc := rfl
@[simp] theorem State.withHost_dec (s : State) (h : List HostMove) : (s.withHost h).dec = s.dec := rfl
@[simp] theorem State.withHost_params (s : State) (h : List HostMove) : (s.withHost h).params = s.params := rfl
@[simp] theorem State.withHost_host (s : State) (h : List HostMove) : (s.withHost h).host = h := rfl
@[simp] theorem State.withHost_answer (s : State) (h : List HostMove) : (s.withHost h).answer = s.answer := rfl

/-! ### The end of a command -/

theorem State.done_eq (s : State) : s.done = .next (s.withCode .ok) := rfl
theorem State.raise_eq (s : State) (c : StatusCode) : s.raise c = .next (s.withCode c) := rfl

/-- Two states are equal when their fields are. -/
theorem State.ext_fields {s t : State} (h0 : s.arg0 = t.arg0) (h1 : s.arg1 = t.arg1) (h2 : s.res = t.res)
    (h3 : s.code = t.code) (h4 : s.cmd = t.cmd) (h5 : s.input = t.input) (h6 : s.inputIo = t.inputIo)
    (h7 : s.br = t.br) (h8 : s.bw = t.bw) (h9 : s.enc = t.enc) (h10 : s.dec = t.dec)
    (h11 : s.params = t.params) (h12 : s.host = t.host) : s = t := by
  cases s; cases t; simp_all

end Sys2Proof.Machine
end

