-- ==== Sys2Proof/Laws/Units.lean ====
section
/-! SUPPORT. What the checks at the start of a command answer (40 R100, 41 R120, 43 R178 and R170, 44 R200), and
when a command behind a check has a next state. -/

namespace Sys2Proof.Machine

variable {s t : State} {body : Result} {legal : EState → Bool}

theorem brGuard_fault (h : s.br.iof = true) : brGuard s body = .next (s.withCode .io) := by
  simp [brGuard, h, State.raise]

theorem brGuard_ok (h : s.br.iof = false) : brGuard s body = body := by
  simp [brGuard, h]

theorem bwGuardIo_fault (h : s.bw.iof = true) : bwGuardIo s body = .next (s.withCode .io) := by
  simp [bwGuardIo, h, State.raise]

theorem bwGuardIo_ok (h : s.bw.iof = false) : bwGuardIo s body = body := by
  simp [bwGuardIo, h]

theorem bwGuard_fault (h : s.bw.iof = true) : bwGuard s body = .next (s.withCode .io) :=
  bwGuardIo_fault h

theorem bwGuard_released (h : s.bw.iof = false) (hr : s.bw.rel = true) :
    bwGuard s body = .next (s.withCode .invalidState) := by
  simp [bwGuard, bwGuardIo_ok h, hr, State.raise]

theorem bwGuard_ok (h : s.bw.iof = false) (hr : s.bw.rel = false) : bwGuard s body = body := by
  simp [bwGuard, bwGuardIo_ok h, hr]

theorem encGuardIo_fault (h : s.enc.iof = true) : encGuardIo s body = .next (s.withCode .io) := by
  simp [encGuardIo, h, State.raise]

theorem encGuardIo_ok (h : s.enc.iof = false) : encGuardIo s body = body := by
  simp [encGuardIo, h]

theorem encGuard_fault (h : s.enc.iof = true) : encGuard legal s body = .next (s.withCode .io) :=
  encGuardIo_fault h

theorem encGuard_illegal (h : s.enc.iof = false) (hl : legal s.enc.estate = false) :
    encGuard legal s body = .next (s.withCode .invalidState) := by
  simp [encGuard, encGuardIo_ok h, hl, State.raise]

theorem encGuard_ok (h : s.enc.iof = false) (hl : legal s.enc.estate = true) :
    encGuard legal s body = body := by
  simp [encGuard, encGuardIo_ok h, hl]

theorem decGuard_fault (h : s.dec.iof = true) : decGuard s body = .next (s.withCode .io) := by
  simp [decGuard, h, State.raise]

theorem decGuard_ok (h : s.dec.iof = false) : decGuard s body = body := by
  simp [decGuard, h]

/-! ### A next state behind a check -/

theorem brGuard_eq_next_iff : brGuard s body = .next t ↔
    (s.br.iof = true ∧ t = s.withCode .io) ∨ (s.br.iof = false ∧ body = .next t) := by
  cases h : s.br.iof
  · simp [brGuard_ok h]
  · simp [brGuard_fault h, eq_comm]

theorem bwGuardIo_eq_next_iff : bwGuardIo s body = .next t ↔
    (s.bw.iof = true ∧ t = s.withCode .io) ∨ (s.bw.iof = false ∧ body = .next t) := by
  cases h : s.bw.iof
  · simp [bwGuardIo_ok h]
  · simp [bwGuardIo_fault h, eq_comm]

theorem bwGuard_eq_next_iff : bwGuard s body = .next t ↔
    (s.bw.iof = true ∧ t = s.withCode .io)
    ∨ (s.bw.iof = false ∧ s.bw.rel = true ∧ t = s.withCode .invalidState)
    ∨ (s.bw.iof = false ∧ s.bw.rel = false ∧ body = .next t) := by
  cases h : s.bw.iof
  · cases hr : s.bw.rel
    · simp [bwGuard_ok h hr]
    · simp [bwGuard_released h hr, eq_comm]
  · rw [bwGuard_fault h]
    exact ⟨fun e => by cases e; exact .inl ⟨rfl, rfl⟩, by rintro (⟨-, rfl⟩ | ⟨hx, -⟩ | ⟨hx, -⟩) <;> first | rfl | cases hx⟩

theorem encGuardIo_eq_next_iff : encGuardIo s body = .next t ↔
    (s.enc.iof = true ∧ t = s.withCode .io) ∨ (s.enc.iof = false ∧ body = .next t) := by
  cases h : s.enc.iof
  · simp [encGuardIo_ok h]
  · simp [encGuardIo_fault h, eq_comm]

theorem encGuard_eq_next_iff : encGuard legal s body = .next t ↔
    (s.enc.iof = true ∧ t = s.withCode .io)
    ∨ (s.enc.iof = false ∧ legal s.enc.estate = false ∧ t = s.withCode .invalidState)
    ∨ (s.enc.iof = false ∧ legal s.enc.estate = true ∧ body = .next t) := by
  cases h : s.enc.iof
  · cases hl : legal s.enc.estate
    · rw [encGuard_illegal h hl]
      constructor
      · intro e; cases e; exact .inr (.inl ⟨rfl, rfl, rfl⟩)
      · rintro (⟨hx, -⟩ | ⟨-, -, rfl⟩ | ⟨-, hx, -⟩)
        · cases hx
        · rfl
        · cases hx
    · simp [encGuard_ok h hl]
  · rw [encGuard_fault h]
    exact ⟨fun e => by cases e; exact .inl ⟨rfl, rfl⟩, by rintro (⟨-, rfl⟩ | ⟨hx, -⟩ | ⟨hx, -⟩) <;> first | rfl | cases hx⟩

theorem decGuard_eq_next_iff : decGuard s body = .next t ↔
    (s.dec.iof = true ∧ t = s.withCode .io) ∨ (s.dec.iof = false ∧ body = .next t) := by
  cases h : s.dec.iof
  · simp [decGuard_ok h]
  · simp [decGuard_fault h, eq_comm]

/-! ### The ends of a command -/

/-- What the end of a BR read leaves (R101, R111). -/
theorem brFinish_eq_next_iff {r : ReadRes Nat} : brFinish s r = .next t ↔
    (∃ v rd, r = .ok v rd ∧ t = ((s.withBrReader rd).withRes (resWord v)).withCode .ok)
    ∨ (r = .endOfStream ∧ t = s.withCode .endOfStream)
    ∨ (r = .io ∧ t = (s.withBr { s.br with iof := true }).withCode .io) := by
  cases r <;> simp [brFinish, State.done, State.raise, eq_comm]

/-- What the end of a BW command that writes leaves (R121, R128, R130). -/
theorem bwFinish_eq_next_iff {rel : Bool} {r : WriteRes} : bwFinish s rel r = .next t ↔
    (∃ w, r = .ok w ∧ t = (s.withBw { wr := w, iof := s.bw.iof, rel := rel }).withCode .ok)
    ∨ (∃ w, r = .io w ∧ t = (s.withBw { wr := w, iof := true, rel := s.bw.rel }).withCode .io) := by
  cases r <;> simp [bwFinish, State.done, State.raise, eq_comm]

/-- What the commands of ENC that flush leave (R175, R177). -/
theorem encFlush_eq_next_iff {e : EState} : encFlush e s = .next t ↔
    (∃ w, flush .eSink (s.answer .eSink) s.enc.ew = .ok w
      ∧ t = (s.withEnc ((s.enc.withEw w).withEState e)).withCode .ok)
    ∨ (∃ w, flush .eSink (s.answer .eSink) s.enc.ew = .io w
      ∧ t = (s.withEnc (s.enc.withEw w).withFault).withCode .io) := by
  unfold encFlush
  cases flush .eSink (s.answer .eSink) s.enc.ew <;> simp [State.done, State.raise, eq_comm]

end Sys2Proof.Machine
end

