-- ==== Sys2Proof/Laws/Transfers.lean ====
section
/-! SUPPORT. What asking for a list of transfers can answer, and which bytes a wide read asks for. -/

namespace Sys2Proof.Machine

theorem transferAll_eq_ok_iff (ask : Nat → IoAnswer) (l : List Nat) :
    transferAll ask l = .ok ↔ ∀ i ∈ l, ask i = .ok := by
  induction l with
  | nil => simp [transferAll]
  | cons i is ih => cases h : ask i <;> simp [transferAll, h, ih]

theorem transferAll_eq_fail_iff (ask : Nat → IoAnswer) (l : List Nat) :
    transferAll ask l = .fail ↔
      ∃ a i b, l = a ++ i :: b ∧ (∀ j ∈ a, ask j = .ok) ∧ ask i = .fail := by
  induction l with
  | nil => simp [transferAll]
  | cons i is ih =>
    cases h : ask i with
    | fail =>
      simp only [transferAll, h, true_iff]
      exact ⟨[], i, is, rfl, by simp, h⟩
    | never =>
      simp only [transferAll, h, reduceCtorEq, false_iff]
      rintro ⟨a, j, b, hl, ha, hj⟩
      cases a with
      | nil => simp at hl; simp_all
      | cons x xs => simp at hl; have := ha x (by simp); simp_all
    | ok =>
      simp only [transferAll, h, ih]
      constructor
      · rintro ⟨a, j, b, rfl, ha, hj⟩
        exact ⟨i :: a, j, b, rfl, by simpa using ⟨h, ha⟩, hj⟩
      · rintro ⟨a, j, b, hl, ha, hj⟩
        cases a with
        | nil => simp at hl; simp_all
        | cons x xs =>
          simp at hl ha
          exact ⟨xs, j, b, hl.2, ha.2, hj⟩

theorem transferAll_eq_stuck_iff (ask : Nat → IoAnswer) (l : List Nat) (i : Nat) :
    transferAll ask l = .stuck i ↔
      ∃ a b, l = a ++ i :: b ∧ (∀ j ∈ a, ask j = .ok) ∧ ask i = .never := by
  induction l with
  | nil => simp [transferAll]
  | cons k is ih =>
    cases h : ask k with
    | never =>
      simp only [transferAll, h, Transfer.stuck.injEq]
      constructor
      · rintro rfl; exact ⟨[], is, rfl, by simp, h⟩
      · rintro ⟨a, b, hl, ha, hj⟩
        cases a with
        | nil => simp at hl; exact hl.1
        | cons x xs => simp at hl; have := ha x (by simp); simp_all
    | fail =>
      simp only [transferAll, h, reduceCtorEq, false_iff]
      rintro ⟨a, b, hl, ha, hj⟩
      cases a with
      | nil => simp at hl; simp_all
      | cons x xs => simp at hl; have := ha x (by simp); simp_all
    | ok =>
      simp only [transferAll, h, ih]
      constructor
      · rintro ⟨a, b, rfl, ha, hj⟩
        exact ⟨k :: a, b, rfl, by simpa using ⟨h, ha⟩, hj⟩
      · rintro ⟨a, b, hl, ha, hj⟩
        cases a with
        | nil => simp at hl; simp_all
        | cons x xs =>
          simp at hl ha
          exact ⟨xs, b, hl.2, ha.2, hj⟩

theorem mem_bytesOfBits {p n : Nat} (hn : 1 ≤ n) (i : Nat) :
    i ∈ bytesOfBits p n ↔ p / 8 ≤ i ∧ i ≤ (p + n - 1) / 8 := by
  simp only [bytesOfBits, List.mem_map, List.mem_range]
  constructor
  · rintro ⟨k, hk, rfl⟩; omega
  · rintro ⟨h1, h2⟩; exact ⟨i - p / 8, by omega, by omega⟩

/-- A wide read whose byte q is the first that is not transferred ends with Io. -/
theorem transferAll_bytesOfBits_fail {ask : Nat → IoAnswer} {p n q : Nat} (hlo : p / 8 ≤ q)
    (hhi : q ≤ (p + n - 1) / 8) (hok : ∀ k, p / 8 ≤ k → k < q → ask k = .ok) (hf : ask q = .fail) :
    transferAll ask (bytesOfBits p n) = .fail := by
  obtain ⟨c, rfl⟩ := Nat.exists_eq_add_of_le hlo
  obtain ⟨d, hd⟩ := Nat.exists_eq_add_of_le hhi
  refine (transferAll_eq_fail_iff _ _).mpr ⟨(List.range c).map fun k => p / 8 + k, p / 8 + c,
    (List.range d).map fun k => p / 8 + (c + (1 + k)), ?_, ?_, hf⟩
  · rw [bytesOfBits, show (p + n - 1) / 8 + 1 - p / 8 = c + (1 + d) by omega, List.range_add, List.range_add]
    simp [Function.comp_def]
  · simp only [List.mem_map, List.mem_range]
    rintro j ⟨k, hk, rfl⟩
    exact hok _ (by omega) (by omega)

end Sys2Proof.Machine
end

