-- ==== Sys2Proof/Laws/Writer.lean ====
section
/-! SUPPORT. What the writer's primitives can end in (41_bit_writer R131), and what they do to the bits a writer
holds. -/

namespace Sys2Proof.Machine

variable {S : Stream} {ask : Nat → IoAnswer} {w w' : Writer} {b : Bool} {bs : List Bool} {base : Pos}

theorem Writer.length_bits (w : Writer) : w.bits.length = w.bitCount := by
  simp [Writer.bits, Writer.bitCount, length_allBits]

/-- The cursor is exact wherever the exact position fits. -/
theorem Writer.advance_toNat {k : Nat} (h : w.pos.toNat + k < 2 ^ 64) :
    (w.advance S k).toNat = w.pos.toNat + k := by
  simp only [Writer.advance, h, if_true, BitVec.toNat_ofNat]
  omega

theorem Writer.fill_getLsbD (w : Writer) (b : Bool) (i : Nat) (hc : w.Clean) :
    (w.fill b).getLsbD i = if i = w.cnt.val then b else w.buf.getLsbD i := by
  have hcnt := w.cnt.isLt
  simp only [Writer.fill, BitVec.getLsbD_or, BitVec.getLsbD_shiftLeft]
  by_cases hi : i = w.cnt.val
  · subst hi
    have h0 := hc w.cnt.val (le_refl _)
    rw [h0]
    cases b <;> simp [hcnt]
  · rw [if_neg hi]
    by_cases h8 : i < 8
    · by_cases hlt : i < w.cnt.val
      · simp [hlt]
      · have hne : i - w.cnt.val ≠ 0 := by omega
        have h1 : (BitVec.ofNat 8 b.toNat).getLsbD (i - w.cnt.val) = false := by
          cases b
          · simp
          · rw [BitVec.getLsbD_ofNat]
            simp [Nat.testBit, Nat.shiftRight_eq_div_pow]
            intro _
            rw [Nat.div_eq_of_lt (Nat.one_lt_two_pow hne)]
        rw [h1]; simp
    · simp [h8]

/-- How one bit can end: into BUF, into the sink with a whole byte, or with the push of that byte failing. -/
theorem writeBit_cases (S : Stream) (ask : Nat → IoAnswer) (b : Bool) (w : Writer) :
    (∃ h : w.cnt.val + 1 < 8, writeBit S ask b w =
        .ok { sink := w.sink, buf := w.fill b, cnt := ⟨w.cnt.val + 1, h⟩, pos := w.advance S 1 })
    ∨ (w.cnt.val = 7 ∧ ask w.sink.length = .ok ∧ writeBit S ask b w =
        .ok { sink := w.sink ++ [w.fill b], buf := 0, cnt := 0, pos := w.advance S 1 })
    ∨ (w.cnt.val = 7 ∧ ask w.sink.length = .fail ∧ writeBit S ask b w =
        .io { sink := w.sink, buf := w.fill b, cnt := Config.cntAfterFailedPush S w.bitCount,
              pos := w.advance S 1 })
    ∨ (w.cnt.val = 7 ∧ ask w.sink.length = .never ∧ writeBit S ask b w = .stuck w.sink.length) := by
  have hlt := w.cnt.isLt
  by_cases h : w.cnt.val + 1 < 8
  · exact .inl ⟨h, by simp [writeBit, h]⟩
  · have h7 : w.cnt.val = 7 := by omega
    refine .inr ?_
    cases ha : ask w.sink.length
    · exact .inl ⟨h7, rfl, by simp [writeBit, h, transferAll, ha]⟩
    · exact .inr (.inl ⟨h7, rfl, by simp [writeBit, h, transferAll, ha]⟩)
    · exact .inr (.inr ⟨h7, rfl, by simp [writeBit, h, transferAll, ha]⟩)

/-- One written bit is appended to the bits the writer holds. -/
theorem writeBit_ok_bits (h : writeBit S ask b w = .ok w') (hc : w.Clean) :
    w'.Clean ∧ w'.bits = w.bits ++ [b] ∧ w'.bitCount = w.bitCount + 1 ∧ w'.pos = w.advance S 1 := by
  have hlt := w.cnt.isLt
  obtain ⟨h8, e⟩ | ⟨h7, -, e⟩ | ⟨-, -, e⟩ | ⟨-, -, e⟩ := writeBit_cases S ask b w
  · rw [e] at h; cases h
    refine ⟨?_, ?_, ?_, rfl⟩
    · intro i hi
      simp only at hi
      rw [Writer.fill_getLsbD _ _ _ hc, if_neg (by omega)]
      exact hc i (by omega)
    · simp only [Writer.bits, List.append_assoc, List.range_succ, List.map_append, List.map_cons,
        List.map_nil, List.append_cancel_left_eq]
      congr 1
      · simp only [List.map_inj_left, List.mem_range]
        intro i hi
        rw [Writer.fill_getLsbD _ _ _ hc, if_neg (by omega)]
      · rw [Writer.fill_getLsbD _ _ _ hc, if_pos rfl]
    · simp only [Writer.bitCount]; omega
  · rw [e] at h; cases h
    refine ⟨by intro i _; simp, ?_, ?_, rfl⟩
    · simp only [Writer.bits, allBits_append, allBits_singleton, h7, List.append_assoc]
      simp only [Fin.val_zero, List.range_zero, List.map_nil, List.append_nil, List.append_cancel_left_eq]
      rw [List.range_succ, List.map_append]
      congr 1
      · simp only [List.map_inj_left, List.mem_range]
        intro i hi
        rw [Writer.fill_getLsbD _ _ _ hc, if_neg (by omega)]
      · simp only [List.map_cons, List.map_nil]
        rw [Writer.fill_getLsbD _ _ _ hc, if_pos h7.symm]
    · simp only [Writer.bitCount, List.length_append, List.length_singleton, h7, Fin.val_zero]; omega
  · rw [e] at h; cases h
  · rw [e] at h; cases h

theorem Writer.PosExact.step {w w' : Writer} (hp : w.PosExact base) {k : Nat}
    (hk : w'.bitCount = w.bitCount + k) (hpos : w'.pos = w.advance S k) : w'.PosExact base := by
  intro hlt
  have h0 := hp (by omega)
  rw [hpos, Writer.advance_toNat (by omega)]
  omega

theorem writeBit_ok_inv (h : writeBit S ask b w = .ok w') (hi : w.Inv base) : w'.Inv base := by
  obtain ⟨h1, -, h2, h3⟩ := writeBit_ok_bits h hi.1
  exact ⟨h1, hi.2.step h2 h3⟩

/-- The sink only grows. -/
theorem writeBit_sink (S : Stream) (ask : Nat → IoAnswer) (b : Bool) (w : Writer) :
    match writeBit S ask b w with
    | .ok w' => w.sink <+: w'.sink
    | .io w' => w'.sink = w.sink
    | .stuck i => i = w.sink.length ∧ ask i = .never := by
  obtain ⟨h8, e⟩ | ⟨h7, -, e⟩ | ⟨-, -, e⟩ | ⟨-, h, e⟩ := writeBit_cases S ask b w <;> simp [e]
  exact h

theorem writeAll_append (a c : List Bool) (w : Writer) :
    writeAll S ask (a ++ c) w =
      match writeAll S ask a w with
      | .ok w' => writeAll S ask c w'
      | .io w' => .io w'
      | .stuck i => .stuck i := by
  induction a generalizing w with
  | nil => rfl
  | cons b bs ih =>
    simp only [List.cons_append, writeAll]
    cases writeBit S ask b w <;> simp [ih]

/-- What was written is appended to the bits the writer holds. -/
theorem writeAll_ok_bits (h : writeAll S ask bs w = .ok w') (hc : w.Clean) :
    w'.Clean ∧ w'.bits = w.bits ++ bs ∧ w'.bitCount = w.bitCount + bs.length := by
  induction bs generalizing w with
  | nil => cases h; simp [hc]
  | cons b bs ih =>
    simp only [writeAll] at h
    cases hb : writeBit S ask b w with
    | ok w1 =>
      rw [hb] at h
      obtain ⟨c1, b1, n1, -⟩ := writeBit_ok_bits hb hc
      obtain ⟨c2, b2, n2⟩ := ih h c1
      exact ⟨c2, by simp [b2, b1], by rw [n2, n1, List.length_cons]; omega⟩
    | io w1 => rw [hb] at h; cases h
    | stuck i => rw [hb] at h; cases h

theorem writeAll_ok_inv (h : writeAll S ask bs w = .ok w') (hi : w.Inv base) : w'.Inv base := by
  induction bs generalizing w with
  | nil => cases h; exact hi
  | cons b bs ih =>
    simp only [writeAll] at h
    cases hb : writeBit S ask b w with
    | ok w1 => rw [hb] at h; exact ih h (writeBit_ok_inv hb hi)
    | io w1 => rw [hb] at h; cases h
    | stuck i => rw [hb] at h; cases h

/-- Whatever it ends in, the sink keeps the bytes it had. -/
theorem writeAll_sink (S : Stream) (ask : Nat → IoAnswer) (bs : List Bool) (w : Writer) :
    match writeAll S ask bs w with
    | .ok w' => w.sink <+: w'.sink
    | .io w' => w.sink <+: w'.sink
    | .stuck i => w.sink.length ≤ i ∧ ask i = .never := by
  induction bs generalizing w with
  | nil => simp [writeAll]
  | cons b bs ih =>
    have h1 := writeBit_sink S ask b w
    simp only [writeAll]
    cases hb : writeBit S ask b w with
    | ok w1 =>
      rw [hb] at h1
      have h2 := ih w1
      simp only
      cases hr : writeAll S ask bs w1 with
      | ok w2 => rw [hr] at h2; exact h1.trans h2
      | io w2 => rw [hr] at h2; exact h1.trans h2
      | stuck i => rw [hr] at h2; exact ⟨h1.length_le.trans h2.1, h2.2⟩
    | io w1 => rw [hb] at h1; simp [h1]
    | stuck i => rw [hb] at h1; exact ⟨h1.1 ▸ le_refl _, h1.2⟩

/-- The bits are written when the pushes they need are answered ok. -/
theorem writeAll_completes (S : Stream) (bs : List Bool) (w : Writer)
    (h : ∀ i, w.sink.length ≤ i → i < (w.bitCount + bs.length) / 8 → ask i = .ok) :
    ∃ w', writeAll S ask bs w = .ok w' := by
  induction bs generalizing w with
  | nil => exact ⟨w, rfl⟩
  | cons b bs ih =>
    have hlt := w.cnt.isLt
    simp only [List.length_cons] at h
    obtain ⟨h8, e⟩ | ⟨h7, ha, e⟩ | ⟨h7, ha, e⟩ | ⟨h7, ha, e⟩ := writeBit_cases S ask b w
    · simp only [writeAll, e]
      refine ih _ fun i h1 h2 => h i h1 ?_
      simp only [Writer.bitCount] at *
      omega
    · simp only [writeAll, e]
      refine ih _ fun i h1 h2 => ?_
      simp only [Writer.bitCount, List.length_append, List.length_singleton] at *
      refine h i (by omega) ?_
      simp at h2; omega
    · exact absurd (h _ (le_refl _) (by simp only [Writer.bitCount]; omega)) (by simp [ha])
    · exact absurd (h _ (le_refl _) (by simp only [Writer.bitCount]; omega)) (by simp [ha])

/-- The bits up to the first failing push are written, and only they. -/
theorem writeAll_eq_io_iff :
    writeAll S ask bs w = .io w' ↔
      ∃ a b c w1, bs = a ++ b :: c ∧ writeAll S ask a w = .ok w1 ∧ writeBit S ask b w1 = .io w' := by
  induction bs generalizing w with
  | nil => simp [writeAll]
  | cons x xs ih =>
    constructor
    · intro h
      simp only [writeAll] at h
      cases hb : writeBit S ask x w with
      | ok w1 =>
        rw [hb] at h
        obtain ⟨a, b, c, w2, rfl, h1, h2⟩ := ih.mp h
        exact ⟨x :: a, b, c, w2, rfl, by simp [writeAll, hb, h1], h2⟩
      | io w1 =>
        rw [hb] at h; cases h
        exact ⟨[], x, xs, w, rfl, rfl, hb⟩
      | stuck i => rw [hb] at h; cases h
    · rintro ⟨a, b, c, w1, e, h1, h2⟩
      rw [e, writeAll_append, h1]
      simp [writeAll, h2]

/-- A push that fails ends the writing: the bytes before it stay, and they are the first bits of what was to be
written (R131, 20_memory R58). -/
theorem writeAll_fails (S : Stream) (bs : List Bool) (w : Writer) (k : Nat) (hc : w.Clean)
    (hk : k < (w.cnt.val + bs.length) / 8) (hok : ∀ j < k, ask (w.sink.length + j) = .ok)
    (hf : ask (w.sink.length + k) = .fail) :
    ∃ w', writeAll S ask bs w = .io w' ∧ w'.sink.length = w.sink.length + k
      ∧ allBits w'.sink <+: w.bits ++ bs := by
  induction bs generalizing w k with
  | nil => have := w.cnt.isLt; simp only [List.length_nil] at hk; omega
  | cons b bs ih =>
    have hlt := w.cnt.isLt
    simp only [List.length_cons] at hk
    have next : ∀ w1, writeBit S ask b w = .ok w1 → ∀ j, j < (w1.cnt.val + bs.length) / 8 →
        w1.sink.length + j = w.sink.length + k →
        (∀ i < j, ask (w1.sink.length + i) = .ok) →
        ∃ w', writeAll S ask (b :: bs) w = .io w' ∧ w'.sink.length = w.sink.length + k
          ∧ allBits w'.sink <+: w.bits ++ b :: bs := by
      intro w1 h1 j hj e hj2
      obtain ⟨c1, b1, -, -⟩ := writeBit_ok_bits h1 hc
      obtain ⟨w', h2, h3, h4⟩ := ih w1 j c1 hj hj2 (by rw [e]; exact hf)
      refine ⟨w', by simp only [writeAll, h1, h2], by rw [h3, e], ?_⟩
      rw [b1] at h4
      simpa using h4
    obtain ⟨h8, e⟩ | ⟨h7, ha, e⟩ | ⟨h7, ha, e⟩ | ⟨h7, ha, e⟩ := writeBit_cases S ask b w
    · exact next _ e k (by simp only; omega) rfl hok
    · cases k with
      | zero => simp [ha] at hf
      | succ k =>
        refine next _ e k (by simp; omega) (by simp; omega) fun i hi => ?_
        have := hok (i + 1) (by omega)
        simpa [Nat.add_assoc, Nat.add_comm 1] using this
    · have hk0 : k = 0 := by
        rcases Nat.eq_zero_or_pos k with h | h
        · exact h
        · have := hok 0 h
          simp [ha] at this
      subst hk0
      obtain ⟨w1, e, hs⟩ : ∃ w1, writeBit S ask b w = .io w1 ∧ w1.sink = w.sink := ⟨_, e, rfl⟩
      refine ⟨w1, by simp only [writeAll, e], by rw [hs]; rfl, ?_⟩
      rw [hs]; simp [Writer.bits]
    · have h0 : ask w.sink.length ≠ .never := by
        rcases Nat.eq_zero_or_pos k with h | h
        · subst h; simp at hf; simp [hf]
        · have := hok 0 h
          simp at this; simp [this]
      exact absurd ha h0

/-- The cursor after bits that were all written, wherever it fits in 64 bits. -/
theorem writeAll_ok_pos (h : writeAll S ask bs w = .ok w') (hc : w.Clean)
    (hp : w.pos.toNat + bs.length < 2 ^ 64) : w'.pos.toNat = w.pos.toNat + bs.length := by
  induction bs generalizing w with
  | nil => cases h; simp
  | cons b bs ih =>
    simp only [writeAll] at h
    cases hb : writeBit S ask b w with
    | ok w1 =>
      rw [hb] at h
      obtain ⟨c1, -, -, p1⟩ := writeBit_ok_bits hb hc
      simp only [List.length_cons] at hp ⊢
      have e1 : w1.pos.toNat = w.pos.toNat + 1 := by rw [p1, Writer.advance_toNat (by omega)]
      rw [ih h c1 (by omega), e1]; omega
    | io w1 => rw [hb] at h; cases h
    | stuck i => rw [hb] at h; cases h

/-- How a flush can end (R131). -/
theorem flush_cases (S : Stream) (ask : Nat → IoAnswer) (w : Writer) :
    (w.cnt.val = 0 ∧ flush S ask w = .ok w)
    ∨ (0 < w.cnt.val ∧ ask w.sink.length = .ok ∧ flush S ask w =
        .ok { sink := w.sink ++ [w.buf], buf := 0, cnt := 0, pos := w.advance S (8 - w.cnt.val) })
    ∨ (0 < w.cnt.val ∧ ask w.sink.length = .fail ∧ flush S ask w = .io w)
    ∨ (0 < w.cnt.val ∧ ask w.sink.length = .never ∧ flush S ask w = .stuck w.sink.length) := by
  by_cases h : 0 < w.cnt.val
  · refine .inr ?_
    cases ha : ask w.sink.length
    · exact .inl ⟨h, rfl, by simp [flush, h, transferAll, ha]⟩
    · exact .inr (.inl ⟨h, rfl, by simp [flush, h, transferAll, ha]⟩)
    · exact .inr (.inr ⟨h, rfl, by simp [flush, h, transferAll, ha]⟩)
  · exact .inl ⟨by omega, by simp [flush, h]⟩

/-- A flush pads with zero bits to the next byte boundary. -/
theorem flush_ok_bits (h : flush S ask w = .ok w') (hc : w.Clean) :
    w'.Clean ∧ w'.cnt.val = 0
      ∧ w'.bits = w.bits ++ List.replicate ((8 - w.cnt.val) % 8) false := by
  have hlt := w.cnt.isLt
  obtain ⟨h0, e⟩ | ⟨h0, -, e⟩ | ⟨-, -, e⟩ | ⟨-, -, e⟩ := flush_cases S ask w
  · rw [e] at h; cases h
    exact ⟨hc, h0, by simp [h0]⟩
  · rw [e] at h; cases h
    refine ⟨by intro i _; simp, rfl, ?_⟩
    simp only [Writer.bits, allBits_append, allBits_singleton, List.append_assoc, Fin.val_zero,
      List.range_zero, List.map_nil, List.append_nil, List.append_cancel_left_eq]
    apply List.ext_getElem
    · simp; omega
    · intro k h1 h2
      simp only [List.length_map, List.length_range] at h1
      by_cases hk : k < w.cnt.val
      · rw [List.getElem_append_left (by simpa using hk)]; simp
      · rw [List.getElem_append_right (by simpa using hk)]
        simp [hc k (by omega)]
  · rw [e] at h; cases h
  · rw [e] at h; cases h

theorem flush_ok_inv (h : flush S ask w = .ok w') (hi : w.Inv base) : w'.Inv base := by
  have hlt := w.cnt.isLt
  have hc := (flush_ok_bits h hi.1).1
  refine ⟨hc, ?_⟩
  obtain ⟨h0, e⟩ | ⟨h0, -, e⟩ | ⟨-, -, e⟩ | ⟨-, -, e⟩ := flush_cases S ask w
  · rw [e] at h; cases h; exact hi.2
  · rw [e] at h; cases h
    refine hi.2.step (S := S) (k := 8 - w.cnt.val) ?_ rfl
    simp only [Writer.bitCount, List.length_append, List.length_singleton, Fin.val_zero]; omega
  · rw [e] at h; cases h
  · rw [e] at h; cases h

/-- Flushing twice is flushing once: "idempotent" (R128). -/
theorem flush_flush (h : flush S ask w = .ok w') : flush S ask w' = .ok w' := by
  obtain ⟨h0, e⟩ | ⟨-, -, e⟩ | ⟨-, -, e⟩ | ⟨-, -, e⟩ := flush_cases S ask w <;> rw [e] at h <;> cases h
  · exact e
  · simp [flush]

end Sys2Proof.Machine
end

