-- ==== Sys2Proof/Laws/Encoder.lean ====
section
/-! SUPPORT. What the loops of ENC_ANALYZE and ENC_COMPRESS can end in (43_encoder R171, R174), and when an ENC
command has a next state. -/

namespace Sys2Proof.Machine

variable {ask askIn askSink : Nat → IoAnswer} {e e' : Enc} {bs : List Byte} {i n n' : Nat} {s t : State}

/-! ### Counting (42_tree_dictionary R140) -/

/-- The symbols of a list counted one after another. -/
theorem countSymbols_frame (bs : List Byte) (e : Enc) :
    bs.foldl Enc.countSymbol e =
      { e with freq := (bs.foldl Enc.countSymbol e).freq, total := (bs.foldl Enc.countSymbol e).total } := by
  induction bs generalizing e with
  | nil => rfl
  | cons b bs ih => rw [List.foldl_cons, ih]; rfl

theorem countSymbol_freqOf (e : Enc) (a b : Byte) :
    (e.countSymbol a).freqOf b = if b = a then e.freqOf a + 1 else e.freqOf b := by
  simp only [Enc.freqOf, Enc.countSymbol]
  split
  · rename_i h; subst h; simp
  · rename_i h
    rw [Vector.getElem_set_ne]
    exact fun he => h (BitVec.eq_of_toNat_eq he.symm)

theorem countSymbols_freqOf (bs : List Byte) (e : Enc) (b : Byte) :
    (bs.foldl Enc.countSymbol e).freqOf b = e.freqOf b + BitVec.ofNat 64 (bs.count b) := by
  induction bs generalizing e with
  | nil => simp
  | cons a bs ih =>
    rw [List.foldl_cons, ih, countSymbol_freqOf, List.count_cons]
    by_cases h : b = a
    · subst h
      simp only [if_true, beq_self_eq_true]
      rw [BitVec.add_assoc]
      congr 1
      rw [Nat.add_comm, BitVec.ofNat_add]
      rfl
    · have : (a == b) = false := by simpa using fun he : a = b => h he.symm
      simp [h, this]

theorem countSymbols_total (bs : List Byte) (e : Enc) :
    (bs.foldl Enc.countSymbol e).total = e.total + BitVec.ofNat 64 bs.length := by
  induction bs generalizing e with
  | nil => simp
  | cons a bs ih =>
    rw [List.foldl_cons, ih, List.length_cons, Nat.add_comm, BitVec.ofNat_add, ← BitVec.add_assoc]
    rfl

/-- Counting a symbol adds one to the sum of the counts, wherever its count does not wrap. -/
theorem freqSum_countSymbol (e : Enc) (b : Byte) (h : (e.freqOf b).toNat + 1 < 2 ^ 64) :
    freqSum (e.countSymbol b).freq = freqSum e.freq + 1 := by
  have key : ∀ (l : List Count) (k : Nat) (hk : k < l.length) (v : Count),
      ((l.set k v).map (·.toNat)).sum + l[k].toNat = (l.map (·.toNat)).sum + v.toNat := by
    intro l
    induction l with
    | nil => intro k hk; simp at hk
    | cons x xs ih =>
      intro k hk v
      cases k with
      | zero => simp; omega
      | succ k =>
        have := ih k (by simpa using hk) v
        simp only [List.set_cons_succ, List.map_cons, List.sum_cons, List.getElem_cons_succ]
        omega
  have hb : b.toNat < e.freq.toList.length := by simpa using b.isLt
  have h1 := key e.freq.toList b.toNat hb (e.freqOf b + 1)
  have h2 : e.freq.toList[b.toNat] = e.freqOf b := by simp [Enc.freqOf]
  have h3 : (e.freqOf b + 1).toNat = (e.freqOf b).toNat + 1 := by
    rw [BitVec.toNat_add]; exact Nat.mod_eq_of_lt h
  rw [h2, h3] at h1
  simp only [freqSum, Enc.countSymbol, Vector.toList_set]
  omega

/-- No count is above the sum of the counts. -/
theorem freqOf_le_freqSum (e : Enc) (b : Byte) : (e.freqOf b).toNat ≤ freqSum e.freq := by
  have hb : b.toNat < e.freq.toList.length := by simpa using b.isLt
  have h2 : e.freq.toList[b.toNat] = e.freqOf b := by simp [Enc.freqOf]
  have : (e.freqOf b).toNat ∈ e.freq.toList.map (·.toNat) := by
    rw [← h2]; exact List.mem_map_of_mem (List.getElem_mem hb)
  exact List.single_le_sum (by simp) _ this

/-! ### ENC_ANALYZE -/

theorem analyzeLoop_eq_ok_iff : analyzeLoop ask i bs e = .ok e' ↔
    (∀ k < bs.length, ask (i + k) = .ok) ∧ e' = bs.foldl Enc.countSymbol e := by
  induction bs generalizing i e with
  | nil => simp [analyzeLoop, eq_comm]
  | cons b bs ih =>
    have all : (∀ k < (b :: bs).length, ask (i + k) = .ok) ↔
        ask i = .ok ∧ ∀ k < bs.length, ask (i + 1 + k) = .ok := by
      constructor
      · intro h
        refine ⟨h 0 (by simp), fun k hk => ?_⟩
        have := h (k + 1) (by simpa using hk)
        rwa [show i + (k + 1) = i + 1 + k by omega] at this
      · rintro ⟨h0, h⟩ k hk
        cases k with
        | zero => exact h0
        | succ k =>
          have := h k (by simpa using hk)
          rwa [show i + 1 + k = i + (k + 1) by omega] at this
    rw [all]
    cases ha : ask i
    · simp [analyzeLoop, transferAll, ha, ih]
    · simp [analyzeLoop, transferAll, ha]
    · simp [analyzeLoop, transferAll, ha]

/-- A failing byte ends the loop: the symbols before it are counted (R171). -/
theorem analyzeLoop_eq_io_iff : analyzeLoop ask i bs e = .io e' ↔
    ∃ k < bs.length, (∀ j < k, ask (i + j) = .ok) ∧ ask (i + k) = .fail
      ∧ e' = ((bs.take k).foldl Enc.countSymbol e).withFault := by
  induction bs generalizing i e with
  | nil => simp [analyzeLoop]
  | cons b bs ih =>
    cases ha : ask i with
    | ok =>
      simp only [analyzeLoop, transferAll, ha, ih]
      constructor
      · rintro ⟨k, hk, h1, h2, rfl⟩
        refine ⟨k + 1, by simpa using hk, fun j hj => ?_, ?_, by simp⟩
        · cases j with
          | zero => exact ha
          | succ j =>
            have := h1 j (by omega)
            rwa [show i + 1 + j = i + (j + 1) by omega] at this
        · rwa [show i + 1 + k = i + (k + 1) by omega] at h2
      · rintro ⟨k, hk, h1, h2, rfl⟩
        cases k with
        | zero => simp [ha] at h2
        | succ k =>
          refine ⟨k, by simpa using hk, fun j hj => ?_, ?_, by simp⟩
          · have := h1 (j + 1) (by omega)
            rwa [show i + (j + 1) = i + 1 + j by omega] at this
          · rwa [show i + (k + 1) = i + 1 + k by omega] at h2
    | fail =>
      simp only [analyzeLoop, transferAll, ha, AnalyzeRes.io.injEq]
      constructor
      · rintro rfl; exact ⟨0, by simp, by simp, by simpa using ha, by simp⟩
      · rintro ⟨k, hk, h1, h2, rfl⟩
        cases k with
        | zero => simp
        | succ k => have := h1 0 (by omega); simp [ha] at this
    | never =>
      simp only [analyzeLoop, transferAll, ha, reduceCtorEq, false_iff]
      rintro ⟨k, hk, h1, h2, rfl⟩
      cases k with
      | zero => simp [ha] at h2
      | succ k => have := h1 0 (by omega); simp [ha] at this

theorem analyzeLoop_stuck {j : Nat} (h : analyzeLoop ask i bs e = .stuck j) : ask j = .never := by
  induction bs generalizing i e with
  | nil => simp [analyzeLoop] at h
  | cons b bs ih =>
    cases ha : ask i <;> simp only [analyzeLoop, transferAll, ha] at h
    · exact ih h
    · cases h
    · cases h; exact ha

/-! ### ENC_COMPRESS -/

theorem encodeBytes_cons_eq_some_iff {code : Byte → Option Code} {b : Byte} {bits : List Bool} :
    encodeBytes code (b :: bs) = some bits ↔
      ∃ c rest, code b = some c ∧ encodeBytes code bs = some rest ∧ bits = codeBits c ++ rest := by
  simp only [encodeBytes]
  cases code b <;> cases encodeBytes code bs <;> simp [eq_comm]

theorem encodeBytes_append {code : Byte → Option Code} {x y : List Byte} {p q : List Bool}
    (hx : encodeBytes code x = some p) (hy : encodeBytes code y = some q) :
    encodeBytes code (x ++ y) = some (p ++ q) := by
  induction x generalizing p with
  | nil => cases hx; exact hy
  | cons b x ih =>
    obtain ⟨c, rest, hc, hr, rfl⟩ := encodeBytes_cons_eq_some_iff.mp hx
    rw [List.cons_append, List.append_assoc]
    exact encodeBytes_cons_eq_some_iff.mpr ⟨c, rest ++ q, hc, ih hr, rfl⟩

/-- Every byte has a code exactly when the codes of all of them can be written. -/
theorem encodeBytes_isSome_iff {code : Byte → Option Code} :
    (encodeBytes code bs).isSome = true ↔ ∀ b ∈ bs, (code b).isSome = true := by
  induction bs with
  | nil => simp [encodeBytes]
  | cons b bs ih =>
    simp only [encodeBytes, List.mem_cons, forall_eq_or_imp, ← ih]
    cases code b <;> cases encodeBytes code bs <;> simp

theorem codeOf_withEw (e : Enc) (w : Writer) : (e.withEw w).codeOf = e.codeOf := rfl

/-- The loop ends well exactly when every byte is transferred, has a code, and all the codes' bits are written: then
only the writer changed, and the count grew by the bits (R174). -/
theorem compressLoop_eq_ok_iff : compressLoop askIn askSink i bs e n = .ok e' n' ↔
    ∃ bits w, encodeBytes e.codeOf bs = some bits ∧ (∀ k < bs.length, askIn (i + k) = .ok)
      ∧ writeAll .eSink askSink bits e.ew = .ok w ∧ e' = e.withEw w ∧ n' = n + bits.length := by
  induction bs generalizing i e n with
  | nil =>
    simp only [compressLoop, CompressRes.ok.injEq, encodeBytes, Option.some.injEq]
    constructor
    · rintro ⟨rfl, rfl⟩; exact ⟨[], e.ew, rfl, by simp, rfl, rfl, rfl⟩
    · rintro ⟨bits, w, rfl, -, h, rfl, rfl⟩; cases h; exact ⟨rfl, rfl⟩
  | cons b bs ih =>
    constructor
    · intro h
      cases ha : askIn i <;> simp only [compressLoop, transferAll, ha] at h
      · cases hc : e.codeOf b with
        | none => simp [hc] at h
        | some c =>
          simp only [hc] at h
          cases hw : writeAll .eSink askSink (codeBits c) e.ew with
          | ok w =>
            simp only [hw] at h
            obtain ⟨bits, w2, h1, h2, h3, rfl, rfl⟩ := ih.mp h
            refine ⟨codeBits c ++ bits, w2, encodeBytes_cons_eq_some_iff.mpr ⟨c, bits, hc, h1, rfl⟩, ?_, ?_, rfl, ?_⟩
            · intro k hk
              cases k with
              | zero => exact ha
              | succ k =>
                have := h2 k (by simpa using hk)
                rwa [show i + 1 + k = i + (k + 1) by omega] at this
            · rw [writeAll_append, hw]; exact h3
            · rw [List.length_append, length_codeBits]; omega
          | io w => simp [hw] at h
          | stuck j => simp [hw] at h
      · cases h
      · cases h
    · rintro ⟨bits, w, h1, h2, h3, rfl, rfl⟩
      obtain ⟨c, rest, hc, hr, rfl⟩ := encodeBytes_cons_eq_some_iff.mp h1
      have ha : askIn i = .ok := by simpa using h2 0 (by simp)
      rw [writeAll_append] at h3
      cases hw : writeAll .eSink askSink (codeBits c) e.ew with
      | ok w1 =>
        rw [hw] at h3
        simp only [compressLoop, transferAll, ha, hc, hw]
        refine ih.mpr ⟨rest, w, hr, fun k hk => ?_, h3, rfl, ?_⟩
        · have := h2 (k + 1) (by simpa using hk)
          rwa [show i + (k + 1) = i + 1 + k by omega] at this
        · rw [List.length_append, length_codeBits]; omega
      | io w => rw [hw] at h3; cases h3
      | stuck j => rw [hw] at h3; cases h3

/-- Whatever the loop ends in, only the writer and the fault flag change, and the sink only grows. -/
theorem compressLoop_frame (askIn askSink : Nat → IoAnswer) (i : Nat) (bs : List Byte) (e : Enc) (n : Nat) :
    match compressLoop askIn askSink i bs e n with
    | .ok e' _ => e' = e.withEw e'.ew ∧ e.ew.sink <+: e'.ew.sink
    | .unknownSymbol e' _ => e' = e.withEw e'.ew ∧ e.ew.sink <+: e'.ew.sink
    | .io e' => e' = (e.withEw e'.ew).withFault ∧ e.ew.sink <+: e'.ew.sink
    | .stuck S j => (S = .input ∧ askIn j = .never) ∨ (S = .eSink ∧ askSink j = .never) := by
  induction bs generalizing i e n with
  | nil => exact ⟨rfl, List.prefix_refl _⟩
  | cons b bs ih =>
    cases ha : askIn i <;> simp only [compressLoop, transferAll, ha]
    · cases hc : e.codeOf b with
      | none => exact ⟨rfl, List.prefix_refl _⟩
      | some c =>
        simp only
        have hs := writeAll_sink .eSink askSink (codeBits c) e.ew
        cases hw : writeAll .eSink askSink (codeBits c) e.ew with
        | ok w =>
          rw [hw] at hs
          have := ih (i + 1) (e.withEw w) (n + c.len.toNat)
          simp only
          cases hl : compressLoop askIn askSink (i + 1) bs (e.withEw w) (n + c.len.toNat) <;>
            rw [hl] at this <;> simp only at this ⊢
          · exact ⟨this.1, hs.trans this.2⟩
          · exact ⟨this.1, hs.trans this.2⟩
          · exact ⟨this.1, hs.trans this.2⟩
          · exact this
        | io w => rw [hw] at hs; exact ⟨rfl, hs⟩
        | stuck j => rw [hw] at hs; exact .inr ⟨rfl, hs.2⟩
    · exact ⟨rfl, List.prefix_refl _⟩
    · exact .inl ⟨trivial, trivial⟩

/-- A symbol without a code leaves the writer's invariant as the bytes before it made it. -/
theorem compressLoop_unknown_inv (h : compressLoop askIn askSink i bs e n = .unknownSymbol e' n') (base : Pos)
    (hi : e.ew.Inv base) : e'.ew.Inv base := by
  induction bs generalizing i e n with
  | nil => simp [compressLoop] at h
  | cons b bs ih =>
    cases ha : askIn i <;> simp only [compressLoop, transferAll, ha] at h
    · cases hc : e.codeOf b with
      | none => simp only [hc, CompressRes.unknownSymbol.injEq] at h; rw [← h.1]; exact hi
      | some c =>
        simp only [hc] at h
        cases hw : writeAll .eSink askSink (codeBits c) e.ew with
        | ok w => simp only [hw] at h; exact ih h (writeAll_ok_inv hw hi)
        | io w => simp [hw] at h
        | stuck j => simp [hw] at h
    · cases h
    · cases h

/-- Bytes whose codes were written leave the rest of the loop to run from there. -/
theorem compressLoop_append {x y : List Byte} {bits : List Bool} {w : Writer}
    (hx : encodeBytes e.codeOf x = some bits) (ha : ∀ k < x.length, askIn (i + k) = .ok)
    (hw : writeAll .eSink askSink bits e.ew = .ok w) :
    compressLoop askIn askSink i (x ++ y) e n =
      compressLoop askIn askSink (i + x.length) y (e.withEw w) (n + bits.length) := by
  induction x generalizing i e n bits with
  | nil => cases hx; cases hw; rfl
  | cons b x ih =>
    obtain ⟨c, rest, hc, hr, rfl⟩ := encodeBytes_cons_eq_some_iff.mp hx
    have ha0 : askIn i = .ok := by simpa using ha 0 (by simp)
    rw [writeAll_append] at hw
    cases hw1 : writeAll .eSink askSink (codeBits c) e.ew with
    | ok w1 =>
      rw [hw1] at hw
      simp only [List.cons_append, compressLoop, transferAll, ha0, hc, hw1]
      rw [ih (e := e.withEw w1) hr (fun k hk => by
        have := ha (k + 1) (by simpa using hk)
        rwa [show i + (k + 1) = i + 1 + k by omega] at this) hw]
      simp only [List.length_cons, List.length_append, length_codeBits]
      rw [show i + 1 + x.length = i + (x.length + 1) by omega,
        show n + c.len.toNat + rest.length = n + (c.len.toNat + rest.length) by omega]
      rfl
    | io w => rw [hw1] at hw; cases hw
    | stuck j => rw [hw1] at hw; cases hw

/-- When a push fails among the bits of the codes of the first bytes, the loop ends there, whatever follows. -/
theorem compressLoop_fails {x y : List Byte} {bits : List Bool} {w : Writer}
    (hx : encodeBytes e.codeOf x = some bits) (ha : ∀ k < x.length, askIn (i + k) = .ok)
    (hw : writeAll .eSink askSink bits e.ew = .io w) :
    compressLoop askIn askSink i (x ++ y) e n = .io (e.withEw w).withFault := by
  induction x generalizing i e n bits with
  | nil => cases hx; cases hw
  | cons b x ih =>
    obtain ⟨c, rest, hc, hr, rfl⟩ := encodeBytes_cons_eq_some_iff.mp hx
    have ha0 : askIn i = .ok := by simpa using ha 0 (by simp)
    rw [writeAll_append] at hw
    cases hw1 : writeAll .eSink askSink (codeBits c) e.ew with
    | ok w1 =>
      rw [hw1] at hw
      simp only [List.cons_append, compressLoop, transferAll, ha0, hc, hw1]
      exact ih (e := e.withEw w1) hr (fun k hk => by
        have := ha (k + 1) (by simpa using hk)
        rwa [show i + (k + 1) = i + 1 + k by omega] at this) hw
    | io w1 =>
      rw [hw1] at hw; cases hw
      simp only [List.cons_append, compressLoop, transferAll, ha0, hc, hw1]
    | stuck j => rw [hw1] at hw; cases hw

/-! ### Next states -/

theorem execEncAnalyze_eq_next_iff : execEncAnalyze s = .next t ↔
    (s.enc.iof = true ∧ t = s.withCode .io)
    ∨ (s.enc.iof = false ∧ s.enc.estate ≠ .initial ∧ t = s.withCode .invalidState)
    ∨ (s.enc.iof = false ∧ s.enc.estate = .initial ∧ s.enc.total.toNat + s.input.length < 2 ^ 61 ∧
        ((∃ e, analyzeLoop (s.answer .input) 0 s.input s.enc = .ok e
            ∧ t = ((s.withEnc e).withRes (resWord (8 * s.input.length))).withCode .ok)
          ∨ ∃ e, analyzeLoop (s.answer .input) 0 s.input s.enc = .io e ∧ t = (s.withEnc e).withCode .io)) := by
  rw [execEncAnalyze, encGuard_eq_next_iff]
  refine or_congr Iff.rfl (or_congr (by simp) (and_congr Iff.rfl (and_congr (by simp) ?_)))
  by_cases hl : Config.totalLimit ≤ s.enc.total.toNat + s.input.length
  · rw [if_pos hl]
    simp only [Config.totalLimit] at hl
    constructor
    · intro h; cases h
    · rintro ⟨h, -⟩; omega
  · rw [if_neg hl]
    simp only [Config.totalLimit, not_le] at hl
    rw [and_iff_right hl]
    cases analyzeLoop (s.answer .input) 0 s.input s.enc <;>
      simp [State.done, State.raise, eq_comm]

theorem execEncAnalyzeFinish_eq_next_iff : execEncAnalyzeFinish s = .next t ↔
    (s.enc.iof = true ∧ t = s.withCode .io)
    ∨ (s.enc.iof = false ∧ s.enc.estate ≠ .initial ∧ t = s.withCode .invalidState)
    ∨ (s.enc.iof = false ∧ s.enc.estate = .initial ∧
        ((codeTooLong s.enc.buildCode.dict = true
            ∧ t = (s.withEnc (s.enc.buildCode.withEState .failed)).withCode .codeTooLong)
          ∨ (codeTooLong s.enc.buildCode.dict = false ∧
            ((∃ w, writeAll .eSink (s.answer .eSink) (headerBits (dictEntries s.enc.buildCode.dict)) s.enc.ew
                  = .ok w
                ∧ t = ((s.withEnc (s.enc.buildCode.analyzed w)).withRes w.pos).withCode .ok)
              ∨ ∃ w, writeAll .eSink (s.answer .eSink) (headerBits (dictEntries s.enc.buildCode.dict)) s.enc.ew
                  = .io w
                ∧ t = (s.withEnc (s.enc.buildCode.withEw w).withFault).withCode .io)))) := by
  rw [execEncAnalyzeFinish, encGuard_eq_next_iff]
  refine or_congr Iff.rfl (or_congr (by simp) (and_congr Iff.rfl (and_congr (by simp) ?_)))
  have hew : s.enc.buildCode.ew = s.enc.ew := rfl
  simp only [hew]
  by_cases hl : codeTooLong s.enc.buildCode.dict = true
  · rw [if_pos hl]
    simp [State.raise, hl, eq_comm]
  · rw [if_neg hl]
    simp only [Bool.not_eq_true] at hl
    cases writeAll .eSink (s.answer .eSink) (headerBits (dictEntries s.enc.buildCode.dict)) s.enc.ew <;>
      simp [State.done, State.raise, hl, eq_comm]

theorem execEncCompress_eq_next_iff : execEncCompress s = .next t ↔
    (s.enc.iof = true ∧ t = s.withCode .io)
    ∨ (s.enc.iof = false ∧ s.enc.estate ≠ .analyzed ∧ t = s.withCode .invalidState)
    ∨ (s.enc.iof = false ∧ s.enc.estate = .analyzed ∧
        ((∃ e k, compressLoop (s.answer .input) (s.answer .eSink) 0 s.input s.enc 0 = .ok e k
            ∧ t = ((s.withEnc e).withRes (bitsWritten e.ew.bitCount k)).withCode .ok)
          ∨ (∃ e k, compressLoop (s.answer .input) (s.answer .eSink) 0 s.input s.enc 0 = .unknownSymbol e k
            ∧ t = ((s.withEnc e).withRes (bitsWritten e.ew.bitCount k)).withCode .unknownSymbol)
          ∨ ∃ e, compressLoop (s.answer .input) (s.answer .eSink) 0 s.input s.enc 0 = .io e
            ∧ t = (s.withEnc e).withCode .io)) := by
  rw [execEncCompress, encGuard_eq_next_iff]
  refine or_congr Iff.rfl (or_congr (by simp) (and_congr Iff.rfl (and_congr (by simp) ?_)))
  cases compressLoop (s.answer .input) (s.answer .eSink) 0 s.input s.enc 0 <;>
    simp [State.done, State.raise, eq_comm]

end Sys2Proof.Machine
end

