-- ==== Sys2Proof/Laws/Inverse.lean ====
section
/-! SUPPORT. The inverse dictionary (10_state R35, 44_decoder R203): what the entry check means, and that insertion,
lookup and the longest length say what the map says. -/

namespace Sys2Proof.Machine

variable {e : InvEntry} {t u : List InvEntry}

theorem codeInRange_iff {c : Code} : codeInRange c = true ↔ c.InRange := by
  simp only [codeInRange, Code.InRange, Bool.and_eq_true, decide_eq_true_eq, and_assoc]
  exact Iff.rfl

/-- The clash of R203 case 4 is one path being an initial segment of the other. -/
theorem codesClash_iff {a b : Code} (ha : a.InRange) (hb : b.InRange) :
    codesClash a b = true ↔ b.InitialOf a ∨ a.InitialOf b := by
  rw [initialOf_iff ha.2.2 hb.2.2, initialOf_iff hb.2.2 ha.2.2]
  simp [codesClash]

theorem InvEntry.Apart.symm {a b : InvEntry} (h : a.Apart b) : b.Apart a := ⟨h.1.symm, h.2.2, h.2.1⟩

/-- The entry check accepts exactly the codes in range that stand apart from the table (R203). -/
theorem checkEntry_iff (ht : ∀ x ∈ t, x.code.InRange) :
    checkEntry t e = true ↔ e.code.InRange ∧ ∀ x ∈ t, e.Apart x := by
  rw [checkEntry, Bool.and_eq_true, codeInRange_iff, List.all_eq_true]
  refine and_congr_right fun he => forall₂_congr fun x hx => ?_
  rw [Bool.and_eq_true, bne_iff_ne, Bool.not_eq_true', Bool.eq_false_iff, Ne, Ne, codesClash_iff he (ht x hx)]
  simp only [InvEntry.Apart, not_or]
  exact ⟨fun ⟨h1, h2, h3⟩ => ⟨fun h => h1 h.symm, h3, h2⟩, fun ⟨h1, h2, h3⟩ => ⟨fun h => h1 h.symm, h3, h2⟩⟩

theorem consistentDict_cons_iff :
    ConsistentDict (e :: t) ↔ (e.code.InRange ∧ ∀ x ∈ t, e.Apart x) ∧ ConsistentDict t := by
  simp only [ConsistentDict, List.mem_cons, forall_eq_or_imp, List.pairwise_cons]
  tauto

theorem ConsistentDict.perm (h : ConsistentDict t) (hp : t.Perm u) : ConsistentDict u :=
  ⟨fun x hx => h.1 x (hp.mem_iff.mpr hx), (hp.pairwise_iff fun h => h.symm).mp h.2⟩

theorem insertEntry_perm (e : InvEntry) (t : List InvEntry) : (insertEntry e t).Perm (e :: t) := by
  induction t with
  | nil => exact List.Perm.refl _
  | cons x xs ih =>
    simp only [insertEntry]
    split
    · exact List.Perm.refl _
    · exact (ih.cons x).trans (List.Perm.swap _ _ _)

/-- A checked entry keeps the table consistent (R203). -/
theorem insertEntry_consistent (ht : ConsistentDict t) (h : checkEntry t e = true) :
    ConsistentDict (insertEntry e t) :=
  (consistentDict_cons_iff.mpr ⟨(checkEntry_iff ht.1).mp h, ht⟩).perm (insertEntry_perm e t).symm

/-- The order of INV is kept, so that equal maps are equal lists (10_state R35; log 14). -/
theorem insertEntry_sorted (ht : t.Pairwise fun a b => codeLt a.code b.code = true)
    (hne : ∀ x ∈ t, x.code ≠ e.code) : (insertEntry e t).Pairwise fun a b => codeLt a.code b.code = true := by
  have trans : ∀ a b c : Code, codeLt a b = true → codeLt b c = true → codeLt a c = true := by
    intro a b c; simp only [codeLt, Bool.or_eq_true, decide_eq_true_eq, Bool.and_eq_true, beq_iff_eq]; omega
  have total : ∀ a b : Code, a ≠ b → codeLt a b = false → codeLt b a = true := by
    intro a b hn h
    have : ¬ (a.len.toNat = b.len.toNat ∧ a.bits.toNat = b.bits.toNat) := by
      rintro ⟨h1, h2⟩
      apply hn
      cases a; cases b
      simp only [Code.mk.injEq]
      exact ⟨BitVec.eq_of_toNat_eq h1, BitVec.eq_of_toNat_eq h2⟩
    simp only [codeLt, Bool.or_eq_false_iff, decide_eq_false_iff_not, Bool.and_eq_false_iff, beq_eq_false_iff_ne,
      Bool.or_eq_true, decide_eq_true_eq, Bool.and_eq_true, beq_iff_eq] at h ⊢
    omega
  induction t with
  | nil => simp [insertEntry]
  | cons x xs ih =>
    rw [List.pairwise_cons] at ht
    simp only [insertEntry]
    split
    · rename_i hlt
      refine List.pairwise_cons.mpr ⟨fun y hy => ?_, List.pairwise_cons.mpr ht⟩
      rcases List.mem_cons.mp hy with rfl | hy
      · exact hlt
      · exact trans _ _ _ hlt (ht.1 y hy)
    · rename_i hlt
      refine List.pairwise_cons.mpr ⟨fun y hy => ?_, ih ht.2 fun y hy => hne y (List.mem_cons_of_mem _ hy)⟩
      rcases List.mem_cons.mp ((insertEntry_perm e xs).mem_iff.mp hy) with rfl | hy
      · exact total _ _ (fun h => hne x (List.mem_cons_self ..) h.symm) (by simpa using hlt)
      · exact ht.1 y hy

/-! ### Lookup -/

/-- Two entries of a consistent dictionary whose paths extend one another are the same entry. -/
theorem ConsistentDict.unique (ht : ConsistentDict t) {a b : InvEntry} (ha : a ∈ t) (hb : b ∈ t)
    (h : codeBits a.code <+: codeBits b.code) : a = b := by
  by_contra hne
  have this : a.Apart b := by
    obtain ⟨i, hi, rfl⟩ := List.mem_iff_getElem.mp ha
    obtain ⟨j, hj, rfl⟩ := List.mem_iff_getElem.mp hb
    have hp := List.pairwise_iff_getElem.mp ht.2
    rcases Nat.lt_trichotomy i j with hij | rfl | hij
    · exact hp i j hi hj hij
    · exact absurd rfl hne
    · exact (hp j i hj hi hij).symm
  exact this.2.1 h

/-- A found symbol is an entry of that path, by number. -/
theorem lookupCode_eq_some {s : Byte} {l : List Bool} (ht : ConsistentDict t)
    (h : lookupCode t l.length (pathValue l) = some s) : ∃ x ∈ t, codeBits x.code = l ∧ x.sym = s := by
  simp only [lookupCode, Option.map_eq_some_iff] at h
  obtain ⟨x, hx, rfl⟩ := h
  have hm := List.mem_of_find?_eq_some hx
  have hp := List.find?_some hx
  simp only [Bool.and_eq_true, beq_iff_eq] at hp
  exact ⟨x, hm, (codeBits_eq_iff (ht.1 x hm).2.2 l).mpr hp, rfl⟩

/-- An entry is found by its path. -/
theorem lookupCode_of_mem {x : InvEntry} {l : List Bool} (ht : ConsistentDict t) (hx : x ∈ t)
    (hl : codeBits x.code = l) : lookupCode t l.length (pathValue l) = some x.sym := by
  have hp := (codeBits_eq_iff (ht.1 x hx).2.2 l).mp hl
  cases h : lookupCode t l.length (pathValue l) with
  | none =>
    simp only [lookupCode, Option.map_eq_none_iff, List.find?_eq_none] at h
    have := h x hx
    simp [hp.1, hp.2] at this
  | some s =>
    obtain ⟨y, hy, hyl, rfl⟩ := lookupCode_eq_some ht h
    rw [ht.unique hy hx (by rw [hyl, hl])]

theorem lookupCode_eq_none_iff {l : List Bool} (ht : ConsistentDict t) :
    lookupCode t l.length (pathValue l) = none ↔ ∀ x ∈ t, codeBits x.code ≠ l := by
  constructor
  · intro h x hx hl
    rw [lookupCode_of_mem ht hx hl] at h; cases h
  · intro h
    cases hs : lookupCode t l.length (pathValue l) with
    | none => rfl
    | some s =>
      obtain ⟨x, hx, hl, -⟩ := lookupCode_eq_some ht hs
      exact absurd hl (h x hx)

/-! ### The longest length -/

theorem le_maxLenOf {x : InvEntry} (hx : x ∈ t) : x.code.len.toNat ≤ maxLenOf t := by
  induction t with
  | nil => simp at hx
  | cons y ys ih =>
    simp only [maxLenOf, List.foldr_cons]
    rcases List.mem_cons.mp hx with rfl | hx
    · exact le_max_left _ _
    · exact (ih hx).trans (le_max_right _ _)

theorem maxLenOf_attained (ht : t ≠ []) : ∃ x ∈ t, x.code.len.toNat = maxLenOf t := by
  induction t with
  | nil => exact absurd rfl ht
  | cons y ys ih =>
    rcases max_choice y.code.len.toNat (maxLenOf ys) with h | h
    · exact ⟨y, by simp, h.symm⟩
    · cases ys with
      | nil => exact ⟨y, by simp, by simp [maxLenOf]⟩
      | cons z zs =>
        obtain ⟨x, hx, hl⟩ := ih (by simp)
        exact ⟨x, List.mem_cons_of_mem _ hx, hl.trans h.symm⟩

theorem maxLenOf_le (ht : ∀ x ∈ t, x.code.InRange) : maxLenOf t ≤ 16 := by
  cases t with
  | nil => simp [maxLenOf]
  | cons y ys =>
    obtain ⟨x, hx, hl⟩ := maxLenOf_attained (t := y :: ys) (by simp)
    rw [← hl]; exact (ht x hx).2.1

theorem maxLenOf_pos (ht : ∀ x ∈ t, x.code.InRange) (hne : t ≠ []) : 1 ≤ maxLenOf t := by
  obtain ⟨x, hx, hl⟩ := maxLenOf_attained hne
  rw [← hl]; exact (ht x hx).1

/-- The symbols of a consistent dictionary are different bytes, so it has at most 256 entries (R37). -/
theorem ConsistentDict.length_le (ht : ConsistentDict t) : t.length ≤ 256 := by
  have hn : (t.map (·.sym)).Nodup := by
    rw [List.Nodup, List.pairwise_map]
    exact ht.2.imp fun h => h.1
  have h2 : (t.map fun x => x.sym.toFin).Nodup := by
    have : (t.map fun x => x.sym.toFin) = (t.map (·.sym)).map BitVec.toFin := by simp
    rw [this]
    exact hn.map (fun a b h => by cases a; cases b; simpa using h)
  have := h2.length_le_card
  simpa using this

end Sys2Proof.Machine
end

