-- ==== Sys2Proof/Laws/Dictionary.lean ====
section
/-! SUPPORT. The lists read off FREQ and DICT (42_tree_dictionary R141, R148; 30_encoding R87): what stands in them,
in which order, and what a built dictionary says of a symbol. -/

namespace Sys2Proof.Machine

theorem length_allSymbols : allSymbols.length = 256 := by simp [allSymbols]

theorem getElem_allSymbols (k : Nat) (h : k < allSymbols.length) : allSymbols[k] = BitVec.ofNat 8 k := by
  simp [allSymbols]

theorem mem_allSymbols (s : Byte) : s ∈ allSymbols := by
  have := s.isLt
  refine List.mem_iff_getElem.mpr ⟨s.toNat, by rw [length_allSymbols]; omega, ?_⟩
  rw [getElem_allSymbols]; simp

theorem allSymbols_ascend : allSymbols.Pairwise fun a b => a.toNat < b.toNat := by
  rw [List.pairwise_iff_getElem]
  intro i j hi hj hij
  rw [length_allSymbols] at hi hj
  rw [getElem_allSymbols, getElem_allSymbols, BitVec.toNat_ofNat, BitVec.toNat_ofNat]
  omega

/-- A table by symbol, read off with the symbols. -/
theorem zip_allSymbols {α : Type} (v : Vector α 256) :
    allSymbols.zip v.toList = allSymbols.map fun s => (s, v[s.toNat]'s.isLt) := by
  apply List.ext_getElem
  · simp [length_allSymbols]
  · intro k h1 h2
    have hk : k < 256 := by simpa [length_allSymbols] using h1
    simp only [List.getElem_zip, List.getElem_map, Vector.getElem_toList, Prod.mk.injEq, true_and]
    congr 1
    rw [getElem_allSymbols, BitVec.toNat_ofNat]
    omega

/-! ### The symbols counted -/

theorem usedSymbols_eq (e : Enc) : usedSymbols e.freq =
    (allSymbols.filter fun s => 0 < (e.freqOf s).toNat).map fun s => (s, e.freqOf s) := by
  rw [usedSymbols, zip_allSymbols, List.filter_map]
  rfl

theorem mem_usedSymbols (e : Enc) (p : SymCount) :
    p ∈ usedSymbols e.freq ↔ p.2 = e.freqOf p.1 ∧ 0 < (e.freqOf p.1).toNat := by
  rw [usedSymbols_eq]
  simp only [List.mem_map, List.mem_filter, mem_allSymbols, true_and, decide_eq_true_eq]
  constructor
  · rintro ⟨s, hs, rfl⟩; exact ⟨rfl, hs⟩
  · rintro ⟨h1, h2⟩; exact ⟨p.1, h2, by rw [← h1]⟩

theorem usedSymbols_ascend (e : Enc) : (usedSymbols e.freq).Pairwise fun a b => a.1.toNat < b.1.toNat := by
  rw [usedSymbols_eq, List.pairwise_map]
  exact (allSymbols_ascend.sublist List.filter_sublist).imp fun h => h

/-! ### The entries of DICT -/

theorem dictEntries_eq (e : Enc) : dictEntries e.dict =
    allSymbols.filterMap fun s => (e.codeOf s).map fun c => { code := c, sym := s } := by
  rw [dictEntries, zip_allSymbols, List.filterMap_map]
  rfl

theorem mem_dictEntries (e : Enc) (x : InvEntry) : x ∈ dictEntries e.dict ↔ e.codeOf x.sym = some x.code := by
  rw [dictEntries_eq]
  simp only [List.mem_filterMap, mem_allSymbols, true_and, Option.map_eq_some_iff]
  constructor
  · rintro ⟨s, c, h, rfl⟩; exact h
  · intro h; exact ⟨x.sym, x.code, h, rfl⟩

theorem dictEntries_ascend (e : Enc) : (dictEntries e.dict).Pairwise fun a b => a.sym.toNat < b.sym.toNat := by
  rw [dictEntries_eq, List.pairwise_filterMap]
  refine allSymbols_ascend.imp fun {a b} h x hx y hy => ?_
  simp only [Option.map_eq_some_iff] at hx hy
  obtain ⟨c, -, rfl⟩ := hx
  obtain ⟨d, -, rfl⟩ := hy
  exact h

/-- The entries give each symbol the code DICT gives it. -/
theorem codeIn_dictEntries (e : Enc) (s : Byte) : codeIn (dictEntries e.dict) s = e.codeOf s := by
  rw [codeIn]
  cases hf : (dictEntries e.dict).find? fun x => x.sym == s with
  | none =>
    rw [List.find?_eq_none] at hf
    cases hc : e.codeOf s with
    | none => rfl
    | some c =>
      have := hf { code := c, sym := s } ((mem_dictEntries e _).mpr hc)
      simp at this
  | some x =>
    have h1 := (mem_dictEntries e x).mp (List.mem_of_find?_eq_some hf)
    have h2 := List.find?_some hf
    simp only [beq_iff_eq] at h2
    subst h2
    rw [h1]; rfl

/-! ### Building DICT (R148) -/

/-- What a built dictionary says of a symbol: the code of its path when it was counted, what stood there else. -/
theorem buildDict_get (used : List SymCount) (f : Forest) (d : Vector (Option Code) 256) (s : Byte) :
    (buildDict used f d)[s.toNat]'s.isLt =
      if s ∈ used.map (·.1) then some (codeOfPath (pathOf used.length f s)) else d[s.toNat]'s.isLt := by
  have key : ∀ (n : Nat) (l : List SymCount) (d : Vector (Option Code) 256),
      (l.foldl (fun d p => d.set p.1.toNat (some (codeOfPath (pathOf n f p.1))) p.1.isLt) d)[s.toNat]'s.isLt =
        if s ∈ l.map (·.1) then some (codeOfPath (pathOf n f s)) else d[s.toNat]'s.isLt := by
    intro n l
    induction l with
    | nil => intro d; simp
    | cons p l ih =>
      intro d
      rw [List.foldl_cons, ih]
      simp only [List.map_cons, List.mem_cons]
      by_cases h1 : s ∈ l.map (·.1)
      · simp only [h1, or_true, if_true]
      · by_cases h2 : s = p.1
        · subst h2; simp [h1]
        · have : p.1.toNat ≠ s.toNat := fun h => h2 (BitVec.eq_of_toNat_eq h.symm)
          simp only [h1, h2, or_self, if_false]
          rw [Vector.getElem_set_ne _ _ this]
  exact key used.length used d

/-- The code of a symbol after BuildTree and BuildDict. -/
theorem buildCode_codeOf (e : Enc) (s : Byte) :
    e.buildCode.codeOf s =
      if 0 < (e.freqOf s).toNat then
        some (codeOfPath (pathOf e.distinct (buildForest (sortLeaves (usedSymbols e.freq))) s))
      else e.codeOf s := by
  have h : s ∈ (usedSymbols e.freq).map (·.1) ↔ 0 < (e.freqOf s).toNat := by
    rw [List.mem_map]
    constructor
    · rintro ⟨p, hp, rfl⟩; exact ((mem_usedSymbols e p).mp hp).2
    · intro h; exact ⟨(s, e.freqOf s), (mem_usedSymbols e _).mpr ⟨rfl, h⟩, rfl⟩
  have := buildDict_get (usedSymbols e.freq) (buildForest (sortLeaves (usedSymbols e.freq))) e.dict s
  simp only [h] at this
  exact this

/-! ### The header (30_encoding R85) -/

theorem length_entryBits (e : InvEntry) : (entryBits e).length = 40 := by simp [entryBits, length_bitsMsb]

theorem length_headerBits (es : List InvEntry) : (headerBits es).length = 16 + 40 * es.length := by
  rw [headerBits, List.length_append, length_bitsMsb, List.length_flatMap]
  simp [length_entryBits]
  omega

/-- A header is a raw header whose symbol lengths are all 1. -/
theorem headerBits_eq_raw (es : List InvEntry) : headerBits es = rawHeaderBits (es.map fun e => (e, 1)) := by
  simp only [headerBits, rawHeaderBits, List.length_map, List.flatMap_map]
  rfl

end Sys2Proof.Machine
end

