-- ==== Sys2Proof/Laws/CodeTree.lean ====
section
/-! SUPPORT. BuildTree (42_tree_dictionary R141 to R144): the leaf order, what a pick takes, what every merge keeps, and
the forest at the end. -/

namespace Sys2Proof.Machine

/-! ### The leaf order (R141) -/

theorem leafLe_total (a b : SymCount) : leafLe a b = true ∨ leafLe b a = true := by
  simp only [leafLe, Bool.or_eq_true, decide_eq_true_eq, Bool.and_eq_true, beq_iff_eq]
  omega

theorem leafLe_trans {a b c : SymCount} (h1 : leafLe a b = true) (h2 : leafLe b c = true) : leafLe a c = true := by
  simp only [leafLe, Bool.or_eq_true, decide_eq_true_eq, Bool.and_eq_true, beq_iff_eq] at *
  omega

theorem insertLeaf_perm (a : SymCount) (l : List SymCount) : (insertLeaf a l).Perm (a :: l) := by
  induction l with
  | nil => exact List.Perm.refl _
  | cons b bs ih =>
    simp only [insertLeaf]
    split
    · exact List.Perm.refl _
    · exact (ih.cons b).trans (List.Perm.swap _ _ _)

theorem sortLeaves_perm (l : List SymCount) : (sortLeaves l).Perm l := by
  induction l with
  | nil => exact List.Perm.refl _
  | cons a l ih => exact (insertLeaf_perm a _).trans (ih.cons a)

theorem insertLeaf_sorted (a : SymCount) (l : List SymCount) (h : l.Pairwise fun x y => leafLe x y = true) :
    (insertLeaf a l).Pairwise fun x y => leafLe x y = true := by
  induction l with
  | nil => simp [insertLeaf]
  | cons b bs ih =>
    rw [List.pairwise_cons] at h
    simp only [insertLeaf]
    split
    · rename_i hab
      refine List.pairwise_cons.mpr ⟨fun y hy => ?_, List.pairwise_cons.mpr h⟩
      rcases List.mem_cons.mp hy with rfl | hy
      · exact hab
      · exact leafLe_trans hab (h.1 y hy)
    · rename_i hab
      refine List.pairwise_cons.mpr ⟨fun y hy => ?_, ih h.2⟩
      rcases List.mem_cons.mp ((insertLeaf_perm a bs).mem_iff.mp hy) with rfl | hy
      · exact (leafLe_total b y).resolve_right hab
      · exact h.1 y hy

theorem sortLeaves_sorted (l : List SymCount) : (sortLeaves l).Pairwise fun x y => leafLe x y = true := by
  induction l with
  | nil => exact List.Pairwise.nil
  | cons a l ih => exact insertLeaf_sorted a _ ih

/-! ### Sets of symbols -/

theorem mem_insertSym (s t : Byte) (l : List Byte) : t ∈ insertSym s l ↔ t = s ∨ t ∈ l := by
  induction l with
  | nil => simp [insertSym]
  | cons u us ih =>
    simp only [insertSym]
    split
    · simp
    · split
      · rename_i h; subst h; simp
      · simp [ih]; tauto

theorem mem_unionSyms (a b : List Byte) (t : Byte) : t ∈ unionSyms a b ↔ t ∈ a ∨ t ∈ b := by
  induction a with
  | nil => simp [unionSyms]
  | cons u us ih =>
    show t ∈ insertSym u (unionSyms us b) ↔ _
    rw [mem_insertSym, ih, List.mem_cons]; tauto

/-! ### Picking (R142) -/

/-- What a pick takes: the head of one of the queues. -/
theorem pick_cases {f f' : Forest} {a : Nat} (h : f.pick = some (a, f')) :
    (∃ l, f.lq = a :: l ∧ f' = { f with lq := l }
      ∧ ∀ b ∈ f.iq.head?, (weightAt f.arena a).toNat ≤ (weightAt f.arena b).toNat)
    ∨ (∃ q, f.iq = a :: q ∧ f' = { f with iq := q }
      ∧ ∀ b ∈ f.lq.head?, (weightAt f.arena a).toNat < (weightAt f.arena b).toNat) := by
  unfold Forest.pick at h
  split at h
  · cases h
  · rename_i x l h1 h2; cases h; exact .inl ⟨l, h1, rfl, by simp [h2]⟩
  · rename_i y q h1 h2; cases h; exact .inr ⟨q, h2, rfl, by simp [h1]⟩
  · rename_i x l y q h1 h2
    split at h
    · rename_i hle; cases h; exact .inl ⟨l, h1, rfl, by simpa [h2] using hle⟩
    · rename_i hle; cases h; exact .inr ⟨q, h2, rfl, by simp only [h1, List.head?_cons, Option.mem_def, Option.some.injEq]; rintro b rfl; omega⟩

theorem pick_isSome (f : Forest) (h : 1 ≤ f.lq.length + f.iq.length) : ∃ a f', f.pick = some (a, f') := by
  unfold Forest.pick
  split
  · rename_i h1 h2; simp [h1, h2] at h
  · exact ⟨_, _, rfl⟩
  · exact ⟨_, _, rfl⟩
  · split
    · exact ⟨_, _, rfl⟩
    · exact ⟨_, _, rfl⟩

theorem pick_perm {f f' : Forest} {a : Nat} (h : f.pick = some (a, f')) :
    f'.arena = f.arena ∧ (f.lq ++ f.iq).Perm (a :: (f'.lq ++ f'.iq)) := by
  obtain ⟨l, h1, rfl, -⟩ | ⟨q, h1, rfl, -⟩ := pick_cases h
  · exact ⟨rfl, by simp [h1]⟩
  · refine ⟨rfl, ?_⟩
    rw [h1]
    exact List.perm_middle

/-! ### What every merge keeps -/

/-- Node i of an arena joins two earlier nodes with no symbol in common. -/
def NodeJoins (arena : List Node) (i : Nat) : Prop :=
  ∃ nd l r nl nr, arena[i]? = some nd ∧ nd.kind = .internal l r ∧ l < i ∧ r < i ∧ l ≠ r
    ∧ arena[l]? = some nl ∧ arena[r]? = some nr ∧ nd.weight = nl.weight + nr.weight
    ∧ (∀ b, b ∈ nd.syms ↔ b ∈ nl.syms ∨ b ∈ nr.syms) ∧ ∀ b, ¬ (b ∈ nl.syms ∧ b ∈ nr.syms)

/-- A forest on the way from its leaves to a tree. The queues hold the two suffixes of the arena's leaves and internal
nodes that no merge took; their symbols split the leaves' symbols. -/
structure Forest.Grown (leaves : List SymCount) (f : Forest) : Prop where
  leaf   : f.arena.take leaves.length = leaves.map leafNode
  size   : f.lq.length + f.iq.length + f.arena.length = 2 * leaves.length
  lqLe   : f.lq.length ≤ leaves.length
  lqEq   : f.lq = List.range' (leaves.length - f.lq.length) f.lq.length
  iqLe   : leaves.length + f.iq.length ≤ f.arena.length
  iqEq   : f.iq = List.range' (f.arena.length - f.iq.length) f.iq.length
  iqLast : leaves.length < f.arena.length → f.iq ≠ []
  joins  : ∀ i, leaves.length ≤ i → i < f.arena.length → NodeJoins f.arena i
  apart  : (f.lq ++ f.iq).Pairwise fun i j => ∀ b, ¬ (b ∈ symsAt f.arena i ∧ b ∈ symsAt f.arena j)
  cover  : ∀ b, (∃ i ∈ f.lq ++ f.iq, b ∈ symsAt f.arena i) ↔ b ∈ leaves.map (·.1)

theorem start_grown (leaves : List SymCount) (hn : (leaves.map (·.1)).Nodup) :
    (Forest.start leaves).Grown leaves where
  leaf := by simp [Forest.start]
  size := by simp [Forest.start]; omega
  lqLe := by simp [Forest.start]
  lqEq := by simp [Forest.start, List.range_eq_range']
  iqLe := by simp [Forest.start]
  iqEq := by simp [Forest.start]
  iqLast := by simp [Forest.start]
  joins := by intro i h1 h2; simp [Forest.start] at h2; omega
  apart := by
    simp only [Forest.start, List.append_nil]
    rw [List.pairwise_iff_getElem]
    intro i j hi hj hij b
    simp only [List.length_range] at hi hj
    simp only [List.getElem_range, symsAt, List.getElem?_map, List.getElem?_eq_getElem hi,
      List.getElem?_eq_getElem hj, Option.map_some, leafNode, List.mem_singleton]
    rintro ⟨h1, h2⟩
    have := List.pairwise_iff_getElem.mp hn i j (by simpa using hi) (by simpa using hj) hij
    simp only [List.getElem_map] at this
    exact this (h1.symm.trans h2)
  cover := by
    intro b
    simp only [Forest.start, List.append_nil, List.mem_range, List.mem_map]
    constructor
    · rintro ⟨i, hi, hb⟩
      simp only [symsAt, List.getElem?_map, List.getElem?_eq_getElem hi, Option.map_some, leafNode,
        List.mem_singleton] at hb
      exact ⟨leaves[i], List.getElem_mem hi, hb.symm⟩
    · rintro ⟨p, hp, rfl⟩
      obtain ⟨i, hi, rfl⟩ := List.mem_iff_getElem.mp hp
      refine ⟨i, hi, ?_⟩
      simp [symsAt, leafNode, hi]

theorem getElem?_join_old (f : Forest) (a b i : Nat) (h : i < f.arena.length) :
    (f.join a b).arena[i]? = f.arena[i]? := by
  simp only [Forest.join]; rw [List.getElem?_append_left h]

theorem symsAt_join_old (f : Forest) (a b i : Nat) (h : i < f.arena.length) :
    symsAt (f.join a b).arena i = symsAt f.arena i := by
  simp only [symsAt, getElem?_join_old f a b i h]

theorem weightAt_join_old (f : Forest) (a b i : Nat) (h : i < f.arena.length) :
    weightAt (f.join a b).arena i = weightAt f.arena i := by
  simp only [weightAt, getElem?_join_old f a b i h]

/-- Both queues hold nodes of the arena. -/
theorem Forest.Grown.root_lt {leaves : List SymCount} {f : Forest} (h : f.Grown leaves) {i : Nat}
    (hi : i ∈ f.lq ++ f.iq) : i < f.arena.length := by
  have h1 := h.iqLe
  have h2 := h.lqLe
  rcases List.mem_append.mp hi with hi | hi
  · rw [h.lqEq, List.mem_range'_1] at hi; omega
  · rw [h.iqEq, List.mem_range'_1] at hi; omega

theorem Forest.Grown.leaf_get {leaves : List SymCount} {f : Forest} (h : f.Grown leaves) {i : Nat}
    (hi : i < leaves.length) : f.arena[i]? = some (leafNode leaves[i]) := by
  have h1 := h.leaf
  have := congrArg (·[i]?) h1
  simpa [List.getElem?_take, hi] using this

/-- One merge keeps all of it. -/
theorem merge_grown {leaves : List SymCount} {f f1 f2 : Forest} {a b : Nat} (h : f.Grown leaves)
    (h1 : f.pick = some (a, f1)) (h2 : f1.pick = some (b, f2)) : (f2.join a b).Grown leaves := by
  obtain ⟨e1, p1⟩ := pick_perm h1
  obtain ⟨e2, p2⟩ := pick_perm h2
  have e : f2.arena = f.arena := e2.trans e1
  have perm : (f.lq ++ f.iq).Perm (a :: b :: (f2.lq ++ f2.iq)) := p1.trans (p2.cons a)
  have ha : a < f.arena.length := h.root_lt (perm.mem_iff.mpr (by simp))
  have hb : b < f.arena.length := h.root_lt (perm.mem_iff.mpr (by simp))
  have hrest : ∀ i ∈ f2.lq ++ f2.iq, i < f.arena.length := fun i hi =>
    h.root_lt (perm.mem_iff.mpr (List.mem_cons_of_mem _ (List.mem_cons_of_mem _ hi)))
  have hlen := perm.length_eq
  simp only [List.length_append, List.length_cons] at hlen
  have symm : ∀ {i j : Nat}, (∀ t, ¬ (t ∈ symsAt f.arena i ∧ t ∈ symsAt f.arena j)) →
      ∀ t, ¬ (t ∈ symsAt f.arena j ∧ t ∈ symsAt f.arena i) := fun h t ht => h t ht.symm
  have ap := (perm.pairwise_iff symm).mp h.apart
  simp only [List.pairwise_cons, List.mem_cons] at ap
  obtain ⟨apa, apb, apr⟩ := ap
  have hne : a ≠ b := by
    have hnd : (f.lq ++ f.iq).Nodup := by
      rw [h.lqEq, h.iqEq, List.nodup_append]
      refine ⟨List.nodup_range', List.nodup_range', fun x hx y hy => ?_⟩
      rw [List.mem_range'_1] at hx hy
      have := h.lqLe; have := h.iqLe
      omega
    have := perm.nodup_iff.mp hnd
    rw [List.nodup_cons] at this
    exact fun hab => this.1 (by rw [hab]; simp)
  have hnode : (f2.join a b).arena[f.arena.length]? =
      some { weight := weightAt f.arena a + weightAt f.arena b,
             syms := unionSyms (symsAt f.arena a) (symsAt f.arena b), kind := .internal a b } := by
    simp only [Forest.join, e]; simp
  have hlenj : (f2.join a b).arena.length = f.arena.length + 1 := by simp [Forest.join, e]
  have symsOld : ∀ i, i < f.arena.length → symsAt (f2.join a b).arena i = symsAt f.arena i := by
    intro i hi; rw [symsAt_join_old _ _ _ _ (by rw [e]; exact hi), e]
  have symsNew : symsAt (f2.join a b).arena f.arena.length =
      unionSyms (symsAt f.arena a) (symsAt f.arena b) := by simp only [symsAt, hnode]
  have hlq : (f2.join a b).lq = f2.lq := rfl
  have hiq : (f2.join a b).iq = f2.iq ++ [f.arena.length] := by simp [Forest.join, e]
  -- the queues are suffixes of the old ones
  have suf : ∃ x y, f.lq = x ++ f2.lq ∧ f.iq = y ++ f2.iq := by
    obtain ⟨l, g1, rfl, -⟩ | ⟨q, g1, rfl, -⟩ := pick_cases h1
    · obtain ⟨l', g2, rfl, -⟩ | ⟨q', g2, rfl, -⟩ := pick_cases h2
      · exact ⟨[a, b], [], by rw [g1]; simp at g2; simp [g2], rfl⟩
      · exact ⟨[a], [b], g1, g2⟩
    · obtain ⟨l', g2, rfl, -⟩ | ⟨q', g2, rfl, -⟩ := pick_cases h2
      · exact ⟨[b], [a], g2, g1⟩
      · exact ⟨[], [a, b], rfl, by rw [g1]; simp at g2; simp [g2]⟩
  obtain ⟨x, y, hx, hy⟩ := suf
  have hxl := congrArg List.length hx
  have hyl := congrArg List.length hy
  simp only [List.length_append] at hxl hyl
  have s1 := h.size; have s2 := h.lqLe; have s3 := h.iqLe
  have hsplit : ∀ i, i ∈ (f2.join a b).lq ++ (f2.join a b).iq ↔ i ∈ f2.lq ++ f2.iq ∨ i = f.arena.length := by
    intro i; rw [hlq, hiq]; simp only [List.mem_append, List.mem_singleton]; tauto
  refine ⟨?_, ?_, ?_, ?_, ?_, ?_, by simp [hiq], ?_, ?_, ?_⟩
  · simp only [Forest.join, e]
    rw [List.take_append_of_le_length (by omega)]
    exact h.leaf
  · rw [hlq, hiq, hlenj]; simp only [List.length_append, List.length_singleton]; omega
  · rw [hlq]; omega
  · rw [hlq]
    have := h.lqEq
    rw [hx] at this
    have h3 := congrArg (List.drop x.length) this
    rw [List.drop_left, List.drop_range'] at h3
    simp only [List.length_append] at h3
    rw [show x.length + f2.lq.length - x.length = f2.lq.length by omega] at h3
    refine h3.trans ?_
    congr 1; omega
  · rw [hiq, hlenj]; simp only [List.length_append, List.length_singleton]; omega
  · rw [hiq, hlenj]
    have := h.iqEq
    rw [hy] at this
    have h3 := congrArg (List.drop y.length) this
    rw [List.drop_left, List.drop_range'] at h3
    simp only [List.length_append, List.length_singleton] at h3 ⊢
    rw [show y.length + f2.iq.length - y.length = f2.iq.length by omega] at h3
    rw [List.range'_concat]
    rw [h3, List.length_range']
    congr 2
    · omega
    · omega
  · intro i hi1 hi2
    rw [hlenj] at hi2
    by_cases hi : i < f.arena.length
    · obtain ⟨nd, l, r, nl, nr, g1, g2, g3, g4, g5, g6, g7, g8⟩ := h.joins i hi1 hi
      have old : ∀ j, j < f.arena.length → (f2.join a b).arena[j]? = f.arena[j]? := by
        intro j hj; rw [getElem?_join_old _ _ _ _ (by rw [e]; exact hj), e]
      exact ⟨nd, l, r, nl, nr, by rw [old i hi, g1], g2, g3, g4, g5, by rw [old l (by omega), g6],
        by rw [old r (by omega), g7], g8⟩
    · have : i = f.arena.length := by omega
      subst this
      have old : ∀ j, j < f.arena.length → (f2.join a b).arena[j]? = f.arena[j]? := by
        intro j hj; rw [getElem?_join_old _ _ _ _ (by rw [e]; exact hj), e]
      refine ⟨_, a, b, f.arena[a], f.arena[b], hnode, rfl, ha, hb, hne, by rw [old a ha]; simp [ha],
        by rw [old b hb]; simp [hb], ?_, fun t => ?_, fun t => ?_⟩
      · simp [weightAt, ha, hb]
      · rw [mem_unionSyms]; simp [symsAt, ha, hb]
      · have := apa b (by simp) t
        simpa [symsAt, ha, hb] using this
  · rw [hlq, hiq, ← List.append_assoc, List.pairwise_append]
    refine ⟨?_, by simp, ?_⟩
    · exact apr.imp_of_mem fun {i j} hi hj hij => by
        rw [symsOld i (hrest i hi), symsOld j (hrest j hj)]; exact hij
    · intro i hi j hj t
      rw [List.mem_singleton] at hj
      subst hj
      rw [symsOld i (hrest i hi), symsNew, mem_unionSyms]
      rintro ⟨g1, g2 | g2⟩
      · exact apa i (by simp [hi]) t ⟨g2, g1⟩
      · exact apb i hi t ⟨g2, g1⟩
  · intro t
    rw [← h.cover t]
    constructor
    · rintro ⟨i, hi, ht⟩
      rw [hsplit] at hi
      rcases hi with hi | rfl
      · rw [symsOld i (hrest i hi)] at ht
        exact ⟨i, perm.mem_iff.mpr (by simp only [List.mem_cons]; tauto), ht⟩
      · rw [symsNew, mem_unionSyms] at ht
        rcases ht with ht | ht
        · exact ⟨a, perm.mem_iff.mpr (by simp), ht⟩
        · exact ⟨b, perm.mem_iff.mpr (by simp), ht⟩
    · rintro ⟨i, hi, ht⟩
      have := perm.mem_iff.mp hi
      simp only [List.mem_cons] at this
      rcases this with rfl | rfl | hi2
      · exact ⟨f.arena.length, (hsplit _).mpr (.inr rfl), by rw [symsNew, mem_unionSyms]; exact .inl ht⟩
      · exact ⟨f.arena.length, (hsplit _).mpr (.inr rfl), by rw [symsNew, mem_unionSyms]; exact .inr ht⟩
      · exact ⟨i, (hsplit _).mpr (.inl hi2), by rw [symsOld i (hrest i hi2)]; exact ht⟩

/-- A property every merge keeps holds at the end of the loop, and at most one node is left. -/
theorem mergeLoop_induction {P : Forest → Prop}
    (step : ∀ f f1 f2 a b, P f → f.pick = some (a, f1) → f1.pick = some (b, f2) → P (f2.join a b)) :
    ∀ (k : Nat) (f : Forest), P f → f.lq.length + f.iq.length ≤ k + 1 →
      P (mergeLoop k f) ∧ (mergeLoop k f).lq.length + (mergeLoop k f).iq.length ≤ 1 := by
  intro k
  induction k with
  | zero => intro f hf hl; exact ⟨hf, by simpa [mergeLoop] using hl⟩
  | succ k ih =>
    intro f hf hl
    simp only [mergeLoop]
    split
    · exact ⟨hf, by omega⟩
    · rename_i h2
      obtain ⟨a, f1, h1⟩ := pick_isSome f (by omega)
      have l1 := (pick_perm h1).2.length_eq
      simp only [List.length_append, List.length_cons] at l1
      obtain ⟨b, f2, hp2⟩ := pick_isSome f1 (by omega)
      have l2 := (pick_perm hp2).2.length_eq
      simp only [List.length_append, List.length_cons] at l2
      simp only [h1, hp2]
      refine ih _ (step f f1 f2 a b hf h1 hp2) ?_
      simp only [Forest.join, List.length_append, List.length_singleton]
      omega

/-- The forest at the end of BuildTree is grown from its leaves, and one node is left: the last of the arena (R144). -/
theorem buildForest_grown {leaves : List SymCount} (hn : (leaves.map (·.1)).Nodup) (hne : leaves ≠ []) :
    (buildForest leaves).Grown leaves
      ∧ (buildForest leaves).arena.length = 2 * leaves.length - 1
      ∧ (buildForest leaves).lq ++ (buildForest leaves).iq = [(buildForest leaves).arena.length - 1] := by
  obtain ⟨g, h1⟩ := mergeLoop_induction (P := Forest.Grown leaves) (fun _ _ _ _ _ => merge_grown) leaves.length
    (Forest.start leaves) (start_grown leaves hn) (by simp [Forest.start])
  change (buildForest leaves).Grown leaves at g
  change (buildForest leaves).lq.length + (buildForest leaves).iq.length ≤ 1 at h1
  have hpos : 1 ≤ leaves.length := by cases leaves <;> simp_all
  have s1 := g.size; have s2 := g.iqLe; have s3 := g.lqLe; have s4 := g.lqEq; have s5 := g.iqEq
  obtain ⟨p, hp⟩ := List.exists_mem_of_ne_nil leaves hne
  obtain ⟨i, hi, -⟩ := (g.cover p.1).mpr (List.mem_map_of_mem hp)
  have hroots := List.length_pos_of_mem hi
  rw [List.length_append] at hroots
  have hone : (buildForest leaves).lq.length + (buildForest leaves).iq.length = 1 := by omega
  refine ⟨g, by omega, ?_⟩
  by_cases hq : (buildForest leaves).iq.length = 1
  · have hl : (buildForest leaves).lq = [] := List.eq_nil_of_length_eq_zero (by omega)
    rw [hl, s5, hq]; simp
  · have hq0 : (buildForest leaves).iq = [] := List.eq_nil_of_length_eq_zero (by omega)
    have hlen : (buildForest leaves).arena.length = leaves.length := by
      by_contra h
      exact g.iqLast (by omega) hq0
    rw [hq0, List.append_nil, s4, show (buildForest leaves).lq.length = 1 by omega, hlen]
    simp

end Sys2Proof.Machine
end

