-- ==== Sys2Proof/Laws/Paths.lean ====
section
/-! SUPPORT. The weights of a growing forest (42_tree_dictionary R142, R143, R147) and the walks of R148: each ends at
its symbol's leaf, and no walk is an initial segment of another. -/

namespace Sys2Proof.Machine

/-! ### Weights -/

/-- The weight of node i as a number. -/
def weightNat (arena : List Node) (i : Nat) : Nat := (weightAt arena i).toNat

/-- The sum of the weights of the nodes in the queues. -/
def Forest.rootSum (f : Forest) : Nat := ((f.lq ++ f.iq).map (weightNat f.arena)).sum

/-- The weights on the way: their sum stays, the internal nodes ascend, and nothing left in the queues is below half of
the last internal node. -/
structure Forest.Weighed (leaves : List SymCount) (f : Forest) : Prop where
  sum    : f.rootSum = (leaves.map fun p => p.2.toNat).sum
  ascend : ∀ i j, leaves.length ≤ i → i ≤ j → j < f.arena.length → weightNat f.arena i ≤ weightNat f.arena j
  half   : ∃ m, (∀ i ∈ f.lq ++ f.iq, m ≤ weightNat f.arena i)
             ∧ ∀ i, leaves.length ≤ i → i < f.arena.length → weightNat f.arena i ≤ 2 * m
  joint  : ∀ (i : Nat) (nd : Node) (l r : Nat), f.arena[i]? = some nd → nd.kind = .internal l r →
             nd.weight.toNat = weightNat f.arena l + weightNat f.arena r

theorem weightNat_leaf {leaves : List SymCount} {f : Forest} (h : f.Grown leaves) {i : Nat} (hi : i < leaves.length) :
    weightNat f.arena i = leaves[i].2.toNat := by
  simp [weightNat, weightAt, h.leaf_get hi, leafNode]

theorem start_weighed (leaves : List SymCount) : (Forest.start leaves).Weighed leaves where
  sum := by
    simp only [Forest.rootSum, Forest.start, List.append_nil]
    congr 1
    apply List.ext_getElem
    · simp
    · intro i h1 h2
      simp only [List.length_map, List.length_range] at h1
      simp [weightNat, weightAt, leafNode, h1]
  ascend := by intro i j h1 h2 h3; simp [Forest.start] at h3; omega
  half := ⟨0, by simp, by intro i h1 h2; simp [Forest.start] at h2; omega⟩
  joint := by
    intro i nd l r h1 h2
    simp only [Forest.start, List.getElem?_map, Option.map_eq_some_iff] at h1
    obtain ⟨p, -, rfl⟩ := h1
    simp [leafNode] at h2

/-- A pick takes a node of least weight. -/
theorem pick_least {f f1 : Forest} {a : Nat}
    (hs : f.lq.Pairwise fun i j => weightNat f.arena i ≤ weightNat f.arena j)
    (hq : f.iq.Pairwise fun i j => weightNat f.arena i ≤ weightNat f.arena j)
    (h1 : f.pick = some (a, f1)) : ∀ i ∈ f.lq ++ f.iq, weightNat f.arena a ≤ weightNat f.arena i := by
  intro i hi
  rcases pick_cases h1 with ⟨l, g, -, hle⟩ | ⟨q, g, -, hle⟩
  · rw [g, List.pairwise_cons] at hs
    rcases List.mem_append.mp hi with hi | hi
    · rw [g] at hi
      rcases List.mem_cons.mp hi with rfl | hi
      · exact le_refl _
      · exact hs.1 i hi
    · cases hiq : f.iq with
      | nil => rw [hiq] at hi; simp at hi
      | cons b q =>
        rw [hiq] at hi hq
        have hb := hle b (by rw [hiq]; rfl)
        rw [List.pairwise_cons] at hq
        rcases List.mem_cons.mp hi with rfl | hi
        · exact hb
        · exact le_trans hb (hq.1 i hi)
  · rw [g, List.pairwise_cons] at hq
    rcases List.mem_append.mp hi with hi | hi
    · cases hlq : f.lq with
      | nil => rw [hlq] at hi; simp at hi
      | cons b l =>
        rw [hlq] at hi hs
        have hb := hle b (by rw [hlq]; rfl)
        rw [List.pairwise_cons] at hs
        rcases List.mem_cons.mp hi with rfl | hi
        · exact le_of_lt hb
        · exact le_trans (le_of_lt hb) (hs.1 i hi)
    · rw [g] at hi
      rcases List.mem_cons.mp hi with rfl | hi
      · exact le_refl _
      · exact hq.1 i hi

/-- Both queues ascend by weight. -/
theorem queues_ascend {leaves : List SymCount} {f : Forest} (h : f.Grown leaves) (hw : f.Weighed leaves)
    (hl : leaves.Pairwise fun x y => leafLe x y = true) :
    (f.lq.Pairwise fun i j => weightNat f.arena i ≤ weightNat f.arena j)
      ∧ f.iq.Pairwise fun i j => weightNat f.arena i ≤ weightNat f.arena j := by
  have s2 := h.lqLe
  have s3 := h.iqLe
  constructor
  · rw [h.lqEq]
    refine (List.pairwise_lt_range').imp_of_mem fun {i j} hi hj hij => ?_
    rw [List.mem_range'_1] at hi hj
    have hil : i < leaves.length := by omega
    have hjl : j < leaves.length := by omega
    rw [weightNat_leaf h hil, weightNat_leaf h hjl]
    have := List.pairwise_iff_getElem.mp hl i j hil hjl hij
    simp only [leafLe, Bool.or_eq_true, decide_eq_true_eq, Bool.and_eq_true, beq_iff_eq] at this
    omega
  · rw [h.iqEq]
    refine (List.pairwise_lt_range').imp_of_mem fun {i j} hi hj hij => ?_
    rw [List.mem_range'_1] at hi hj
    exact hw.ascend i j (by omega) (by omega) (by omega)

/-- One merge keeps the weights, where their sum does not overflow. -/
theorem merge_weighed {leaves : List SymCount} {f f1 f2 : Forest} {a b : Nat} (h : f.Grown leaves)
    (hw : f.Weighed leaves) (hl : leaves.Pairwise fun x y => leafLe x y = true)
    (hsum : (leaves.map fun p => p.2.toNat).sum < 2 ^ 64)
    (h1 : f.pick = some (a, f1)) (h2 : f1.pick = some (b, f2)) : (f2.join a b).Weighed leaves := by
  obtain ⟨e1, p1⟩ := pick_perm h1
  obtain ⟨e2, p2⟩ := pick_perm h2
  have e : f2.arena = f.arena := e2.trans e1
  have perm : (f.lq ++ f.iq).Perm (a :: b :: (f2.lq ++ f2.iq)) := p1.trans (p2.cons a)
  have ha : a < f.arena.length := h.root_lt (perm.mem_iff.mpr (by simp))
  have hb : b < f.arena.length := h.root_lt (perm.mem_iff.mpr (by simp))
  have hrest : ∀ i ∈ f2.lq ++ f2.iq, i < f.arena.length := fun i hi =>
    h.root_lt (perm.mem_iff.mpr (List.mem_cons_of_mem _ (List.mem_cons_of_mem _ hi)))
  obtain ⟨hql, hqi⟩ := queues_ascend h hw hl
  have la := pick_least hql hqi h1
  have lb : ∀ i ∈ f1.lq ++ f1.iq, weightNat f.arena b ≤ weightNat f.arena i := by
    have hq1 : (f1.lq.Pairwise fun i j => weightNat f1.arena i ≤ weightNat f1.arena j)
        ∧ f1.iq.Pairwise fun i j => weightNat f1.arena i ≤ weightNat f1.arena j := by
      rw [e1]
      rcases pick_cases h1 with ⟨l, g, rfl, -⟩ | ⟨q, g, rfl, -⟩
      · rw [g] at hql; exact ⟨(List.pairwise_cons.mp hql).2, hqi⟩
      · rw [g] at hqi; exact ⟨hql, (List.pairwise_cons.mp hqi).2⟩
    have := pick_least hq1.1 hq1.2 h2
    rwa [e1] at this
  have hab : weightNat f.arena a ≤ weightNat f.arena b := la b (perm.mem_iff.mpr (by simp))
  have hbrest : ∀ i ∈ f2.lq ++ f2.iq, weightNat f.arena b ≤ weightNat f.arena i := fun i hi =>
    lb i (p2.mem_iff.mpr (List.mem_cons_of_mem _ hi))
  have hrs : weightNat f.arena a + (weightNat f.arena b + ((f2.lq ++ f2.iq).map (weightNat f.arena)).sum) =
      (leaves.map fun p => p.2.toNat).sum := by
    rw [← hw.sum, Forest.rootSum, (perm.map _).sum_eq]
    simp only [List.map_cons, List.sum_cons]
  have hlenj : (f2.join a b).arena.length = f.arena.length + 1 := by simp [Forest.join, e]
  have old : ∀ i, i < f.arena.length → weightNat (f2.join a b).arena i = weightNat f.arena i := by
    intro i hi
    simp only [weightNat]; rw [weightAt_join_old _ _ _ _ (by rw [e]; exact hi), e]
  have new : weightNat (f2.join a b).arena f.arena.length = weightNat f.arena a + weightNat f.arena b := by
    simp only [weightNat, Forest.join, e, weightAt]
    rw [List.getElem?_append_right (le_refl _)]
    simp only [Nat.sub_self, List.getElem?_cons_zero]
    rw [BitVec.toNat_add]
    refine Nat.mod_eq_of_lt ?_
    simp only [weightNat, weightAt] at hrs
    omega
  have hiq : (f2.join a b).lq ++ (f2.join a b).iq = (f2.lq ++ f2.iq) ++ [f.arena.length] := by
    simp [Forest.join, e]
  obtain ⟨m, hm1, hm2⟩ := hw.half
  have ma : m ≤ weightNat f.arena a := hm1 a (perm.mem_iff.mpr (by simp))
  have hinew : ∀ i, leaves.length ≤ i → i < f.arena.length →
      weightNat f.arena i ≤ weightNat f.arena a + weightNat f.arena b := by
    intro i h3 h4
    have := hm2 i h3 h4
    omega
  refine ⟨?_, ?_, ⟨weightNat f.arena b, ?_, ?_⟩, ?_⟩
  · rw [← hrs, Forest.rootSum, hiq, List.map_append, List.sum_append, List.map_singleton, List.sum_singleton, new]
    have : (f2.lq ++ f2.iq).map (weightNat (f2.join a b).arena) = (f2.lq ++ f2.iq).map (weightNat f.arena) := by
      rw [List.map_inj_left]; intro i hi; exact old i (hrest i hi)
    rw [this]; omega
  · intro i j h3 h4 h5
    rw [hlenj] at h5
    by_cases hj : j < f.arena.length
    · rw [old i (by omega), old j hj]; exact hw.ascend i j h3 h4 hj
    · have : j = f.arena.length := by omega
      subst this
      by_cases hi : i < f.arena.length
      · rw [old i hi, new]; exact hinew i h3 hi
      · have : i = f.arena.length := by omega
        rw [this]
  · intro i hi
    rw [hiq] at hi
    rcases List.mem_append.mp hi with hi | hi
    · rw [old i (hrest i hi)]; exact hbrest i hi
    · rw [List.mem_singleton.mp hi, new]; omega
  · intro i h3 h4
    rw [hlenj] at h4
    by_cases hi : i < f.arena.length
    · rw [old i hi]
      have := hm2 i h3 hi
      omega
    · have : i = f.arena.length := by omega
      rw [this, new]; omega
  · intro i nd l r g1 g2
    by_cases hi : i < f.arena.length
    · rw [getElem?_join_old _ _ _ _ (by rw [e]; exact hi), e] at g1
      have hge : leaves.length ≤ i := by
        by_contra hlt
        rw [h.leaf_get (by omega)] at g1
        cases g1; simp [leafNode] at g2
      obtain ⟨nd', l', r', nl, nr, k1, k2, k3, k4, -⟩ := h.joins i hge hi
      rw [g1] at k1; cases k1
      rw [g2] at k2; cases k2
      rw [hw.joint i nd l r g1 g2, old l (by omega), old r (by omega)]
    · have hlt : i < (f2.join a b).arena.length := by
        by_contra hge
        rw [List.getElem?_eq_none (by omega)] at g1; cases g1
      have : i = f.arena.length := by omega
      subst this
      have hn : weightNat (f2.join a b).arena f.arena.length = nd.weight.toNat := by
        simp [weightNat, weightAt, g1]
      simp only [Forest.join, e] at g1
      rw [List.getElem?_append_right (le_refl _)] at g1
      simp only [Nat.sub_self, List.getElem?_cons_zero, Option.some.injEq] at g1
      subst g1
      simp only [NodeKind.internal.injEq] at g2
      obtain ⟨rfl, rfl⟩ := g2
      rw [← hn, new, old a ha, old b hb]

/-- The weights at the end of BuildTree. -/
theorem buildForest_weighed {leaves : List SymCount} (hn : (leaves.map (·.1)).Nodup)
    (hl : leaves.Pairwise fun x y => leafLe x y = true) (hsum : (leaves.map fun p => p.2.toNat).sum < 2 ^ 64) :
    (buildForest leaves).Weighed leaves :=
  (mergeLoop_induction (P := fun f => f.Grown leaves ∧ f.Weighed leaves)
    (fun _ _ _ _ _ h h1 h2 => ⟨merge_grown h.1 h1 h2, merge_weighed h.1 h.2 hl hsum h1 h2⟩) leaves.length
    (Forest.start leaves) ⟨start_grown leaves hn, start_weighed leaves⟩ (by simp [Forest.start])).1.2

/-! ### Walks (R148) -/

/-- A walk that starts at a node of the symbol's ends at the symbol's leaf. -/
theorem walk_follow {leaves : List SymCount} {f : Forest} (h : f.Grown leaves) (s : Byte) :
    ∀ (k i : Nat), i < k → i < f.arena.length → s ∈ symsAt f.arena i →
      ∃ j nd, follow f.arena i (walk f.arena s k i) = some j ∧ f.arena[j]? = some nd ∧ nd.kind = .leaf s := by
  intro k
  induction k with
  | zero => intro i hi; omega
  | succ k ih =>
    intro i hi hlen hs
    by_cases hl : i < leaves.length
    · have hg := h.leaf_get hl
      have : s = leaves[i].1 := by simpa [symsAt, hg, leafNode] using hs
      refine ⟨i, _, ?_, hg, by rw [this]; rfl⟩
      simp [walk, hg, leafNode, follow]
    · obtain ⟨nd, l, r, nl, nr, g1, g2, g3, g4, g5, g6, g7, g8, g9, g10⟩ := h.joins i (by omega) hlen
      obtain ⟨w, sy, kd⟩ := nd
      simp only at g2; subst g2
      have hs' : s ∈ nl.syms ∨ s ∈ nr.syms := by simpa [symsAt, g1] using (g9 s).mp (by simpa [symsAt, g1] using hs)
      have hsl : symsAt f.arena l = nl.syms := by simp [symsAt, g6]
      have hsr : symsAt f.arena r = nr.syms := by simp [symsAt, g7]
      by_cases hin : s ∈ symsAt f.arena l
      · obtain ⟨j, nd, k1, k2, k3⟩ := ih l (by omega) (by omega) hin
        exact ⟨j, nd, by simp [walk, g1, hin, follow, k1], k2, k3⟩
      · have hr : s ∈ symsAt f.arena r := by
          rw [hsr]; rw [hsl] at hin; exact hs'.resolve_left hin
        obtain ⟨j, nd, k1, k2, k3⟩ := ih r (by omega) (by omega) hr
        exact ⟨j, nd, by simp [walk, g1, hin, follow, k1], k2, k3⟩

/-- The walks to two symbols part before either ends. -/
theorem walk_apart {leaves : List SymCount} {f : Forest} (h : f.Grown leaves) {s t : Byte} (hst : s ≠ t) :
    ∀ (k i : Nat), i < k → i < f.arena.length → s ∈ symsAt f.arena i → t ∈ symsAt f.arena i →
      ¬ walk f.arena s k i <+: walk f.arena t k i := by
  intro k
  induction k with
  | zero => intro i hi; omega
  | succ k ih =>
    intro i hi hlen hs ht
    by_cases hl : i < leaves.length
    · have hg := h.leaf_get hl
      have h1 : s = leaves[i].1 := by simpa [symsAt, hg, leafNode] using hs
      have h2 : t = leaves[i].1 := by simpa [symsAt, hg, leafNode] using ht
      exact absurd (h1.trans h2.symm) hst
    · obtain ⟨nd, l, r, nl, nr, g1, g2, g3, g4, g5, g6, g7, g8, g9, g10⟩ := h.joins i (by omega) hlen
      obtain ⟨w, sy, kd⟩ := nd
      simp only at g2; subst g2
      have mem : ∀ u, u ∈ symsAt f.arena i → u ∈ symsAt f.arena l ∨ u ∈ symsAt f.arena r := by
        intro u hu
        simpa [symsAt, g6, g7] using (g9 u).mp (by simpa [symsAt, g1] using hu)
      by_cases h1 : s ∈ symsAt f.arena l <;> by_cases h2 : t ∈ symsAt f.arena l
      · simpa [walk, g1, h1, h2] using ih l (by omega) (by omega) h1 h2
      · simp [walk, g1, h1, h2]
      · simp [walk, g1, h1, h2]
      · simpa [walk, g1, h1, h2] using
          ih r (by omega) (by omega) ((mem s hs).resolve_left h1) ((mem t ht).resolve_left h2)

/-- A walk from an internal node has a step. -/
theorem walk_ne_nil {leaves : List SymCount} {f : Forest} (h : f.Grown leaves) (s : Byte) {k i : Nat} (hk : 1 ≤ k)
    (h1 : leaves.length ≤ i) (h2 : i < f.arena.length) : walk f.arena s k i ≠ [] := by
  obtain ⟨k, rfl⟩ : ∃ j, k = j + 1 := ⟨k - 1, by omega⟩
  obtain ⟨nd, l, r, nl, nr, g1, g2, -⟩ := h.joins i h1 h2
  obtain ⟨w, sy, kd⟩ := nd
  simp only at g2; subst g2
  simp only [walk, g1]
  split <;> simp

/-- Every node has a symbol. -/
theorem symsAt_nonempty {leaves : List SymCount} {f : Forest} (h : f.Grown leaves) :
    ∀ (i : Nat), i < f.arena.length → ∃ s, s ∈ symsAt f.arena i := by
  intro i
  induction i using Nat.strong_induction_on with
  | _ i ih =>
    intro hlen
    by_cases hl : i < leaves.length
    · exact ⟨leaves[i].1, by simp [symsAt, h.leaf_get hl, leafNode]⟩
    · obtain ⟨nd, l, r, nl, nr, g1, g2, g3, g4, g5, g6, g7, g8, g9, g10⟩ := h.joins i (by omega) hlen
      obtain ⟨s, hs⟩ := ih l g3 (by omega)
      exact ⟨s, by simpa [symsAt, g1] using (g9 s).mpr (.inl (by simpa [symsAt, g6] using hs))⟩

/-- A walk has fewer steps than its node has symbols; from the root, at most 255. -/
theorem walk_length_lt {leaves : List SymCount} {f : Forest} (h : f.Grown leaves) (s : Byte) :
    ∀ (k i : Nat), i < f.arena.length → s ∈ symsAt f.arena i →
      (walk f.arena s k i).length < (symsAt f.arena i).toFinset.card := by
  intro k
  induction k with
  | zero =>
    intro i _ hs
    have hpos := Finset.card_pos.mpr ⟨s, List.mem_toFinset.mpr hs⟩
    simpa [walk] using hpos
  | succ k ih =>
    intro i hlen hs
    by_cases hl : i < leaves.length
    · have hpos := Finset.card_pos.mpr ⟨s, List.mem_toFinset.mpr hs⟩
      simpa [walk, h.leaf_get hl, leafNode] using hpos
    · obtain ⟨nd, l, r, nl, nr, g1, g2, g3, g4, g5, g6, g7, g8, g9, g10⟩ := h.joins i (by omega) hlen
      obtain ⟨w, sy, kd⟩ := nd
      simp only at g2; subst g2
      have hsl : symsAt f.arena l = nl.syms := by simp [symsAt, g6]
      have hsr : symsAt f.arena r = nr.syms := by simp [symsAt, g7]
      have hcard : (symsAt f.arena i).toFinset.card =
          (symsAt f.arena l).toFinset.card + (symsAt f.arena r).toFinset.card := by
        rw [← Finset.card_union_of_disjoint]
        · congr 1
          ext t
          simp only [List.mem_toFinset, Finset.mem_union, hsl, hsr]
          simpa [symsAt, g1] using g9 t
        · rw [Finset.disjoint_left]
          intro t h1 h2
          rw [List.mem_toFinset, hsl] at h1
          rw [List.mem_toFinset, hsr] at h2
          exact g10 t ⟨h1, h2⟩
      obtain ⟨u, hu⟩ := symsAt_nonempty h l (by omega)
      obtain ⟨v, hv⟩ := symsAt_nonempty h r (by omega)
      have cl := Finset.card_pos.mpr ⟨u, List.mem_toFinset.mpr hu⟩
      have cr := Finset.card_pos.mpr ⟨v, List.mem_toFinset.mpr hv⟩
      by_cases hin : s ∈ symsAt f.arena l
      · have := ih l (by omega) hin
        simp only [walk, g1, hin, if_true, List.length_cons]
        omega
      · have hr : s ∈ symsAt f.arena r := by
          rw [hsr]; rw [hsl] at hin
          exact ((by simpa [symsAt, g1] using (g9 s).mp (by simpa [symsAt, g1] using hs) :
            s ∈ nl.syms ∨ s ∈ nr.syms)).resolve_left hin
        have := ih r (by omega) hr
        simp only [walk, g1, hin, if_false, List.length_cons]
        omega

/-- A node's walks use up the whole of Kraft's sum: no leaf is wasted (R153). -/
theorem walk_kraft {leaves : List SymCount} {f : Forest} (h : f.Grown leaves) :
    ∀ (k i m : Nat), i < k → i < f.arena.length →
      (∀ s ∈ symsAt f.arena i, (walk f.arena s k i).length ≤ m) →
      ∑ s ∈ (symsAt f.arena i).toFinset, 2 ^ (m - (walk f.arena s k i).length) = 2 ^ m := by
  intro k
  induction k with
  | zero => intro i m hi; omega
  | succ k ih =>
    intro i m hi hlen hm
    by_cases hl : i < leaves.length
    · have hg := h.leaf_get hl
      have hw : ∀ s, walk f.arena s (k + 1) i = [] := by intro s; simp [walk, hg, leafNode]
      have hsy : symsAt f.arena i = [leaves[i].1] := by simp [symsAt, hg, leafNode]
      simp [hsy, hw]
    · obtain ⟨nd, l, r, nl, nr, g1, g2, g3, g4, g5, g6, g7, g8, g9, g10⟩ := h.joins i (by omega) hlen
      obtain ⟨w, sy, kd⟩ := nd
      simp only at g2; subst g2
      have hsl : symsAt f.arena l = nl.syms := by simp [symsAt, g6]
      have hsr : symsAt f.arena r = nr.syms := by simp [symsAt, g7]
      have hdis : Disjoint (symsAt f.arena l).toFinset (symsAt f.arena r).toFinset := by
        rw [Finset.disjoint_left]
        intro t h1 h2
        rw [List.mem_toFinset, hsl] at h1
        rw [List.mem_toFinset, hsr] at h2
        exact g10 t ⟨h1, h2⟩
      have mem : ∀ t, t ∈ symsAt f.arena i ↔ t ∈ symsAt f.arena l ∨ t ∈ symsAt f.arena r := by
        intro t; rw [hsl, hsr]; simpa [symsAt, g1] using g9 t
      have hunion : (symsAt f.arena i).toFinset = (symsAt f.arena l).toFinset ∪ (symsAt f.arena r).toFinset := by
        ext t; simp only [List.mem_toFinset, Finset.mem_union]; exact mem t
      have wl : ∀ t ∈ symsAt f.arena l, walk f.arena t (k + 1) i = false :: walk f.arena t k l := by
        intro t ht; simp [walk, g1, ht]
      have wr : ∀ t ∈ symsAt f.arena r, walk f.arena t (k + 1) i = true :: walk f.arena t k r := by
        intro t ht
        have : t ∉ symsAt f.arena l := fun h2 => g10 t ⟨by rwa [hsl] at h2, by rwa [hsr] at ht⟩
        simp [walk, g1, this]
      obtain ⟨u, hu⟩ := symsAt_nonempty h l (by omega)
      have hm1 : 1 ≤ m := by
        have := hm u ((mem u).mpr (.inl hu))
        rw [wl u hu, List.length_cons] at this
        omega
      have half : ∀ j, (∀ t ∈ symsAt f.arena j, (walk f.arena t k j).length + 1 ≤ m) → j < k → j < f.arena.length →
          ∑ s ∈ (symsAt f.arena j).toFinset, 2 ^ (m - ((walk f.arena s k j).length + 1)) = 2 ^ (m - 1) := by
        intro j hj h1 h2
        rw [← ih j (m - 1) h1 h2 fun t ht => by have := hj t ht; omega]
        refine Finset.sum_congr rfl fun t _ => ?_
        congr 1; omega
      rw [hunion, Finset.sum_union hdis]
      have e1 : ∑ s ∈ (symsAt f.arena l).toFinset, 2 ^ (m - (walk f.arena s (k + 1) i).length) = 2 ^ (m - 1) := by
        rw [← half l (fun t ht => by
          have := hm t ((mem t).mpr (.inl ht)); rwa [wl t ht, List.length_cons] at this) (by omega) (by omega)]
        refine Finset.sum_congr rfl fun t ht => ?_
        rw [wl t (List.mem_toFinset.mp ht), List.length_cons]
      have e2 : ∑ s ∈ (symsAt f.arena r).toFinset, 2 ^ (m - (walk f.arena s (k + 1) i).length) = 2 ^ (m - 1) := by
        rw [← half r (fun t ht => by
          have := hm t ((mem t).mpr (.inr ht)); rwa [wr t ht, List.length_cons] at this) (by omega) (by omega)]
        refine Finset.sum_congr rfl fun t ht => ?_
        rw [wr t (List.mem_toFinset.mp ht), List.length_cons]
      rw [e1, e2]
      obtain ⟨j, rfl⟩ : ∃ j, m = j + 1 := ⟨m - 1, by omega⟩
      rw [Nat.add_sub_cancel, Nat.pow_succ]; omega

end Sys2Proof.Machine
end

