-- ==== Sys2Proof/Laws/Code.lean ====
section
/-! SUPPORT. The code that BuildTree and BuildDict make of the counts (42_tree_dictionary R141 to R153): what the sorted
leaves hold, and the paths of the symbols counted. -/

namespace Sys2Proof.Machine

/-- The leaves of the tree, in leaf order. -/
def Enc.leaves (e : Enc) : List SymCount := sortLeaves (usedSymbols e.freq)

/-- The forest BuildTree makes. -/
def Enc.forest (e : Enc) : Forest := buildForest e.leaves

/-- The path of a symbol. -/
def Enc.path (e : Enc) (b : Byte) : List Bool := pathOf e.distinct e.forest b

/-- The index of the root. -/
def Enc.rootIndex (e : Enc) : Nat := e.forest.arena.length - 1

theorem buildCode_tree (e : Enc) : e.buildCode.tree = e.forest.arena := rfl

theorem length_leaves (e : Enc) : e.leaves.length = e.distinct := (sortLeaves_perm _).length_eq

theorem mem_leaves (e : Enc) (p : SymCount) : p ∈ e.leaves ↔ p.2 = e.freqOf p.1 ∧ 0 < (e.freqOf p.1).toNat := by
  rw [Enc.leaves, (sortLeaves_perm _).mem_iff, mem_usedSymbols]

theorem leaves_nodup (e : Enc) : (e.leaves.map (·.1)).Nodup := by
  rw [Enc.leaves, ((sortLeaves_perm (usedSymbols e.freq)).map (·.1)).nodup_iff, List.Nodup, List.pairwise_map]
  exact (usedSymbols_ascend e).imp fun h he => by rw [he] at h; omega

theorem mem_leaves_syms (e : Enc) (b : Byte) : b ∈ e.leaves.map (·.1) ↔ 0 < (e.freqOf b).toNat := by
  rw [List.mem_map]
  constructor
  · rintro ⟨p, hp, rfl⟩; exact ((mem_leaves e p).mp hp).2
  · intro h; exact ⟨(b, e.freqOf b), (mem_leaves e _).mpr ⟨rfl, h⟩, rfl⟩

/-- The leaves weigh what was counted. -/
theorem leaves_sum (e : Enc) : (e.leaves.map fun p => p.2.toNat).sum = freqSum e.freq := by
  have hp : (e.leaves.map fun p => p.2.toNat).sum = ((usedSymbols e.freq).map fun p => p.2.toNat).sum :=
    ((sortLeaves_perm _).map _).sum_eq
  have hl : e.freq.toList = allSymbols.map e.freqOf := by
    have := congrArg (List.map Prod.snd) (zip_allSymbols e.freq)
    rw [List.map_snd_zip (by simp [length_allSymbols])] at this
    rw [this]; simp [Enc.freqOf]
  rw [hp, freqSum, hl, usedSymbols_eq]
  simp only [List.map_map]
  generalize allSymbols = l
  induction l with
  | nil => rfl
  | cons a l ih =>
    simp only [List.filter_cons]
    split
    · simp only [List.map_cons, List.sum_cons, ih]; rfl
    · rename_i h
      simp only [decide_eq_true_eq, Nat.not_lt, Nat.le_zero] at h
      rw [ih, List.map_cons, List.sum_cons]
      simp [h]

theorem distinct_pos {e : Enc} {b : Byte} (hb : 0 < (e.freqOf b).toNat) : 1 ≤ e.distinct :=
  List.length_pos_of_mem ((mem_usedSymbols e (b, e.freqOf b)).mpr ⟨rfl, hb⟩)

theorem distinct_le (e : Enc) : e.distinct ≤ 256 := by
  have := (List.filter_sublist (p := fun s => decide (0 < (e.freqOf s).toNat)) (l := allSymbols)).length_le
  rw [length_allSymbols] at this
  rw [Enc.distinct, usedSymbols_eq, List.length_map]; exact this

/-- Two symbols counted are two distinct symbols. -/
theorem two_le_distinct {e : Enc} {b c : Byte} (hb : 0 < (e.freqOf b).toNat) (hc : 0 < (e.freqOf c).toNat)
    (hne : b ≠ c) : 2 ≤ e.distinct := by
  have m1 := (mem_usedSymbols e (b, e.freqOf b)).mpr ⟨rfl, hb⟩
  have m2 := (mem_usedSymbols e (c, e.freqOf c)).mpr ⟨rfl, hc⟩
  unfold Enc.distinct
  match hu : usedSymbols e.freq with
  | [] => rw [hu] at m1; cases m1
  | [p] =>
    rw [hu] at m1 m2
    simp only [List.mem_singleton] at m1 m2
    rw [← m2] at m1
    exact absurd (congrArg Prod.fst m1) hne
  | _ :: _ :: _ => simp

/-- The forest of one or more symbols is a tree. -/
theorem forest_grown {e : Enc} (h : 1 ≤ e.distinct) : e.forest.Grown e.leaves
    ∧ e.forest.arena.length = 2 * e.distinct - 1 ∧ e.forest.lq ++ e.forest.iq = [e.rootIndex] := by
  have hne : e.leaves ≠ [] := by
    intro h0
    have := length_leaves e
    rw [h0, List.length_nil] at this
    omega
  obtain ⟨g, hl, hr⟩ := buildForest_grown (leaves_nodup e) hne
  exact ⟨g, by rw [← length_leaves e]; exact hl, hr⟩

/-- The root reaches exactly the symbols counted. -/
theorem root_syms {e : Enc} (h : 1 ≤ e.distinct) (b : Byte) :
    b ∈ symsAt e.forest.arena e.rootIndex ↔ 0 < (e.freqOf b).toNat := by
  obtain ⟨g, hl, hr⟩ := forest_grown h
  have := g.cover b
  rw [hr, mem_leaves_syms] at this
  rw [← this]; simp

/-- For two or more symbols a path is the walk from the root (R148). -/
theorem path_eq_walk {e : Enc} (h : 2 ≤ e.distinct) (b : Byte) :
    e.path b = walk e.forest.arena b e.forest.arena.length e.rootIndex := by
  obtain ⟨g, hl, hr⟩ := forest_grown (e := e) (by omega)
  have hroot : e.forest.root? = some e.rootIndex := by rw [Forest.root?, hr]; rfl
  simp only [Enc.path, pathOf, if_neg (show ¬ e.distinct = 1 by omega), hroot]

/-- A path has at least one step and at most 255. -/
theorem path_length {e : Enc} {b : Byte} (hb : 0 < (e.freqOf b).toNat) :
    1 ≤ (e.path b).length ∧ (e.path b).length ≤ 255 := by
  have hd := distinct_pos hb
  by_cases h1 : e.distinct = 1
  · simp only [Enc.path, pathOf, h1, if_true]; decide
  · obtain ⟨g, hl, hr⟩ := forest_grown hd
    have h256 := distinct_le e
    have hroot : e.rootIndex < e.forest.arena.length := by unfold Enc.rootIndex; omega
    rw [path_eq_walk (by omega)]
    constructor
    · refine List.length_pos_iff.mpr (walk_ne_nil g b (by omega) ?_ hroot)
      rw [length_leaves]; unfold Enc.rootIndex; omega
    · have hw := walk_length_lt g b e.forest.arena.length e.rootIndex hroot ((root_syms hd b).mpr hb)
      have hsub : (symsAt e.forest.arena e.rootIndex).toFinset ⊆ ((usedSymbols e.freq).map (·.1)).toFinset := by
        intro x hx
        rw [List.mem_toFinset] at hx ⊢
        exact List.mem_map.mpr ⟨(x, e.freqOf x), (mem_usedSymbols e _).mpr ⟨rfl, (root_syms hd x).mp hx⟩, rfl⟩
      have hc := (Finset.card_le_card hsub).trans (List.toFinset_card_le _)
      rw [List.length_map] at hc
      unfold Enc.distinct at h256
      omega

/-- No path is an initial segment of another symbol's. -/
theorem path_apart {e : Enc} {b c : Byte} (hb : 0 < (e.freqOf b).toNat) (hc : 0 < (e.freqOf c).toNat)
    (hne : b ≠ c) : ¬ e.path b <+: e.path c := by
  have h2 := two_le_distinct hb hc hne
  obtain ⟨g, hl, hr⟩ := forest_grown (e := e) (by omega)
  have hroot : e.rootIndex < e.forest.arena.length := by unfold Enc.rootIndex; omega
  rw [path_eq_walk h2, path_eq_walk h2]
  exact walk_apart g hne _ _ hroot hroot ((root_syms (by omega) b).mpr hb) ((root_syms (by omega) c).mpr hc)

theorem codeTooLong_iff (d : Vector (Option Code) 256) :
    codeTooLong d = true ↔ ∃ e ∈ dictEntries d, 16 < e.code.len.toNat := by
  rw [codeTooLong, List.any_eq_true]
  simp only [decide_eq_true_eq]
  exact Iff.rfl

/-- Where no code is too long, every symbol counted has the code of its path, of at most 16 steps. -/
theorem buildCode_path {e : Enc} (hl : codeTooLong e.buildCode.dict = false) {b : Byte}
    (hb : 0 < (e.freqOf b).toNat) : ∃ c, e.buildCode.codeOf b = some c ∧ codeBits c = e.path b ∧ c.InRange := by
  have hc : e.buildCode.codeOf b = some (codeOfPath (e.path b)) := by
    have := buildCode_codeOf e b
    rwa [if_pos hb] at this
  obtain ⟨l1, l255⟩ := path_length hb
  have h16 : (e.path b).length ≤ 16 := by
    by_contra h
    have : codeTooLong e.buildCode.dict = true := by
      rw [codeTooLong_iff]
      refine ⟨{ code := codeOfPath (e.path b), sym := b }, (mem_dictEntries e.buildCode _).mpr hc, ?_⟩
      simp only [codeOfPath, BitVec.toNat_ofNat]
      omega
    rw [this] at hl; cases hl
  obtain ⟨c1, c2, c3⟩ := codeBits_codeOfPath h16
  exact ⟨_, hc, c1, by rw [c2]; exact l1, by rw [c2]; exact h16, by rw [c2]; exact c3⟩

end Sys2Proof.Machine
end

