-- ==== Sys2Proof/Laws/Reader.lean ====
section
/-! SUPPORT. What the reader's primitives can end in (40_bit_reader R102, R110): one lemma per ending, each an
equivalence, so that no later proof unfolds a read. -/

namespace Sys2Proof.Machine

variable {ask : Nat → IoAnswer} {source : List Byte} {r r' : Reader} {n : Nat}

theorem readBit_eq_ok_iff {b : Bool} :
    readBit ask source r = .ok b r' ↔
      r.pos.toNat < 8 * source.length ∧ ask (r.pos.toNat / 8) = .ok
        ∧ b = streamBit source r.pos.toNat ∧ r' = { r with pos := r.pos + 1 } := by
  unfold readBit
  split
  · simp; omega
  · rename_i h
    cases ha : ask (r.pos.toNat / 8) <;> simp [transferAll, ha]
    grind

theorem readBit_eq_endOfStream_iff :
    readBit ask source r = .endOfStream ↔ 8 * source.length ≤ r.pos.toNat := by
  unfold readBit
  split
  · simpa
  · rename_i h
    cases ha : ask (r.pos.toNat / 8) <;> simp [transferAll, ha] <;> omega

theorem readBit_eq_io_iff :
    readBit ask source r = .io ↔ r.pos.toNat < 8 * source.length ∧ ask (r.pos.toNat / 8) = .fail := by
  unfold readBit
  split
  · simp; omega
  · rename_i h
    cases ha : ask (r.pos.toNat / 8) <;> simp [transferAll, ha]
    omega

theorem readBit_eq_stuck_iff {i : Nat} :
    readBit ask source r = .stuck i ↔
      r.pos.toNat < 8 * source.length ∧ ask i = .never ∧ i = r.pos.toNat / 8 := by
  unfold readBit
  split
  · simp; omega
  · rename_i h
    cases ha : ask (r.pos.toNat / 8) <;> simp [transferAll, ha] <;> grind

theorem readBits_eq_ok_iff {v : Nat} :
    readBits ask source n r = .ok v r' ↔
      r.pos.toNat + n ≤ 8 * source.length ∧ (∀ i ∈ bytesOfBits r.pos.toNat n, ask i = .ok)
        ∧ v = natOfBits (streamBits source r.pos.toNat n)
        ∧ r' = { r with pos := r.pos + BitVec.ofNat 64 n } := by
  unfold readBits
  split
  · simp; omega
  · rw [← transferAll_eq_ok_iff]
    cases ha : transferAll ask (bytesOfBits r.pos.toNat n) <;> simp
    grind

theorem readBits_eq_endOfStream_iff :
    readBits ask source n r = .endOfStream ↔ 8 * source.length < r.pos.toNat + n := by
  unfold readBits
  split
  · simpa
  · cases ha : transferAll ask (bytesOfBits r.pos.toNat n) <;> simp <;> omega

theorem readBits_eq_io_iff :
    readBits ask source n r = .io ↔
      r.pos.toNat + n ≤ 8 * source.length ∧ transferAll ask (bytesOfBits r.pos.toNat n) = .fail := by
  unfold readBits
  split
  · simp; omega
  · cases ha : transferAll ask (bytesOfBits r.pos.toNat n) <;> simp
    omega

theorem readBits_eq_stuck_iff {i : Nat} :
    readBits ask source n r = .stuck i ↔
      r.pos.toNat + n ≤ 8 * source.length ∧ transferAll ask (bytesOfBits r.pos.toNat n) = .stuck i := by
  unfold readBits
  split
  · simp; omega
  · cases ha : transferAll ask (bytesOfBits r.pos.toNat n) <;> simp
    omega

/-- Inside a source shorter than 2^61 bytes a cursor never wraps (10_state R25, R35). -/
theorem pos_add_toNat {p : Pos} (h : p.toNat + n ≤ 8 * source.length) (hs : source.length < 2 ^ 61) :
    (p + BitVec.ofNat 64 n).toNat = p.toNat + n := by
  rw [BitVec.toNat_add, BitVec.toNat_ofNat]
  have : n < 2 ^ 64 := by omega
  have : p.toNat + n < 2 ^ 64 ∨ p.toNat + n = 2 ^ 64 := by omega
  omega

@[simp] theorem Reader.setPosition_pos (r : Reader) (i : Pos) : (r.setPosition i).pos = i := rfl
@[simp] theorem Reader.setPosition_pb (r : Reader) (i : Pos) : (r.setPosition i).pb = [] := rfl
@[simp] theorem Reader.skip_pb (r : Reader) (k : Word) : (r.skip k).pb = [] := rfl

/-- The saturating cursor of BR_SKIP_BITS (R107). -/
theorem Reader.skip_pos_toNat (r : Reader) (k : Word) :
    (r.skip k).pos.toNat = min (r.pos.toNat + k.toNat) (2 ^ 64 - 1) := by
  simp only [Reader.skip, BitVec.toNat_ofNat]
  omega

end Sys2Proof.Machine
end

