-- ==== Sys2Proof/Laws/Decoder.lean ====
section
/-! SUPPORT. What the loops of DEC_NEW and DEC_DECODE can end in (44_decoder R202 to R207). -/

namespace Sys2Proof.Machine

variable {ask askOut : Nat → IoAnswer} {source : List Byte} {r r' : Reader} {inv : List InvEntry} {s t : State}

/-! ### Bits of a source -/

theorem streamBits_cons (source : List Byte) (p n : Nat) :
    streamBits source p (n + 1) = streamBit source p :: streamBits source (p + 1) n := by
  have h := streamBits_append source p 1 n
  rw [Nat.add_comm 1 n] at h
  simpa [streamBits] using h

theorem BitsAt.left {p : Nat} {a b : List Bool} (h : BitsAt source p (a ++ b)) : BitsAt source p a := by
  obtain ⟨h1, h2⟩ := h
  rw [List.length_append, streamBits_append] at h2
  have h3 := List.append_inj h2 (by rw [length_streamBits])
  refine ⟨?_, h3.1⟩
  cases a with
  | nil => exact .inl rfl
  | cons x xs =>
    refine .inr ?_
    rcases h1 with h1 | h1
    · cases h1
    · simp only [List.length_append] at h1; omega

theorem BitsAt.right {p : Nat} {a b : List Bool} (h : BitsAt source p (a ++ b)) :
    BitsAt source (p + a.length) b := by
  obtain ⟨h1, h2⟩ := h
  rw [List.length_append, streamBits_append] at h2
  have h3 := List.append_inj h2 (by rw [length_streamBits])
  refine ⟨?_, h3.2⟩
  rcases h1 with h1 | h1
  · exact .inl (List.append_eq_nil_iff.mp h1).2
  · exact .inr (by simp only [List.length_append] at h1; omega)

theorem BitsAt.length_le {p : Nat} {a : List Bool} (h : BitsAt source p a) (hne : a ≠ []) :
    p + a.length ≤ 8 * source.length := h.1.resolve_left hne

/-! ### Matching one symbol (R205) -/

/-- A match leaves the queue of returned bits alone, and asks only for bytes of DSRC. -/
theorem matchLoop_frame (ask : Nat → IoAnswer) (source : List Byte) (inv : List InvEntry) (m k cl cb : Nat)
    (r : Reader) :
    match matchLoop ask source inv m k cl cb r with
    | .ok _ r' => r'.pb = r.pb
    | .corrupt r' => r'.pb = r.pb
    | .io r' => r'.pb = r.pb
    | .stuck i => ask i = .never := by
  induction k generalizing cl cb r with
  | zero => rfl
  | succ k ih =>
    simp only [matchLoop]
    cases hr : readBit ask source r with
    | endOfStream => rfl
    | io => rfl
    | stuck i => exact (readBit_eq_stuck_iff.mp hr).2.1
    | ok b r1 =>
      obtain ⟨-, -, -, rfl⟩ := readBit_eq_ok_iff.mp hr
      simp only
      cases lookupCode inv (cl + 1) (cb + b.toNat * 2 ^ cl) with
      | some s => rfl
      | none =>
        by_cases hm : m ≤ cl + 1
        · simp only [if_pos hm]
        · simp only [if_neg hm]
          exact ih _ _ _

theorem matchSymbol_frame (ask : Nat → IoAnswer) (source : List Byte) (inv : List InvEntry) (m : Nat)
    (r : Reader) :
    match matchSymbol ask source inv m r with
    | .ok _ r' => r'.pb = r.pb
    | .corrupt r' => r'.pb = r.pb
    | .io r' => r'.pb = r.pb
    | .stuck i => ask i = .never := by
  unfold matchSymbol
  by_cases h : inv.isEmpty = true
  · simp only [if_pos h]
  · simp only [if_neg h]
    exact matchLoop_frame _ _ _ _ _ _ _ _

/-- A bit inside the source whose byte is transferred is read. -/
theorem readBit_inside (hask : ask (r.pos.toNat / 8) = .ok) (h : r.pos.toNat < 8 * source.length) :
    readBit ask source r = .ok (streamBit source r.pos.toNat) { r with pos := r.pos + 1 } :=
  readBit_eq_ok_iff.mpr ⟨h, hask, rfl, rfl⟩

theorem pos_succ_toNat {p : Pos} (h : p.toNat < 8 * source.length) (hs : source.length < 2 ^ 61) :
    (p + 1).toNat = p.toNat + 1 := pos_add_toNat (n := 1) (by omega) hs

theorem pos_succ_add (p : Pos) (n : Nat) : p + 1 + BitVec.ofNat 64 n = p + BitVec.ofNat 64 (n + 1) := by
  rw [Nat.add_comm, BitVec.ofNat_add, ← BitVec.add_assoc]; rfl

/-- The candidate `l` grows along the bits `m` of a code until it is that code. -/
theorem matchLoop_finds (ht : ConsistentDict inv) (hs : source.length < 2 ^ 61) {x : InvEntry} (hx : x ∈ inv)
    (maxLen : Nat) (m : List Bool) :
    ∀ (l : List Bool) (k : Nat) (r : Reader), m ≠ [] → codeBits x.code = l ++ m →
      r.pos.toNat + m.length ≤ 8 * source.length → streamBits source r.pos.toNat m.length = m →
      (∀ j < m.length, ask ((r.pos.toNat + j) / 8) = .ok) → l.length + m.length ≤ maxLen → m.length ≤ k →
      matchLoop ask source inv maxLen k l.length (pathValue l) r =
        .ok x.sym { r with pos := r.pos + BitVec.ofNat 64 m.length } := by
  induction m with
  | nil => intro l k r h; exact absurd rfl h
  | cons b m ih =>
    intro l k r _ hc hp hb ha hm hk
    simp only [List.length_cons] at hp hb ha hm hk
    obtain ⟨k, rfl⟩ : ∃ j, k = j + 1 := ⟨k - 1, by omega⟩
    have hpos : r.pos.toNat < 8 * source.length := by omega
    rw [streamBits_cons] at hb
    obtain ⟨hb1, hb2⟩ := List.cons.inj hb
    simp only [matchLoop, readBit_inside (by simpa using ha 0 (by omega)) hpos, hb1]
    rw [← pathValue_append_bit, show l.length + 1 = (l ++ [b]).length by simp]
    cases m with
    | nil =>
      rw [lookupCode_of_mem ht hx (by simpa using hc)]
      rfl
    | cons c m =>
      have hnone : lookupCode inv (l ++ [b]).length (pathValue (l ++ [b])) = none := by
        rw [lookupCode_eq_none_iff ht]
        intro y hy hyl
        have hpre : codeBits y.code <+: codeBits x.code := by
          rw [hyl, hc]; exact ⟨c :: m, by simp⟩
        have := ht.unique hy hx hpre
        subst this
        rw [hyl] at hc
        have := congrArg List.length hc
        simp at this
      rw [hnone]
      simp only
      have e1 := pos_succ_toNat hpos hs
      rw [if_neg (by simp; simp only [List.length_cons] at hm; omega)]
      rw [ih (l ++ [b]) k { r with pos := r.pos + 1 } (by simp) (by simpa using hc)
        (by simp only [e1, List.length_cons] at *; omega) (by simp only [e1]; exact hb2)
        (by
          intro j hj
          have := ha (j + 1) (by omega)
          rw [e1, show r.pos.toNat + 1 + j = r.pos.toNat + (j + 1) by omega]; exact this)
        (by simp only [List.length_append, List.length_cons, List.length_nil] at *; omega)
        (by simp only [List.length_cons] at *; omega)]
      simp only [List.length_cons]
      rw [pos_succ_add]

/-- With no code along the bits that are left, all of them up to MAXLEN are read. -/
theorem matchLoop_fails (ht : ConsistentDict inv) (hask : ∀ k, ask k = .ok) (hs : source.length < 2 ^ 61)
    (maxLen : Nat) :
    ∀ (k : Nat) (l : List Bool) (r : Reader), l.length < maxLen → maxLen < l.length + k →
      (∀ x ∈ inv, ¬ codeBits x.code <+: l ++
        streamBits source r.pos.toNat (min (8 * source.length - r.pos.toNat) (maxLen - l.length))) →
      (∀ x ∈ inv, ¬ codeBits x.code <+: l) →
      matchLoop ask source inv maxLen k l.length (pathValue l) r =
        .corrupt
          { r with
            pos := r.pos + BitVec.ofNat 64 (min (8 * source.length - r.pos.toNat) (maxLen - l.length)) } := by
  intro k
  induction k with
  | zero => intro l r h1 h2; omega
  | succ k ih =>
    intro l r h1 h2 h3 h4
    by_cases hpos : r.pos.toNat < 8 * source.length
    · obtain ⟨n, hn⟩ : ∃ n, min (8 * source.length - r.pos.toNat) (maxLen - l.length) = n + 1 :=
        ⟨min (8 * source.length - r.pos.toNat) (maxLen - l.length) - 1, by omega⟩
      rw [hn, streamBits_cons] at h3
      simp only [matchLoop, readBit_inside (hask _) hpos]
      generalize hb : streamBit source r.pos.toNat = b at *
      rw [← pathValue_append_bit, show l.length + 1 = (l ++ [b]).length by simp]
      have h5 : ∀ x ∈ inv, ¬ codeBits x.code <+: l ++ [b] := by
        intro x hx hp
        exact h3 x hx (hp.trans ⟨streamBits source (r.pos.toNat + 1) n, by simp⟩)
      have hnone : lookupCode inv (l ++ [b]).length (pathValue (l ++ [b])) = none := by
        rw [lookupCode_eq_none_iff ht]
        intro x hx hl
        exact h5 x hx (by rw [hl])
      rw [hnone]
      simp only
      have e1 := pos_succ_toNat hpos hs
      split
      · rename_i hle
        simp only [List.length_append, List.length_singleton] at hle
        have : n = 0 := by omega
        rw [hn, this]; rfl
      · rename_i hle
        simp only [List.length_append, List.length_singleton] at hle
        have hmin : min (8 * source.length - (r.pos + 1).toNat) (maxLen - (l ++ [b]).length) = n := by
          rw [e1]; simp only [List.length_append, List.length_singleton]; omega
        rw [ih (l ++ [b]) { r with pos := r.pos + 1 } (by simp; omega) (by simp; omega)
          (by simp only [hmin]; rw [e1]; simpa using h3) h5]
        simp only [hmin, hn]
        rw [pos_succ_add]
    · have : min (8 * source.length - r.pos.toNat) (maxLen - l.length) = 0 := by omega
      simp only [matchLoop, readBit_eq_endOfStream_iff.mpr (Nat.le_of_not_lt hpos), this]
      simp

/-- With no code along the bits `m`, fewer than MAXLEN, all of them are read, and a failing transfer of the next bit
ends the match. -/
theorem matchLoop_io (ht : ConsistentDict inv) (hs : source.length < 2 ^ 61) (maxLen : Nat) (m : List Bool) :
    ∀ (l : List Bool) (k : Nat) (r : Reader), l.length + m.length < maxLen → m.length < k →
      r.pos.toNat + m.length < 8 * source.length → streamBits source r.pos.toNat m.length = m →
      (∀ j < m.length, ask ((r.pos.toNat + j) / 8) = .ok) → ask ((r.pos.toNat + m.length) / 8) = .fail →
      (∀ x ∈ inv, ¬ codeBits x.code <+: l ++ m) →
      matchLoop ask source inv maxLen k l.length (pathValue l) r =
        .io { r with pos := r.pos + BitVec.ofNat 64 m.length } := by
  induction m with
  | nil =>
    intro l k r _ hk hp _ _ hf _
    obtain ⟨k, rfl⟩ : ∃ j, k = j + 1 := ⟨k - 1, by simp at hk; omega⟩
    have hio : readBit ask source r = .io := readBit_eq_io_iff.mpr ⟨by simpa using hp, by simpa using hf⟩
    simp [matchLoop, hio]
  | cons b m ih =>
    intro l k r hl hk hp hb ha hf hn
    simp only [List.length_cons] at hl hk hp hb ha hf
    obtain ⟨k, rfl⟩ : ∃ j, k = j + 1 := ⟨k - 1, by omega⟩
    have hpos : r.pos.toNat < 8 * source.length := by omega
    rw [streamBits_cons] at hb
    obtain ⟨hb1, hb2⟩ := List.cons.inj hb
    have e1 := pos_succ_toNat hpos hs
    have hnone : lookupCode inv (l ++ [b]).length (pathValue (l ++ [b])) = none := by
      rw [lookupCode_eq_none_iff ht]
      intro x hx hxl
      exact hn x hx (by rw [hxl]; exact ⟨m, by simp⟩)
    simp only [matchLoop, readBit_inside (by simpa using ha 0 (by omega)) hpos, hb1]
    rw [← pathValue_append_bit, show l.length + 1 = (l ++ [b]).length by simp, hnone]
    simp only
    rw [if_neg (by simp; omega)]
    rw [ih (l ++ [b]) k { r with pos := r.pos + 1 } (by simp; omega) (by omega) (by simp only [e1]; omega)
      (by simp only [e1]; exact hb2)
      (by
        intro j hj
        have := ha (j + 1) (by omega)
        rw [e1, show r.pos.toNat + 1 + j = r.pos.toNat + (j + 1) by omega]; exact this)
      (by rw [e1, show r.pos.toNat + 1 + m.length = r.pos.toNat + (m.length + 1) by omega]; exact hf)
      (by simpa using hn)]
    simp only [List.length_cons]
    rw [pos_succ_add]

/-- A code of INV at the cursor is matched (R205). -/
theorem matchSymbol_finds (ht : ConsistentDict inv) (hs : source.length < 2 ^ 61) {x : InvEntry} (hx : x ∈ inv)
    (h : BitsAt source r.pos.toNat (codeBits x.code))
    (hask : ∀ j < x.code.len.toNat, ask ((r.pos.toNat + j) / 8) = .ok) :
    matchSymbol ask source inv (maxLenOf inv) r =
      .ok x.sym { r with pos := r.pos + BitVec.ofNat 64 x.code.len.toNat } := by
  have hne : inv.isEmpty = false := by cases inv <;> simp_all
  have hlen := (ht.1 x hx).1
  have hc : codeBits x.code ≠ [] := by
    intro h; have := congrArg List.length h; simp [length_codeBits] at this; omega
  have hl := le_maxLenOf hx
  have := matchLoop_finds ht hs hx (maxLenOf inv) (codeBits x.code) [] (maxLenOf inv + 1) r hc rfl
    (h.length_le hc) h.2 (by rw [length_codeBits]; exact hask)
    (by simpa [length_codeBits] using hl) (by rw [length_codeBits]; omega)
  rw [matchSymbol, hne]
  simpa [length_codeBits, pathValue] using this

/-- No code of INV at the cursor: the bits that are left, at most MAXLEN of them, are read (R205, R207). -/
theorem matchSymbol_fails (ht : ConsistentDict inv) (hask : ∀ k, ask k = .ok) (hs : source.length < 2 ^ 61)
    (h : ∀ x ∈ inv, ¬ codeBits x.code <+:
      streamBits source r.pos.toNat (min (8 * source.length - r.pos.toNat) (maxLenOf inv))) :
    matchSymbol ask source inv (maxLenOf inv) r =
      .corrupt
        { r with pos := r.pos + BitVec.ofNat 64 (min (8 * source.length - r.pos.toNat) (maxLenOf inv)) } := by
  rw [matchSymbol]
  cases hi : inv with
  | nil => simp [maxLenOf]
  | cons y ys =>
    rw [← hi]
    have hne : inv ≠ [] := by simp [hi]
    have hpos := maxLenOf_pos ht.1 hne
    have := matchLoop_fails ht hask hs (maxLenOf inv) (maxLenOf inv + 1) [] r (by simp; omega) (by simp)
      (by simpa using h)
      (by
        intro x hx hp
        have := hp.length_le
        have := (ht.1 x hx).1
        simp [length_codeBits] at *
        omega)
    have he : inv.isEmpty = false := by simp [hi]
    rw [he]
    simpa [pathValue] using this

/-- A failing transfer after bits no code of INV begins, fewer than MAXLEN (R205, 20_memory R56). -/
theorem matchSymbol_io (ht : ConsistentDict inv) (hs : source.length < 2 ^ 61) {m : List Bool}
    (hl : m.length < maxLenOf inv) (h : BitsAt source r.pos.toNat m)
    (hin : r.pos.toNat + m.length < 8 * source.length)
    (hask : ∀ j < m.length, ask ((r.pos.toNat + j) / 8) = .ok)
    (hf : ask ((r.pos.toNat + m.length) / 8) = .fail) (hn : ∀ x ∈ inv, ¬ codeBits x.code <+: m) :
    matchSymbol ask source inv (maxLenOf inv) r = .io { r with pos := r.pos + BitVec.ofNat 64 m.length } := by
  have hne : inv.isEmpty = false := by cases inv <;> simp_all [maxLenOf]
  have := matchLoop_io ht hs (maxLenOf inv) m [] (maxLenOf inv + 1) r (by simpa using hl) (by omega) hin h.2 hask hf
    (by simpa using hn)
  rw [matchSymbol, hne]
  simpa [pathValue] using this

/-! ### Decoding bytes (R204) -/

/-- Whatever the loop ends in, only the cursor, OUT and the fault flag change, and OUT only grows. -/
theorem decodeLoop_frame (ask askOut : Nat → IoAnswer) (source : List Byte) (k : Nat) (d : Dec) :
    match decodeLoop ask askOut source k d with
    | .ok d' => d' = { d with rd := d'.rd, out := d'.out } ∧ d'.rd.pb = d.rd.pb ∧ d.out <+: d'.out
    | .corrupt d' => d' = { d with rd := d'.rd, out := d'.out } ∧ d'.rd.pb = d.rd.pb ∧ d.out <+: d'.out
    | .io d' => d' = { d with rd := d'.rd, out := d'.out, iof := true } ∧ d'.rd.pb = d.rd.pb ∧ d.out <+: d'.out
    | .stuck S i => (S = .dsrc ∧ ask i = .never) ∨ (S = .out ∧ askOut i = .never) := by
  induction k generalizing d with
  | zero => exact ⟨rfl, rfl, List.prefix_refl _⟩
  | succ k ih =>
    have hm := matchSymbol_frame ask source d.inv d.maxLen.toNat d.rd
    simp only [decodeLoop]
    cases hs : matchSymbol ask source d.inv d.maxLen.toNat d.rd with
    | corrupt r => rw [hs] at hm; exact ⟨rfl, hm, List.prefix_refl _⟩
    | io r => rw [hs] at hm; exact ⟨rfl, hm, List.prefix_refl _⟩
    | stuck i => rw [hs] at hm; exact .inl ⟨rfl, hm⟩
    | ok s r =>
      rw [hs] at hm
      cases ha : askOut d.out.length with
      | ok =>
        simp only [transferAll, ha]
        have := ih ((d.withRd r).emit s)
        have hp : d.out <+: ((d.withRd r).emit s).out := ⟨[s], rfl⟩
        cases hl : decodeLoop ask askOut source k ((d.withRd r).emit s) <;> rw [hl] at this <;>
          simp only at this ⊢
        · exact ⟨this.1, this.2.1.trans hm, hp.trans this.2.2⟩
        · exact ⟨this.1, this.2.1.trans hm, hp.trans this.2.2⟩
        · exact ⟨this.1, this.2.1.trans hm, hp.trans this.2.2⟩
        · exact this
      | fail => simp only [transferAll, ha]; exact ⟨rfl, hm, List.prefix_refl _⟩
      | never => simp only [transferAll, ha]; exact .inr ⟨by first | rfl | trivial, by first | exact ha | trivial⟩

/-- The code of a symbol in a consistent dictionary. -/
theorem codeIn_eq_some_iff {es : List InvEntry} (ht : ConsistentDict es) {b : Byte} {c : Code} :
    codeIn es b = some c ↔ { code := c, sym := b } ∈ es := by
  constructor
  · intro h
    simp only [codeIn, Option.map_eq_some_iff] at h
    obtain ⟨x, hx, rfl⟩ := h
    have := List.find?_some hx
    simp only [beq_iff_eq] at this
    subst this
    exact List.mem_of_find?_eq_some hx
  · intro h
    simp only [codeIn, Option.map_eq_some_iff]
    cases hf : es.find? fun e => e.sym == b with
    | none =>
      rw [List.find?_eq_none] at hf
      have := hf _ h
      simp at this
    | some x =>
      refine ⟨x, rfl, ?_⟩
      have h1 := List.mem_of_find?_eq_some hf
      have h2 := List.find?_some hf
      simp only [beq_iff_eq] at h2
      by_contra hne
      obtain ⟨i, hi, hix⟩ := List.mem_iff_getElem.mp h1
      obtain ⟨j, hj, hjx⟩ := List.mem_iff_getElem.mp h
      have hp := List.pairwise_iff_getElem.mp ht.2
      rcases Nat.lt_trichotomy i j with hij | rfl | hij
      · exact (hp i j hi hj hij).1 (by rw [hix, hjx, h2])
      · rw [hix] at hjx; exact hne (by rw [hjx])
      · exact (hp j i hj hi hij).1 (by rw [hix, hjx, h2])

/-- DEC after the symbols `x` were emitted and `n` bits read. -/
def Dec.emitted (d : Dec) (x : List Byte) (n : Nat) : Dec :=
  { d with rd := { d.rd with pos := d.rd.pos + BitVec.ofNat 64 n }, out := d.out ++ x }

/-- Where the codes of `x` stand at the cursor, the loop emits `x` and goes on behind them. -/
theorem decodeLoop_emits {x : List Byte} (hs : source.length < 2 ^ 61) :
    ∀ (bits : List Bool) (k : Nat) (d : Dec), ConsistentDict d.inv → d.maxLen.toNat = maxLenOf d.inv →
      encodeBytes (codeIn d.inv) x = some bits → BitsAt source d.rd.pos.toNat bits →
      (∀ j < bits.length, ask ((d.rd.pos.toNat + j) / 8) = .ok) →
      (∀ j < x.length, askOut (d.out.length + j) = .ok) →
      decodeLoop ask askOut source (x.length + k) d =
        decodeLoop ask askOut source k (d.emitted x bits.length) := by
  induction x with
  | nil =>
    intro bits k d _ _ he _ _ _
    cases he
    simp [Dec.emitted]
  | cons b x ih =>
    intro bits k d hd hm he hb hask ho
    obtain ⟨c, rest, hc, hr, rfl⟩ := encodeBytes_cons_eq_some_iff.mp he
    have hmem := (codeIn_eq_some_iff hd).mp hc
    rw [List.length_append, length_codeBits] at hask
    have hfind := matchSymbol_finds (r := d.rd) hd hs hmem hb.left fun j hj => hask j (by
      simp only at hj; omega)
    have hlen := (hd.1 _ hmem).1
    have hle : d.rd.pos.toNat + c.len.toNat ≤ 8 * source.length := by
      have := hb.left.length_le (by intro h; have := congrArg List.length h; simp [length_codeBits] at this; simp at hlen; omega)
      rwa [length_codeBits] at this
    have hpos := pos_add_toNat hle hs
    have ha : askOut d.out.length = .ok := by simpa using ho 0 (by simp)
    rw [List.length_cons, show x.length + 1 + k = (x.length + k) + 1 by omega]
    simp only [decodeLoop, hm, hfind, transferAll, ha]
    rw [ih rest k ((d.withRd { d.rd with pos := d.rd.pos + BitVec.ofNat 64 c.len.toNat }).emit b) (by exact hd)
      (by exact hm) hr
      (by
        have := hb.right
        rw [length_codeBits] at this
        simp only [Dec.emit, Dec.withRd, hpos]; exact this)
      (by
        intro j hj
        simp only [Dec.emit, Dec.withRd, hpos]
        rw [Nat.add_assoc]
        exact hask _ (by omega))
      (by
        intro j hj
        have := ho (j + 1) (by simpa using hj)
        simp only [Dec.emit, Dec.withRd, List.length_append, List.length_singleton]
        rwa [show d.out.length + (j + 1) = d.out.length + 1 + j by omega] at this)]
    congr 1
    simp only [Dec.emitted, Dec.emit, Dec.withRd, List.append_assoc, List.singleton_append, List.length_append,
      length_codeBits]
    rw [BitVec.add_assoc, ← BitVec.ofNat_add]

/-! ### The header (R202) -/

theorem parseField_of_bits {n v : Nat} {rest : Nat → Reader → ParseRes}
    (hask : ∀ i ∈ bytesOfBits r.pos.toNat n, ask i = .ok) (hn : n ≠ 0) (hv : v < 2 ^ n)
    (h : BitsAt source r.pos.toNat (bitsMsb n v)) :
    parseField ask source n r rest = rest v { r with pos := r.pos + BitVec.ofNat 64 n } := by
  have h1 : bitsMsb n v ≠ [] := by
    intro he; have := congrArg List.length he; simp [length_bitsMsb] at this; omega
  have h2 := h.length_le h1
  have h3 := h.2
  rw [length_bitsMsb] at h2 h3
  have hr : readBits ask source n r = .ok v { r with pos := r.pos + BitVec.ofNat 64 n } :=
    readBits_eq_ok_iff.mpr ⟨h2, hask, by rw [h3, natOfBits_bitsMsb, Nat.mod_eq_of_lt hv], rfl⟩
  simp only [parseField, hr]

theorem parseField_short {n : Nat} {rest : Nat → Reader → ParseRes}
    (h : 8 * source.length < r.pos.toNat + n) : parseField ask source n r rest = .invalidHeader r := by
  simp only [parseField, readBits_eq_endOfStream_iff.mpr h]

/-- A field that can be read goes on with what was read. -/
theorem parseField_long {n : Nat} {rest : Nat → Reader → ParseRes} (hask : ∀ k, ask k = .ok)
    (h : r.pos.toNat + n ≤ 8 * source.length) :
    parseField ask source n r rest =
      rest (natOfBits (streamBits source r.pos.toNat n)) { r with pos := r.pos + BitVec.ofNat 64 n } := by
  have hr := readBits_eq_ok_iff.mpr (⟨h, fun i _ => hask i, rfl, rfl⟩ :
    r.pos.toNat + n ≤ 8 * source.length ∧ (∀ i ∈ bytesOfBits r.pos.toNat n, ask i = .ok)
      ∧ _ = natOfBits (streamBits source r.pos.toNat n) ∧ _ = { r with pos := r.pos + BitVec.ofNat 64 n })
  simp only [parseField, hr]

/-- What a parse ends in keeps the queue of returned bits; a table that comes out is consistent. -/
def ParseRes.Sound (ask : Nat → IoAnswer) (pb : List Bool) : ParseRes → Prop
  | .ok t r => ConsistentDict t ∧ r.pb = pb
  | .invalidHeader r => r.pb = pb
  | .io r => r.pb = pb
  | .stuck i => ask i = .never

theorem parseField_sound {n : Nat} {rest : Nat → Reader → ParseRes}
    (h : ∀ v r', r'.pb = r.pb → (rest v r').Sound ask r.pb) :
    (parseField ask source n r rest).Sound ask r.pb := by
  unfold parseField
  cases hr : readBits ask source n r with
  | ok v r1 =>
    obtain ⟨-, -, -, rfl⟩ := readBits_eq_ok_iff.mp hr
    exact h v _ rfl
  | endOfStream => rfl
  | io => rfl
  | stuck i =>
    obtain ⟨a, b, -, -, hi⟩ := (transferAll_eq_stuck_iff _ _ _).mp (readBits_eq_stuck_iff.mp hr).2
    exact hi

theorem parseEntries_sound (k : Nat) : ∀ (t : List InvEntry) (r : Reader), ConsistentDict t →
    (parseEntries ask source k t r).Sound ask r.pb := by
  induction k with
  | zero => intro t r ht; exact ⟨ht, rfl⟩
  | succ k ih =>
    intro t r ht
    simp only [parseEntries]
    refine parseField_sound fun len r1 h1 => ?_
    rw [← h1]
    refine parseField_sound fun bits r2 h2 => ?_
    rw [← h2]
    refine parseField_sound fun slen r3 h3 => ?_
    rw [← h3]
    split
    · refine parseField_sound fun sym r4 h4 => ?_
      rw [← h4]
      split
      · rename_i hc
        exact ih _ _ (insertEntry_consistent ht hc)
      · rfl
    · rfl

theorem parseHeader_sound (r : Reader) : (parseHeader ask source r).Sound ask r.pb := by
  unfold parseHeader
  refine parseField_sound fun cnt r1 h1 => ?_
  rw [← h1]
  exact parseEntries_sound cnt [] r1 ⟨by simp, List.Pairwise.nil⟩

/-- Too few bits for the entries still to read are InvalidHeader, whatever the bits are (R202, 90 C5). -/
theorem parseEntries_short (hask : ∀ k, ask k = .ok) (hs : source.length < 2 ^ 61) (k : Nat) :
    ∀ (t : List InvEntry) (r : Reader), r.pos.toNat ≤ 8 * source.length →
      8 * source.length < r.pos.toNat + 40 * k →
      ∃ r', parseEntries ask source k t r = .invalidHeader r' := by
  have field : ∀ (n : Nat) (r : Reader) (rest : Nat → Reader → ParseRes), r.pos.toNat ≤ 8 * source.length →
      (∀ v r', r.pos.toNat + n ≤ 8 * source.length → r'.pos.toNat = r.pos.toNat + n →
        ∃ r'', rest v r' = .invalidHeader r'') →
      ∃ r'', parseField ask source n r rest = .invalidHeader r'' := by
    intro n r rest hr h
    by_cases hl : r.pos.toNat + n ≤ 8 * source.length
    · rw [parseField_long hask hl]
      exact h _ _ hl (pos_add_toNat hl hs)
    · exact ⟨r, parseField_short (by omega)⟩
  induction k with
  | zero => intro t r h1 h2; omega
  | succ k ih =>
    intro t r h1 h2
    simp only [parseEntries]
    refine field 8 r _ h1 fun len r1 l1 e1 => ?_
    refine field 16 r1 _ (by omega) fun bits r2 l2 e2 => ?_
    refine field 8 r2 _ (by omega) fun slen r3 l3 e3 => ?_
    split
    · refine field 8 r3 _ (by omega) fun sym r4 l4 e4 => ?_
      split
      · exact ih _ _ (by omega) (by omega)
      · exact ⟨r4, rfl⟩
    · exact ⟨r3, rfl⟩

/-- What the loop makes of entries that stand whole in the source: their map when they are consistent with the
table, else InvalidHeader (R202, R203). -/
theorem parseEntries_raw (hask : ∀ k, ask k = .ok) (hs : source.length < 2 ^ 61)
    (es : List (InvEntry × BitVec 8)) :
    ∀ (t : List InvEntry) (r : Reader), ConsistentDict t →
      BitsAt source r.pos.toNat (es.flatMap rawEntryBits) →
      ((ConsistentDict (t ++ es.map (·.1)) ∧ ∀ p ∈ es, p.2 = 1) →
        ∃ u, parseEntries ask source es.length t r =
            .ok u { r with pos := r.pos + BitVec.ofNat 64 (40 * es.length) }
          ∧ u.Perm (t ++ es.map (·.1)))
      ∧ (¬ (ConsistentDict (t ++ es.map (·.1)) ∧ ∀ p ∈ es, p.2 = 1) →
        ∃ r', parseEntries ask source es.length t r = .invalidHeader r') := by
  induction es with
  | nil =>
    intro t r ht _
    exact ⟨fun _ => ⟨t, by simp [parseEntries], by simp⟩, fun h => absurd ⟨by simpa using ht, by simp⟩ h⟩
  | cons p es ih =>
    intro t r ht hb
    obtain ⟨e, slen⟩ := p
    rw [List.flatMap_cons] at hb
    have hp := hb.left
    have h40 : (rawEntryBits (e, slen)).length = 40 := by simp [rawEntryBits, length_bitsMsb]
    have hle : r.pos.toNat + 40 ≤ 8 * source.length := by
      have := hp.length_le (by intro h; rw [h] at h40; simp at h40)
      rwa [h40] at this
    have step : ∀ n m : Nat, n + m ≤ 40 →
        ({ r with pos := r.pos + BitVec.ofNat 64 n } : Reader).pos.toNat = r.pos.toNat + n := by
      intro n m h
      exact pos_add_toNat (by omega) hs
    have b3 := hp.left
    have b2 := b3.left
    have f1 := b2.left
    have f2 := b2.right
    have f3 := b3.right
    have f4 := hp.right
    simp only [length_bitsMsb, List.length_append] at f2 f3 f4
    simp only [List.length_cons, parseEntries]
    rw [parseField_of_bits (fun i _ => hask i) (by omega) e.code.len.isLt f1]
    rw [parseField_of_bits (fun i _ => hask i) (by omega) e.code.bits.isLt (by rw [step 8 0 (by omega)]; exact f2)]
    rw [parseField_of_bits (fun i _ => hask i) (by omega) slen.isLt
      (by simp only [BitVec.add_assoc, ← BitVec.ofNat_add]; rw [step 24 0 (by omega)]; exact f3)]
    by_cases hsl : slen.toNat = Config.symbolBytes
    · rw [if_pos hsl]
      have hsl1 : slen = 1 := BitVec.eq_of_toNat_eq hsl
      rw [parseField_of_bits (fun i _ => hask i) (by omega) e.sym.isLt
        (by simp only [BitVec.add_assoc, ← BitVec.ofNat_add]; rw [step 32 0 (by omega)]; exact f4)]
      simp only [BitVec.ofNat_toNat, BitVec.setWidth_eq, BitVec.add_assoc, ← BitVec.ofNat_add]
      have hperm := insertEntry_perm e t
      have hperm2 : (insertEntry e t ++ es.map (·.1)).Perm (t ++ (e :: es.map (·.1))) :=
        (hperm.append_right _).trans (by simpa using (List.perm_middle (a := e) (l₁ := t) (l₂ := es.map (·.1))).symm)
      by_cases hc : checkEntry t e = true
      · rw [if_pos hc]
        have := ih (insertEntry e t) { r with pos := r.pos + BitVec.ofNat 64 40 } (insertEntry_consistent ht hc)
          (by rw [step 40 0 (by omega)]; have := hb.right; rw [h40] at this; exact this)
        have hiff : (ConsistentDict (t ++ List.map (·.1) ((e, slen) :: es)) ∧ ∀ p ∈ (e, slen) :: es, p.2 = 1) ↔
            (ConsistentDict (insertEntry e t ++ List.map (·.1) es) ∧ ∀ p ∈ es, p.2 = 1) := by
          simp only [List.map_cons, List.mem_cons, forall_eq_or_imp, hsl1, true_and]
          exact and_congr_left fun _ => ⟨fun h => h.perm hperm2.symm, fun h => h.perm hperm2⟩
        rw [hiff]
        refine ⟨fun hcons => ?_, this.2⟩
        obtain ⟨u, h1, h2⟩ := this.1 hcons
        refine ⟨u, ?_, h2.trans hperm2⟩
        rw [h1]
        congr 1
        simp only [Reader.mk.injEq, and_true]
        rw [BitVec.add_assoc, ← BitVec.ofNat_add]
        congr 2; omega
      · rw [if_neg hc]
        refine ⟨fun h => absurd ?_ hc, fun _ => ⟨_, rfl⟩⟩
        rw [checkEntry_iff ht.1]
        have h3 : ConsistentDict (e :: (t ++ es.map (·.1))) :=
          (h.1.perm hperm2.symm).perm (hperm.append_right _)
        have h4 := (consistentDict_cons_iff.mp h3).1
        exact ⟨h4.1, fun x hx => h4.2 x (List.mem_append_left _ hx)⟩
    · rw [if_neg hsl]
      refine ⟨fun h => absurd ?_ hsl, fun _ => ⟨_, rfl⟩⟩
      have := h.2 (e, slen) (by simp)
      simp only at this
      subst this
      rfl

/-- Byte q is the first of the field's bytes that is not transferred, or the parse goes on behind the field. -/
theorem parseField_io {n v q : Nat} {rest : Nat → Reader → ParseRes} (hn : n ≠ 0) (hv : v < 2 ^ n)
    (hb : BitsAt source r.pos.toNat (bitsMsb n v)) (hq : r.pos.toNat / 8 ≤ q)
    (hask : ∀ k, r.pos.toNat / 8 ≤ k → k < q → ask k = .ok) (hf : ask q = .fail)
    (hrest : r.pos.toNat + n ≤ 8 * q → ∃ r', rest v { r with pos := r.pos + BitVec.ofNat 64 n } = .io r') :
    ∃ r', parseField ask source n r rest = .io r' := by
  have hin : r.pos.toNat + n ≤ 8 * source.length := by
    have := hb.length_le (by intro h; have := congrArg List.length h; simp [length_bitsMsb] at this; omega)
    rwa [length_bitsMsb] at this
  by_cases h : r.pos.toNat + n ≤ 8 * q
  · rw [parseField_of_bits (fun i hi => ?_) hn hv hb]
    · exact hrest h
    · have := (mem_bytesOfBits (by omega) i).mp hi
      exact hask i (by omega) (by omega)
  · have hio : readBits ask source n r = .io :=
      readBits_eq_io_iff.mpr ⟨hin, transferAll_bytesOfBits_fail hq (by omega) hask hf⟩
    exact ⟨r, by simp only [parseField, hio]⟩

/-- Entries that are consistent with the table stand whole in the source, and byte q, which holds bits of theirs alone,
is the first that is not transferred: the parse ends with Io. -/
theorem parseEntries_io (hs : source.length < 2 ^ 61) (es : List (InvEntry × BitVec 8)) :
    ∀ (t : List InvEntry) (r : Reader), ConsistentDict t → ConsistentDict (t ++ es.map (·.1)) →
      (∀ p ∈ es, p.2 = 1) → BitsAt source r.pos.toNat (es.flatMap rawEntryBits) →
      ∀ q, r.pos.toNat ≤ 8 * q → 8 * q < r.pos.toNat + 40 * es.length →
      (∀ k, r.pos.toNat / 8 ≤ k → k < q → ask k = .ok) → ask q = .fail →
      ∃ r', parseEntries ask source es.length t r = .io r' := by
  induction es with
  | nil => intro t r _ _ _ _ q h1 h2; simp at h2; omega
  | cons p es ih =>
    intro t r ht hc h1 hb q hlo hhi hok hf
    obtain ⟨e, slen⟩ := p
    rw [List.flatMap_cons] at hb
    have hp := hb.left
    have h40 : (rawEntryBits (e, slen)).length = 40 := by simp [rawEntryBits, length_bitsMsb]
    have hle : r.pos.toNat + 40 ≤ 8 * source.length := by
      have := hp.length_le (by intro h; rw [h] at h40; simp at h40)
      rwa [h40] at this
    have step : ∀ n : Nat, n ≤ 40 → (r.pos + BitVec.ofNat 64 n).toNat = r.pos.toNat + n :=
      fun n h => pos_add_toNat (by omega) hs
    have b3 := hp.left
    have b2 := b3.left
    have f1 := b2.left
    have f2 := b2.right
    have f3 := b3.right
    have f4 := hp.right
    simp only [length_bitsMsb, List.length_append] at f2 f3 f4
    have hsl : slen = 1 := h1 (e, slen) (by simp)
    simp only [List.length_cons, parseEntries]
    refine parseField_io (by omega) e.code.len.isLt f1 (by omega) hok hf fun g1 => ?_
    refine parseField_io (by omega) e.code.bits.isLt (by rw [step 8 (by omega)]; exact f2)
      (by simp only [step 8 (by omega)]; omega)
      (by simp only [step 8 (by omega)]; exact fun k h => hok k (by omega)) hf fun g2 => ?_
    simp only [BitVec.add_assoc, ← BitVec.ofNat_add, Nat.reduceAdd]
    refine parseField_io (by omega) slen.isLt (by rw [step 24 (by omega)]; exact f3)
      (by simp only [step 8 (by omega)] at g2; simp only [step 24 (by omega)]; omega)
      (by simp only [step 24 (by omega)]; exact fun k h => hok k (by omega)) hf fun g3 => ?_
    rw [if_pos (by rw [hsl]; rfl)]
    simp only [BitVec.add_assoc, ← BitVec.ofNat_add, Nat.reduceAdd]
    refine parseField_io (by omega) e.sym.isLt (by rw [step 32 (by omega)]; exact f4)
      (by simp only [step 24 (by omega)] at g3; simp only [step 32 (by omega)]; omega)
      (by simp only [step 32 (by omega)]; exact fun k h => hok k (by omega)) hf fun g4 => ?_
    simp only [BitVec.ofNat_toNat, BitVec.setWidth_eq, BitVec.add_assoc, ← BitVec.ofNat_add, Nat.reduceAdd]
    simp only [step 32 (by omega)] at g4
    have hperm := insertEntry_perm e t
    have hperm2 : (insertEntry e t ++ es.map (·.1)).Perm (t ++ (e :: es.map (·.1))) :=
      (hperm.append_right _).trans (by simpa using (List.perm_middle (a := e) (l₁ := t) (l₂ := es.map (·.1))).symm)
    have hc' := hc.perm hperm2.symm
    have hce : checkEntry t e = true := by
      rw [checkEntry_iff ht.1]
      have h4 := (consistentDict_cons_iff.mp (hc'.perm (hperm.append_right _))).1
      exact ⟨h4.1, fun x hx => h4.2 x (List.mem_append_left _ hx)⟩
    rw [if_pos hce]
    refine ih _ _ (insertEntry_consistent ht hce) hc' (fun p hp => h1 p (by simp [hp])) ?_ q ?_ ?_ ?_ hf
    · rw [step 40 (by omega)]; have := hb.right; rw [h40] at this; exact this
    · rw [step 40 (by omega)]; omega
    · rw [step 40 (by omega)]; simp only [List.length_cons] at hhi; omega
    · rw [step 40 (by omega)]; exact fun k h => hok k (by omega)

/-! ### Next states -/

theorem execDecNew_eq_next_iff : execDecNew s = .next t ↔
    (s.dec.iof = true ∧ t = s.withCode .io)
    ∨ (s.dec.iof = false ∧
        ((∃ u r, parseHeader (s.answer .dsrc) s.params.dsrc { pos := s.arg0, pb := [] } = .ok u r
            ∧ t = ((s.withDec (s.dec.construct u r)).withRes r.pos).withCode .ok)
          ∨ (∃ r, parseHeader (s.answer .dsrc) s.params.dsrc { pos := s.arg0, pb := [] } = .invalidHeader r
            ∧ t = (s.withDec (s.dec.discard r)).withCode .invalidHeader)
          ∨ ∃ r, parseHeader (s.answer .dsrc) s.params.dsrc { pos := s.arg0, pb := [] } = .io r
            ∧ t = (s.withDec (s.dec.discard r).withFault).withCode .io)) := by
  rw [execDecNew, decGuard_eq_next_iff]
  refine or_congr Iff.rfl (and_congr Iff.rfl ?_)
  simp only [Reader.setPosition]
  cases parseHeader (s.answer .dsrc) s.params.dsrc { pos := s.arg0, pb := [] } <;>
    simp [State.done, State.raise, eq_comm]

/-- DEC at the start of DEC_DECODE: `SetPosition(DR, ARG0)` (R204). -/
def State.decAtArg0 (s : State) : Dec := { s.dec with rd := { pos := s.arg0, pb := [] } }

theorem execDecDecode_eq_next_iff : execDecDecode s = .next t ↔
    (s.dec.iof = true ∧ t = s.withCode .io)
    ∨ (s.dec.iof = false ∧ s.dec.dstate ≠ .ready ∧ t = s.withCode .invalidState)
    ∨ (s.dec.iof = false ∧ s.dec.dstate = .ready ∧ s.arg1 = 0 ∧ t = (s.withRes 0).withCode .ok)
    ∨ (s.dec.iof = false ∧ s.dec.dstate = .ready ∧ s.arg1 ≠ 0 ∧
        ((∃ d, decodeLoop (s.answer .dsrc) (s.answer .out) s.params.dsrc (bytesOwed s.arg1) s.decAtArg0 = .ok d
            ∧ t = ((s.withDec d).withRes (d.rd.pos - s.arg0)).withCode .ok)
          ∨ (∃ d, decodeLoop (s.answer .dsrc) (s.answer .out) s.params.dsrc (bytesOwed s.arg1) s.decAtArg0
              = .corrupt d
            ∧ t = ((s.withDec d).withRes (d.rd.pos - s.arg0)).withCode .corruptStream)
          ∨ ∃ d, decodeLoop (s.answer .dsrc) (s.answer .out) s.params.dsrc (bytesOwed s.arg1) s.decAtArg0 = .io d
            ∧ t = (s.withDec d).withCode .io)) := by
  rw [execDecDecode, decGuard_eq_next_iff]
  refine or_congr Iff.rfl ?_
  cases hf : s.dec.iof
  · by_cases hr : s.dec.dstate = .ready
    · by_cases h0 : s.arg1 = 0
      · simp [hr, h0, State.done, eq_comm]
      · simp only [if_pos hr, if_neg h0]
        change (_ ∧ (match decodeLoop (s.answer .dsrc) (s.answer .out) s.params.dsrc (bytesOwed s.arg1)
          s.decAtArg0 with
          | .ok d => ((s.withDec d).withRes (d.rd.pos - s.arg0)).done
          | .corrupt d => ((s.withDec d).withRes (d.rd.pos - s.arg0)).raise .corruptStream
          | .io d => (s.withDec d).raise .io
          | .stuck S i => .fault (.transferNeverAnswers S i)) = _) ↔ _
        simp only [hr, h0, ne_eq, not_true_eq_false, not_false_eq_true, false_and, and_false, true_and, false_or]
        cases decodeLoop (s.answer .dsrc) (s.answer .out) s.params.dsrc (bytesOwed s.arg1) s.decAtArg0 <;>
          simp [State.done, State.raise, eq_comm]
    · simp only [if_neg hr, State.raise]
      constructor
      · rintro ⟨-, h⟩; cases h; exact .inl ⟨trivial, hr, rfl⟩
      · rintro (⟨-, -, rfl⟩ | ⟨-, h, -⟩ | ⟨-, h, -⟩)
        · exact ⟨trivial, rfl⟩
        · exact absurd h hr
        · exact absurd h hr
  · simp

end Sys2Proof.Machine
end

