-- ==== Sys2Proof/Laws/Commands.lean ====
section
/-! SUPPORT. Once per unit, every next state a command of the unit can have (60_exceptions R230, R232): the lemmas a
proof over all commands cites instead of unfolding `exec`. -/

namespace Sys2Proof.Machine

/-- The ends of a BR command: the sticky fault, OK with a new cursor, EndOfStream, a new fault (40_bit_reader). -/
def BrEnd (i : Instr) (s t : State) : Prop :=
  (s.br.iof = true ∧ t = s.withCode .io)
  ∨ (s.br.iof = false ∧ ∃ v rd, (hasResult i = false → v = s.res) ∧ (s.br.rd.pb = [] → rd.pb = [])
      ∧ t = ((s.withBrReader rd).withRes v).withCode .ok)
  ∨ (s.br.iof = false ∧ 0 < readWidth i ∧ t = s.withCode .endOfStream)
  ∨ (s.br.iof = false ∧ t = (s.withBr { s.br with iof := true }).withCode .io)

/-- The ends of a BW command: the sticky fault, InvalidState after a release, the cursor, a new writer, a new fault
(41_bit_writer). -/
def BwEnd (i : Instr) (s t : State) : Prop :=
  (s.bw.iof = true ∧ t = s.withCode .io)
  ∨ (s.bw.iof = false ∧ s.bw.rel = true ∧ i ≠ .bwPosition ∧ t = s.withCode .invalidState)
  ∨ (s.bw.iof = false ∧ i = .bwPosition ∧ t = (s.withRes s.bw.wr.pos).withCode .ok)
  ∨ (s.bw.iof = false ∧ s.bw.rel = false ∧ hasResult i = false ∧ ∃ w rel, s.bw.wr.sink <+: w.sink
      ∧ (∀ b, s.bw.wr.Inv b → w.Inv b)
      ∧ t = (s.withBw { wr := w, iof := s.bw.iof, rel := rel }).withCode .ok)
  ∨ (s.bw.iof = false ∧ s.bw.rel = false ∧ ∃ w, s.bw.wr.sink <+: w.sink
      ∧ t = (s.withBw { wr := w, iof := true, rel := s.bw.rel }).withCode .io)

/-- The ends of an ENC command: the sticky fault, InvalidState by the state table, and an end inside the command
with ESTATE, the fault flag, RES and EW as its code says (43_encoder). -/
def EncEnd (i : Instr) (s t : State) : Prop :=
  (s.enc.iof = true ∧ t = s.withCode .io)
  ∨ (s.enc.iof = false ∧ encRunsIn i s.enc.estate = false ∧ t = s.withCode .invalidState)
  ∨ (s.enc.iof = false ∧ encRunsIn i s.enc.estate = true ∧ ∃ e v c, t = ((s.withEnc e).withRes v).withCode c
      ∧ e.estate = estateAfter i c s.enc.estate
      ∧ (e.iof = true ↔ c = .io)
      ∧ mayEndWith i c = true ∧ c ≠ .invalidState
      ∧ (hasResult i = false → v = s.res) ∧ (c ≠ .ok → c ≠ .unknownSymbol → v = s.res)
      ∧ s.enc.ew.sink <+: e.ew.sink
      ∧ (e.iof = false → ∀ b, s.enc.ew.Inv b → e.ew.Inv b)
      ∧ (i ≠ .encAnalyze → e.freq = s.enc.freq ∧ e.total = s.enc.total)
      ∧ (i ≠ .encAnalyzeFinish → e.tree = s.enc.tree ∧ e.dict = s.enc.dict
          ∧ e.payloadStart = s.enc.payloadStart))

/-- The ends of a DEC command: the sticky fault, InvalidState, and an end inside the command (44_decoder). -/
def DecEnd (i : Instr) (s t : State) : Prop :=
  (s.dec.iof = true ∧ t = s.withCode .io)
  ∨ (s.dec.iof = false ∧ i = .decDecode ∧ s.dec.dstate ≠ .ready ∧ t = s.withCode .invalidState)
  ∨ (s.dec.iof = false ∧ ∃ d v c, t = ((s.withDec d).withRes v).withCode c
      ∧ (d.iof = true ↔ c = .io)
      ∧ mayEndWith i c = true ∧ c ≠ .invalidState
      ∧ (c ≠ .ok → c ≠ .corruptStream → v = s.res)
      ∧ s.dec.out <+: d.out ∧ (s.dec.rd.pb = [] → d.rd.pb = [])
      ∧ (i = .decDecode → d.dstate = s.dec.dstate ∧ d.inv = s.dec.inv ∧ d.maxLen = s.dec.maxLen)
      ∧ (i = .decNew → d.out = s.dec.out
          ∧ ((c = .ok ∧ d.dstate = .ready ∧ ConsistentDict d.inv ∧ d.maxLen.toNat = maxLenOf d.inv)
            ∨ (c ≠ .ok ∧ d.dstate = .unconstructed ∧ d.inv = [] ∧ d.maxLen = 0))))

/-- Every next state of a BR command is one of these. -/
theorem br_cases {i : Instr} {s t : State} (hi : unitOf i = .br) (h : exec i s = .next t) :
    BrEnd i s t := by
  have wide : ∀ n i, 0 < readWidth i → hasResult i = true → brRead n s = .next t → BrEnd i s t := by
    intro n i hw hr h
    rw [brRead, brGuard_eq_next_iff, brFinish_eq_next_iff] at h
    obtain ⟨h1, rfl⟩ | ⟨h1, ⟨v, rd, hh, rfl⟩ | ⟨-, rfl⟩ | ⟨-, rfl⟩⟩ := h
    · exact .inl ⟨h1, rfl⟩
    · obtain ⟨-, -, -, rfl⟩ := readBits_eq_ok_iff.mp hh
      exact .inr (.inl ⟨h1, resWord v, { s.br.rd with pos := s.br.rd.pos + BitVec.ofNat 64 n }, by simp [hr], fun h => h, rfl⟩)
    · exact .inr (.inr (.inl ⟨h1, hw, rfl⟩))
    · exact .inr (.inr (.inr ⟨h1, rfl⟩))
  cases i <;> simp only [unitOf, reduceCtorEq] at hi
  · simp only [exec, execBrReadBit] at h
    rw [brGuard_eq_next_iff, brFinish_eq_next_iff] at h
    obtain ⟨h1, rfl⟩ | ⟨h1, ⟨v, rd, hh, rfl⟩ | ⟨-, rfl⟩ | ⟨-, rfl⟩⟩ := h
    · exact .inl ⟨h1, rfl⟩
    · cases hr : readBit (s.answer .src) s.params.src s.br.rd <;> rw [hr] at hh <;> simp [ReadRes.bitValue] at hh
      obtain ⟨-, rfl⟩ := hh
      obtain ⟨-, -, -, rfl⟩ := readBit_eq_ok_iff.mp hr
      exact .inr (.inl ⟨h1, resWord v, { s.br.rd with pos := s.br.rd.pos + 1 }, by simp [hasResult], fun h => h, rfl⟩)
    · exact .inr (.inr (.inl ⟨h1, by decide, rfl⟩))
    · exact .inr (.inr (.inr ⟨h1, rfl⟩))
  · exact wide 8 _ (by decide) rfl h
  · exact wide 16 _ (by decide) rfl h
  · exact wide 32 _ (by decide) rfl h
  · exact wide 64 _ (by decide) rfl h
  · simp only [exec, execBrSkipBits] at h
    rw [brGuard_eq_next_iff] at h
    obtain ⟨h1, rfl⟩ | ⟨h1, h⟩ := h
    · exact .inl ⟨h1, rfl⟩
    · cases h; exact .inr (.inl ⟨h1, s.res, s.br.rd.skip s.arg0, by simp, fun _ => rfl, rfl⟩)
  · simp only [exec, execBrSetPosition] at h
    rw [brGuard_eq_next_iff] at h
    obtain ⟨h1, rfl⟩ | ⟨h1, h⟩ := h
    · exact .inl ⟨h1, rfl⟩
    · cases h; exact .inr (.inl ⟨h1, s.res, s.br.rd.setPosition s.arg0, by simp, fun _ => rfl, rfl⟩)
  · simp only [exec, execBrPosition] at h
    rw [brGuard_eq_next_iff] at h
    obtain ⟨h1, rfl⟩ | ⟨h1, h⟩ := h
    · exact .inl ⟨h1, rfl⟩
    · cases h; exact .inr (.inl ⟨h1, _, s.br.rd, by simp [hasResult], fun h => h, rfl⟩)

/-- Every next state of a BW command is one of these. -/
theorem bw_cases {i : Instr} {s t : State} (hi : unitOf i = .bw) (h : exec i s = .next t) :
    BwEnd i s t := by
  have gen : ∀ (i : Instr) (rel : Bool) (r : WriteRes), i ≠ .bwPosition → hasResult i = false →
      (∀ w, r = .ok w → s.bw.wr.sink <+: w.sink ∧ ∀ b, s.bw.wr.Inv b → w.Inv b) → (∀ w, r = .io w → s.bw.wr.sink <+: w.sink) →
      bwGuard s (bwFinish s rel r) = .next t → BwEnd i s t := by
    intro i rel r hne hres h1 h2 h
    rw [bwGuard_eq_next_iff, bwFinish_eq_next_iff] at h
    obtain ⟨hf, rfl⟩ | ⟨hf, hr, rfl⟩ | ⟨hf, hr, ⟨w, rfl, rfl⟩ | ⟨w, rfl, rfl⟩⟩ := h
    · exact .inl ⟨hf, rfl⟩
    · exact .inr (.inl ⟨hf, hr, hne, rfl⟩)
    · exact .inr (.inr (.inr (.inl ⟨hf, hr, hres, w, rel, (h1 w rfl).1, (h1 w rfl).2, rfl⟩)))
    · exact .inr (.inr (.inr (.inr ⟨hf, hr, w, h2 w rfl, rfl⟩)))
  have wide : ∀ (i : Instr) n, i ≠ .bwPosition → hasResult i = false → bwWrite n s = .next t → _ := fun i n hne hres h => gen i s.bw.rel _ hne hres
    (fun w hw => ⟨by have := writeAll_sink .bwSink (s.answer .bwSink) (bitsMsb n (argLow n s.arg0)) s.bw.wr; rw [show writeAll _ _ _ _ = _ from hw] at this; exact this, fun b hb => writeAll_ok_inv hw hb⟩)
    (fun w hw => by have := writeAll_sink .bwSink (s.answer .bwSink) (bitsMsb n (argLow n s.arg0)) s.bw.wr; rw [show writeAll _ _ _ _ = _ from hw] at this; exact this) h
  have fl : ∀ (i : Instr) rel, i ≠ .bwPosition → hasResult i = false → bwGuard s (bwFinish s rel (flush .bwSink (s.answer .bwSink) s.bw.wr)) = .next t → _ := fun i rel hne hres h => gen i rel _ hne hres
    (fun w hw => ⟨by
        obtain ⟨h0, e⟩ | ⟨h0, -, e⟩ | ⟨-, -, e⟩ | ⟨-, -, e⟩ := flush_cases .bwSink (s.answer .bwSink) s.bw.wr <;> rw [e] at hw <;> cases hw
        · exact List.prefix_refl _
        · exact ⟨[_], rfl⟩, fun b hb => flush_ok_inv hw hb⟩)
    (fun w hw => by
        obtain ⟨h0, e⟩ | ⟨h0, -, e⟩ | ⟨-, -, e⟩ | ⟨-, -, e⟩ := flush_cases .bwSink (s.answer .bwSink) s.bw.wr <;> rw [e] at hw <;> cases hw
        exact List.prefix_refl _) h
  cases i <;> simp only [unitOf, reduceCtorEq] at hi
  · refine gen _ s.bw.rel _ (by simp) rfl (fun w hw => ⟨?_, fun b hb => writeBit_ok_inv hw hb⟩) (fun w hw => ?_) h
    · have := writeBit_sink .bwSink (s.answer .bwSink) ‹_› s.bw.wr; rw [hw] at this; exact this
    · have := writeBit_sink .bwSink (s.answer .bwSink) ‹_› s.bw.wr; rw [hw] at this; rw [this]
  · exact wide _ 8 (by simp) rfl h
  · exact wide _ 16 (by simp) rfl h
  · exact wide _ 32 (by simp) rfl h
  · exact wide _ 64 (by simp) rfl h
  · exact fl _ _ (by simp) rfl h
  · simp only [exec, execBwPosition] at h
    rw [bwGuardIo_eq_next_iff] at h
    obtain ⟨h, rfl⟩ | ⟨h, h2⟩ := h
    · exact .inl ⟨h, rfl⟩
    · cases h2; exact .inr (.inr (.inl ⟨h, rfl, rfl⟩))
  · exact fl _ _ (by simp) rfl h

/-- Every next state of an ENC command is one of these. -/
theorem enc_cases {i : Instr} {s t : State} (hi : unitOf i = .enc) (h : exec i s = .next t) : EncEnd i s t := by
  have flushes : ∀ (i : Instr) (legal : EState → Bool) (e : EState), legal s.enc.estate = encRunsIn i s.enc.estate →
      estateAfter i .ok s.enc.estate = e → estateAfter i .io s.enc.estate = s.enc.estate →
      hasResult i = false → i ≠ .encAnalyze → i ≠ .encAnalyzeFinish →
      encGuard legal s (encFlush e s) = .next t → EncEnd i s t := by
    intro i legal e hl he hio hr hn1 hn2 h
    rw [encGuard_eq_next_iff, encFlush_eq_next_iff, hl] at h
    obtain ⟨hf, rfl⟩ | ⟨hf, hx, rfl⟩ | ⟨hf, hx, ⟨w, hw, rfl⟩ | ⟨w, hw, rfl⟩⟩ := h
    · exact .inl ⟨hf, rfl⟩
    · exact .inr (.inl ⟨hf, hx, rfl⟩)
    · refine .inr (.inr ⟨hf, hx, (s.enc.withEw w).withEState e, s.res, .ok, rfl, he.symm, ?_, rfl, by simp, fun _ => rfl,
        fun _ _ => rfl, ?_, fun _ b hb => flush_ok_inv hw hb, fun _ => ⟨rfl, rfl⟩, fun _ => ⟨rfl, rfl, rfl⟩⟩)
      · show s.enc.iof = true ↔ _
        simp [hf]
      · obtain ⟨-, e⟩ | ⟨-, -, e⟩ | ⟨-, -, e⟩ | ⟨-, -, e⟩ := flush_cases .eSink (s.answer .eSink) s.enc.ew <;>
          rw [e] at hw <;> cases hw
        · exact List.prefix_refl _
        · exact ⟨[_], rfl⟩
    · refine .inr (.inr ⟨hf, hx, (s.enc.withEw w).withFault, s.res, .io, rfl, hio.symm, ?_, rfl, by simp, fun _ => rfl,
        fun _ _ => rfl, ?_, fun h => (nomatch h), fun _ => ⟨rfl, rfl⟩, fun _ => ⟨rfl, rfl, rfl⟩⟩)
      · show true = true ↔ _
        simp
      · obtain ⟨-, e⟩ | ⟨-, -, e⟩ | ⟨-, -, e⟩ | ⟨-, -, e⟩ := flush_cases .eSink (s.answer .eSink) s.enc.ew <;>
          rw [e] at hw <;> cases hw
        exact List.prefix_refl _
  cases i <;> simp only [unitOf, reduceCtorEq] at hi
  · -- ENC_ANALYZE
    obtain ⟨hf, rfl⟩ | ⟨hf, hx, rfl⟩ | ⟨hf, hx, hl, ⟨e, he, rfl⟩ | ⟨e, he, rfl⟩⟩ := execEncAnalyze_eq_next_iff.mp h
    · exact .inl ⟨hf, rfl⟩
    · exact .inr (.inl ⟨hf, by simpa [encRunsIn] using hx, rfl⟩)
    · obtain ⟨-, rfl⟩ := analyzeLoop_eq_ok_iff.mp he
      rw [countSymbols_frame]
      exact .inr (.inr ⟨hf, by simpa [encRunsIn] using hx, _, _, .ok, rfl, rfl, by simp [hf], rfl, by simp,
        fun h => (nomatch h), fun h => absurd rfl h, List.prefix_refl _, fun _ b hb => hb, fun h => absurd rfl h,
        fun _ => ⟨rfl, rfl, rfl⟩⟩)
    · obtain ⟨k, -, -, -, rfl⟩ := analyzeLoop_eq_io_iff.mp he
      rw [countSymbols_frame]
      generalize List.foldl Enc.countSymbol s.enc (s.input.take k) = u
      exact .inr (.inr ⟨hf, by simpa [encRunsIn] using hx,
        { s.enc with freq := u.freq, total := u.total, iof := true }, s.res, .io, rfl, rfl, by simp, rfl, by simp,
        fun _ => rfl, fun _ _ => rfl, List.prefix_refl _, fun h => (nomatch h), fun h => absurd rfl h,
        fun _ => ⟨rfl, rfl, rfl⟩⟩)
  · -- ENC_ANALYZE_FINISH
    obtain ⟨hf, rfl⟩ | ⟨hf, hx, rfl⟩ | ⟨hf, hx, ⟨hl, rfl⟩ | ⟨hl, ⟨w, hw, rfl⟩ | ⟨w, hw, rfl⟩⟩⟩ :=
      execEncAnalyzeFinish_eq_next_iff.mp h
    · exact .inl ⟨hf, rfl⟩
    · exact .inr (.inl ⟨hf, by simpa [encRunsIn] using hx, rfl⟩)
    · refine .inr (.inr ⟨hf, by simpa [encRunsIn] using hx, s.enc.buildCode.withEState .failed,
        s.res, .codeTooLong, rfl, rfl, ?_, rfl, by simp,
        fun _ => rfl, fun _ _ => rfl, List.prefix_refl _, fun _ b hb => hb, fun _ => ⟨rfl, rfl⟩, fun h => absurd rfl h⟩)
      show s.enc.iof = true ↔ _
      simp [hf]
    · have hs := writeAll_sink .eSink (s.answer .eSink) (headerBits (dictEntries s.enc.buildCode.dict)) s.enc.ew
      rw [hw] at hs
      refine .inr (.inr ⟨hf, by simpa [encRunsIn] using hx, _, _, .ok, rfl, rfl, ?_, rfl, by simp,
        fun h => (nomatch h), fun h => absurd rfl h, hs, fun _ b hb => writeAll_ok_inv hw hb, fun _ => ⟨rfl, rfl⟩,
        fun h => absurd rfl h⟩)
      show s.enc.iof = true ↔ _
      simp [hf]
    · have hs := writeAll_sink .eSink (s.answer .eSink) (headerBits (dictEntries s.enc.buildCode.dict)) s.enc.ew
      rw [hw] at hs
      exact .inr (.inr ⟨hf, by simpa [encRunsIn] using hx, (s.enc.buildCode.withEw w).withFault, s.res, .io, rfl, rfl,
        by simp [Enc.withFault], rfl, by simp, fun _ => rfl, fun _ _ => rfl, hs, fun h => (nomatch h), fun _ => ⟨rfl, rfl⟩, fun h => absurd rfl h⟩)
  · -- ENC_COMPRESS
    have fr := compressLoop_frame (s.answer .input) (s.answer .eSink) 0 s.input s.enc 0
    obtain ⟨hf, rfl⟩ | ⟨hf, hx, rfl⟩ | ⟨hf, hx, ⟨e, k, he, rfl⟩ | ⟨e, k, he, rfl⟩ | ⟨e, he, rfl⟩⟩ :=
      execEncCompress_eq_next_iff.mp h
    · exact .inl ⟨hf, rfl⟩
    · exact .inr (.inl ⟨hf, by simpa [encRunsIn] using hx, rfl⟩)
    · rw [he] at fr
      obtain ⟨bits, w, -, -, hw, rfl, -⟩ := compressLoop_eq_ok_iff.mp he
      refine .inr (.inr ⟨hf, by simpa [encRunsIn] using hx, _, _, .ok, rfl, rfl, ?_, rfl, by simp,
        fun h => (nomatch h), fun h => absurd rfl h, fr.2, fun _ b hb => writeAll_ok_inv hw hb, fun _ => ⟨rfl, rfl⟩,
        fun _ => ⟨rfl, rfl, rfl⟩⟩)
      show s.enc.iof = true ↔ _
      simp [hf]
    · rw [he] at fr
      obtain ⟨fr1, fr2⟩ := fr
      have inv := compressLoop_unknown_inv he
      obtain ⟨w, rfl⟩ : ∃ w, e = s.enc.withEw w := ⟨_, fr1⟩
      refine .inr (.inr ⟨hf, by simpa [encRunsIn] using hx, s.enc.withEw w, _, .unknownSymbol, rfl, rfl, ?_, rfl, by simp,
        fun h => (nomatch h), fun _ h => absurd rfl h, fr2, fun _ b hb => inv b hb, fun _ => ⟨rfl, rfl⟩,
        fun _ => ⟨rfl, rfl, rfl⟩⟩)
      show s.enc.iof = true ↔ _
      simp [hf]
    · rw [he] at fr
      obtain ⟨fr1, fr2⟩ := fr
      obtain ⟨w, rfl⟩ : ∃ w, e = (s.enc.withEw w).withFault := ⟨_, fr1⟩
      exact .inr (.inr ⟨hf, by simpa [encRunsIn] using hx, (s.enc.withEw w).withFault, s.res, .io, rfl, rfl,
        by simp [Enc.withFault], rfl, by simp,
        fun _ => rfl, fun _ _ => rfl, fr2, fun h => (nomatch h), fun _ => ⟨rfl, rfl⟩, fun _ => ⟨rfl, rfl, rfl⟩⟩)
  · exact flushes _ (· == .analyzed) .compressed rfl rfl rfl rfl (by simp) (by simp) h
  · -- ENC_POSITION
    obtain ⟨hf, rfl⟩ | ⟨hf, h2⟩ := encGuardIo_eq_next_iff.mp (h : encGuardIo s _ = _)
    · exact .inl ⟨hf, rfl⟩
    · cases h2
      exact .inr (.inr ⟨hf, rfl, s.enc, s.enc.ew.pos, .ok, rfl, rfl, by simp [hf], rfl, by simp,
        fun h => (nomatch h), fun h => absurd rfl h, List.prefix_refl _, fun _ b hb => hb, fun _ => ⟨rfl, rfl⟩,
        fun _ => ⟨rfl, rfl, rfl⟩⟩)
  · exact flushes _ (· != .released) .released rfl rfl rfl rfl (by simp) (by simp) h

/-- Every next state of a DEC command is one of these. -/
theorem dec_cases {i : Instr} {s t : State} (hi : unitOf i = .dec) (h : exec i s = .next t) : DecEnd i s t := by
  cases i <;> simp only [unitOf, reduceCtorEq] at hi
  · -- DEC_NEW
    have hp := parseHeader_sound (ask := s.answer .dsrc) (source := s.params.dsrc) { pos := s.arg0, pb := [] }
    have hpb : ∀ r : Reader, r.pb = [] → s.dec.rd.pb = [] → r.pb = [] := fun _ h _ => h
    obtain ⟨hf, rfl⟩ | ⟨hf, ⟨u, r, he, rfl⟩ | ⟨r, he, rfl⟩ | ⟨r, he, rfl⟩⟩ := execDecNew_eq_next_iff.mp h
    · exact .inl ⟨hf, rfl⟩
    · rw [he] at hp
      refine .inr (.inr ⟨hf, s.dec.construct u r, r.pos, .ok, rfl, ?_, rfl, by simp, fun h => absurd rfl h,
        List.prefix_refl _, hpb r hp.2,
        fun h => (nomatch h), fun _ => ⟨rfl, .inl ⟨rfl, rfl, hp.1, ?_⟩⟩⟩)
      · show s.dec.iof = true ↔ _
        simp [hf]
      · have := maxLenOf_le hp.1.1
        show (BitVec.ofNat 5 (maxLenOf u)).toNat = maxLenOf u
        rw [BitVec.toNat_ofNat]; exact Nat.mod_eq_of_lt (by omega)
    · rw [he] at hp
      refine .inr (.inr ⟨hf, s.dec.discard r, s.res, .invalidHeader, rfl, ?_, rfl, by simp, fun _ _ => rfl,
        List.prefix_refl _, hpb r hp, fun h => (nomatch h), fun _ => ⟨rfl, .inr ⟨by simp, rfl, rfl, rfl⟩⟩⟩)
      show s.dec.iof = true ↔ _
      simp [hf]
    · rw [he] at hp
      exact .inr (.inr ⟨hf, (s.dec.discard r).withFault, s.res, .io, rfl, by simp [Dec.withFault], rfl, by simp,
        fun _ _ => rfl, List.prefix_refl _, hpb r hp, fun h => (nomatch h), fun _ => ⟨rfl, .inr ⟨by simp, rfl, rfl, rfl⟩⟩⟩)
  · -- DEC_DECODE
    have fr := decodeLoop_frame (s.answer .dsrc) (s.answer .out) s.params.dsrc (bytesOwed s.arg1) s.decAtArg0
    obtain ⟨hf, rfl⟩ | ⟨hf, hr, rfl⟩ | ⟨hf, hr, h0, rfl⟩ | ⟨hf, hr, h0, ⟨d, he, rfl⟩ | ⟨d, he, rfl⟩ | ⟨d, he, rfl⟩⟩ :=
      execDecDecode_eq_next_iff.mp h
    · exact .inl ⟨hf, rfl⟩
    · exact .inr (.inl ⟨hf, rfl, hr, rfl⟩)
    · exact .inr (.inr ⟨hf, s.dec, 0, .ok, rfl, by simp [hf], rfl, by simp, fun h => absurd rfl h, List.prefix_refl _,
        fun h => h, fun _ => ⟨rfl, rfl, rfl⟩, fun h => (nomatch h)⟩)
    · rw [he] at fr
      obtain ⟨f1, f2, f3⟩ := fr
      obtain ⟨rd, out, rfl⟩ : ∃ rd out, d = { s.decAtArg0 with rd := rd, out := out } := ⟨_, _, f1⟩
      refine .inr (.inr ⟨hf, { s.decAtArg0 with rd := rd, out := out }, _, .ok, rfl, ?_, rfl, by simp, fun h => absurd rfl h, f3, fun _ => f2,
        fun _ => ⟨rfl, rfl, rfl⟩, fun h => (nomatch h)⟩)
      show s.dec.iof = true ↔ _
      simp [hf]
    · rw [he] at fr
      obtain ⟨f1, f2, f3⟩ := fr
      obtain ⟨rd, out, rfl⟩ : ∃ rd out, d = { s.decAtArg0 with rd := rd, out := out } := ⟨_, _, f1⟩
      refine .inr (.inr ⟨hf, { s.decAtArg0 with rd := rd, out := out }, _, .corruptStream, rfl, ?_, rfl, by simp, fun _ h => absurd rfl h, f3, fun _ => f2,
        fun _ => ⟨rfl, rfl, rfl⟩, fun h => (nomatch h)⟩)
      show s.dec.iof = true ↔ _
      simp [hf]
    · rw [he] at fr
      obtain ⟨f1, f2, f3⟩ := fr
      obtain ⟨rd, out, rfl⟩ : ∃ rd out, d = { s.decAtArg0 with rd := rd, out := out, iof := true } := ⟨_, _, f1⟩
      exact .inr (.inr ⟨hf, { s.decAtArg0 with rd := rd, out := out, iof := true }, s.res, .io, rfl, by simp, rfl, by simp, fun _ _ => rfl, f3, fun _ => f2,
        fun _ => ⟨rfl, rfl, rfl⟩, fun h => (nomatch h)⟩)

end Sys2Proof.Machine
end

