-- ==== Sys2Proof/Laws/PerInstr.lean ====
section
/-! SUPPORT. Per instruction: the word `encode` gives passes the checks on a command word's fields, which
WellFormed.lean writes from 30_encoding R70, R73 and R76 without the opcode map. -/

namespace Sys2Proof.Laws.LegalWord

/-- The fields of the instruction's word are well formed. -/
def Statement (i : Instr) : Prop := (splitWord (encode i)).wf = true

theorem brReadBit : Statement .brReadBit := by unfold Statement; decide
theorem brReadU8 : Statement .brReadU8 := by unfold Statement; decide
theorem brReadU16 : Statement .brReadU16 := by unfold Statement; decide
theorem brReadU32 : Statement .brReadU32 := by unfold Statement; decide
theorem brReadU64 : Statement .brReadU64 := by unfold Statement; decide
theorem brSkipBits : Statement .brSkipBits := by unfold Statement; decide
theorem brSetPosition : Statement .brSetPosition := by unfold Statement; decide
theorem brPosition : Statement .brPosition := by unfold Statement; decide
theorem bwWriteBit (b : Bool) : Statement (.bwWriteBit b) := by cases b <;> (unfold Statement; decide)
theorem bwWriteU8 : Statement .bwWriteU8 := by unfold Statement; decide
theorem bwWriteU16 : Statement .bwWriteU16 := by unfold Statement; decide
theorem bwWriteU32 : Statement .bwWriteU32 := by unfold Statement; decide
theorem bwWriteU64 : Statement .bwWriteU64 := by unfold Statement; decide
theorem bwFlush : Statement .bwFlush := by unfold Statement; decide
theorem bwPosition : Statement .bwPosition := by unfold Statement; decide
theorem bwRelease : Statement .bwRelease := by unfold Statement; decide
theorem encAnalyze : Statement .encAnalyze := by unfold Statement; decide
theorem encAnalyzeFinish : Statement .encAnalyzeFinish := by unfold Statement; decide
theorem encCompress : Statement .encCompress := by unfold Statement; decide
theorem encCompressFinish : Statement .encCompressFinish := by unfold Statement; decide
theorem encPosition : Statement .encPosition := by unfold Statement; decide
theorem encRelease : Statement .encRelease := by unfold Statement; decide
theorem decNew : Statement .decNew := by unfold Statement; decide
theorem decDecode : Statement .decDecode := by unfold Statement; decide

end Sys2Proof.Laws.LegalWord
end

