-- ==== Sys2Proof/Laws/PickOrder.lean ====
section
/-! SUPPORT. The order of the picks (42_tree_dictionary R142, R143): by weight, then by index, where the leaves stand
first in the arena; every pick comes before everything still in the queues. -/

namespace Sys2Proof.Machine

/-- Node i is picked before node j: the lighter one, then the one with the lower index. -/
def PickLt (arena : List Node) (i j : Nat) : Prop :=
  weightNat arena i < weightNat arena j ∨ (weightNat arena i = weightNat arena j ∧ i < j)

theorem PickLt.trans {arena : List Node} {i j k : Nat} (h1 : PickLt arena i j) (h2 : PickLt arena j k) :
    PickLt arena i k := by
  unfold PickLt at *; omega

/-- The picks so far: the first of a pair before the second, every pick before what is left in the queues, a pair before
the next; no node weighs 0. -/
structure Forest.InOrder (f : Forest) : Prop where
  pos  : ∀ i < f.arena.length, 1 ≤ weightNat f.arena i
  pair : ∀ (i : Nat) (nd : Node) (l r : Nat), f.arena[i]? = some nd → nd.kind = .internal l r →
           PickLt f.arena l r ∧ ∀ q ∈ f.lq ++ f.iq, PickLt f.arena r q
  next : ∀ (i j : Nat) (m n : Node) (l r l' r' : Nat), i < j → f.arena[i]? = some m → m.kind = .internal l r →
           f.arena[j]? = some n → n.kind = .internal l' r' → PickLt f.arena r l'

theorem start_inOrder (leaves : List SymCount) (hp : ∀ p ∈ leaves, 0 < p.2.toNat) :
    (Forest.start leaves).InOrder := by
  have leaf : ∀ (i : Nat) (nd : Node) (l r : Nat), (Forest.start leaves).arena[i]? = some nd →
      nd.kind ≠ .internal l r := by
    intro i nd l r h1 h2
    simp only [Forest.start, List.getElem?_map, Option.map_eq_some_iff] at h1
    obtain ⟨p, -, rfl⟩ := h1
    simp [leafNode] at h2
  refine ⟨fun i hi => ?_, fun i nd l r h1 h2 => (leaf i nd l r h1 h2).elim,
    fun i j m n l r l' r' _ h1 h2 => (leaf i m l r h1 h2).elim⟩
  simp only [Forest.start, List.length_map] at hi
  have := hp _ (List.getElem_mem hi)
  exact Nat.succ_le_iff.mpr (by simpa [weightNat, weightAt, Forest.start, leafNode, hi] using this)

/-- A pick comes before everything else in the queues. -/
theorem pick_first {f f1 : Forest} {a : Nat} (hs : f.lq.Pairwise (PickLt f.arena))
    (hq : f.iq.Pairwise (PickLt f.arena)) (hlt : ∀ i ∈ f.lq, ∀ j ∈ f.iq, i < j) (h1 : f.pick = some (a, f1)) :
    (∀ i ∈ f1.lq ++ f1.iq, PickLt f.arena a i)
      ∧ f1.lq.Pairwise (PickLt f.arena) ∧ f1.iq.Pairwise (PickLt f.arena) ∧ ∀ i ∈ f1.lq, ∀ j ∈ f1.iq, i < j := by
  rcases pick_cases h1 with ⟨l, g, rfl, hle⟩ | ⟨q, g, rfl, hle⟩
  · rw [g] at hs hlt
    rw [List.pairwise_cons] at hs
    refine ⟨fun i hi => ?_, hs.2, hq, fun i hi => hlt i (List.mem_cons_of_mem _ hi)⟩
    rcases List.mem_append.mp hi with hi | hi
    · exact hs.1 i hi
    · simp only at hi
      have hai := hlt a List.mem_cons_self
      cases hiq : f.iq with
      | nil => rw [hiq] at hi; simp at hi
      | cons b q =>
        rw [hiq] at hi hq hai
        have hb := hle b (by rw [hiq]; rfl)
        have hab : PickLt f.arena a b := by
          have := hai b List.mem_cons_self
          unfold PickLt weightNat; omega
        rcases List.mem_cons.mp hi with rfl | hi
        · exact hab
        · exact hab.trans ((List.pairwise_cons.mp hq).1 i hi)
  · rw [g] at hq hlt
    rw [List.pairwise_cons] at hq
    refine ⟨fun i hi => ?_, hs, hq.2, fun i hi j hj => hlt i hi j (List.mem_cons_of_mem _ hj)⟩
    rcases List.mem_append.mp hi with hi | hi
    · simp only at hi
      cases hlq : f.lq with
      | nil => rw [hlq] at hi; simp at hi
      | cons b l =>
        rw [hlq] at hi hs
        have hab : PickLt f.arena a b := .inl (hle b (by rw [hlq]; rfl))
        rcases List.mem_cons.mp hi with rfl | hi
        · exact hab
        · exact hab.trans ((List.pairwise_cons.mp hs).1 i hi)
    · exact hq.1 i hi

/-- Both queues stand in the order of the picks. -/
theorem queues_inOrder {leaves : List SymCount} {f : Forest} (h : f.Grown leaves) (hw : f.Weighed leaves)
    (hl : leaves.Pairwise fun x y => leafLe x y = true) :
    f.lq.Pairwise (PickLt f.arena) ∧ f.iq.Pairwise (PickLt f.arena) ∧ ∀ i ∈ f.lq, ∀ j ∈ f.iq, i < j := by
  obtain ⟨h1, h2⟩ := queues_ascend h hw hl
  have o1 : f.lq.Pairwise (· < ·) := by rw [h.lqEq]; exact List.pairwise_lt_range'
  have o2 : f.iq.Pairwise (· < ·) := by rw [h.iqEq]; exact List.pairwise_lt_range'
  have lt : ∀ {i j : Nat}, weightNat f.arena i ≤ weightNat f.arena j ∧ i < j → PickLt f.arena i j := by
    intro i j hij; unfold PickLt; omega
  refine ⟨(h1.and o1).imp lt, (h2.and o2).imp lt, fun i hi j hj => ?_⟩
  have s2 := h.lqLe
  have s3 := h.iqLe
  rw [h.lqEq, List.mem_range'_1] at hi
  rw [h.iqEq, List.mem_range'_1] at hj
  omega

/-- One merge keeps the order, where the sum of the weights does not overflow. -/
theorem merge_inOrder {leaves : List SymCount} {f f1 f2 : Forest} {a b : Nat} (h : f.Grown leaves)
    (hw : f.Weighed leaves) (ho : f.InOrder) (hl : leaves.Pairwise fun x y => leafLe x y = true)
    (hsum : (leaves.map fun p => p.2.toNat).sum < 2 ^ 64)
    (h1 : f.pick = some (a, f1)) (h2 : f1.pick = some (b, f2)) : (f2.join a b).InOrder := by
  have hwj := merge_weighed h hw hl hsum h1 h2
  have hgj := merge_grown h h1 h2
  obtain ⟨e1, p1⟩ := pick_perm h1
  obtain ⟨e2, p2⟩ := pick_perm h2
  have e : f2.arena = f.arena := e2.trans e1
  have perm : (f.lq ++ f.iq).Perm (a :: b :: (f2.lq ++ f2.iq)) := p1.trans (p2.cons a)
  have ha : a < f.arena.length := h.root_lt (perm.mem_iff.mpr (by simp))
  have hb : b < f.arena.length := h.root_lt (perm.mem_iff.mpr (by simp))
  have hrest : ∀ i ∈ f2.lq ++ f2.iq, i < f.arena.length := fun i hi =>
    h.root_lt (perm.mem_iff.mpr (List.mem_cons_of_mem _ (List.mem_cons_of_mem _ hi)))
  obtain ⟨q1, q2, q3⟩ := queues_inOrder h hw hl
  obtain ⟨la, r1, r2, r3⟩ := pick_first q1 q2 q3 h1
  rw [← e1] at r1 r2
  obtain ⟨lb, -⟩ := pick_first r1 r2 r3 h2
  rw [e1] at lb
  have hab : PickLt f.arena a b := la b (p2.mem_iff.mpr (by simp))
  have hlenj : (f2.join a b).arena.length = f.arena.length + 1 := by simp [Forest.join, e]
  have old : ∀ i, i < f.arena.length → (f2.join a b).arena[i]? = f.arena[i]? := by
    intro i hi; rw [getElem?_join_old _ _ _ _ (by rw [e]; exact hi), e]
  have oldW : ∀ i, i < f.arena.length → weightNat (f2.join a b).arena i = weightNat f.arena i := by
    intro i hi; simp only [weightNat, weightAt, old i hi]
  have oldLt : ∀ i j, i < f.arena.length → j < f.arena.length →
      PickLt f.arena i j → PickLt (f2.join a b).arena i j := by
    intro i j hi hj hij; unfold PickLt; rw [oldW i hi, oldW j hj]; exact hij
  have newGet : ∃ nd, (f2.join a b).arena[f.arena.length]? = some nd ∧ nd.kind = .internal a b := by
    simp only [Forest.join, e]
    exact ⟨_, by simp; rfl, rfl⟩
  obtain ⟨nw, g1, g2⟩ := newGet
  have newW : weightNat (f2.join a b).arena f.arena.length = weightNat f.arena a + weightNat f.arena b := by
    have := hwj.joint _ _ _ _ g1 g2
    rw [oldW a ha, oldW b hb] at this
    rw [← this]; simp [weightNat, weightAt, g1]
  have pa := ho.pos a ha
  have pb := ho.pos b hb
  have hqj : (f2.join a b).lq ++ (f2.join a b).iq = (f2.lq ++ f2.iq) ++ [f.arena.length] := by
    simp [Forest.join, e]
  have kids : ∀ (i : Nat) (nd : Node) (l r : Nat), i < f.arena.length → f.arena[i]? = some nd →
      nd.kind = .internal l r → l < f.arena.length ∧ r < f.arena.length := by
    intro i nd l r hi k1 k2
    have hge : leaves.length ≤ i := by
      by_contra hlt
      rw [h.leaf_get (by omega)] at k1
      cases k1; simp [leafNode] at k2
    obtain ⟨nd', l', r', nl, nr, m1, m2, m3, m4, -⟩ := h.joins i hge hi
    rw [k1] at m1; cases m1
    rw [k2] at m2; cases m2
    omega
  have inside : ∀ {i : Nat} {nd : Node}, (f2.join a b).arena[i]? = some nd →
      i < f.arena.length ∨ i = f.arena.length := by
    intro i nd hi
    by_contra hc
    rw [List.getElem?_eq_none (by omega)] at hi; cases hi
  have toNew : ∀ i, i < f.arena.length → weightNat f.arena i ≤ weightNat f.arena b →
      PickLt (f2.join a b).arena i f.arena.length := by
    intro i hi hle
    unfold PickLt; rw [oldW i hi, newW]; omega
  refine ⟨fun i hi => ?_, fun i nd l r k1 k2 => ?_, fun i j m n l r l' r' hij k1 k2 k3 k4 => ?_⟩
  · rw [hlenj] at hi
    by_cases hlt : i < f.arena.length
    · rw [oldW i hlt]; exact ho.pos i hlt
    · rw [show i = f.arena.length by omega, newW]; omega
  · rcases inside k1 with hi | rfl
    · rw [old i hi] at k1
      obtain ⟨hll, hrl⟩ := kids i nd l r hi k1 k2
      obtain ⟨c1, c2⟩ := ho.pair i nd l r k1 k2
      refine ⟨oldLt l r hll hrl c1, fun q hq => ?_⟩
      rw [hqj] at hq
      rcases List.mem_append.mp hq with hq | hq
      · exact oldLt r q hrl (hrest q hq) (c2 q (perm.mem_iff.mpr (List.mem_cons_of_mem _ (List.mem_cons_of_mem _ hq))))
      · rw [List.mem_singleton.mp hq]
        have := c2 b (perm.mem_iff.mpr (by simp))
        exact toNew r hrl (by unfold PickLt at this; omega)
    · rw [g1] at k1; cases k1
      rw [g2] at k2; cases k2
      refine ⟨oldLt a b ha hb hab, fun q hq => ?_⟩
      rw [hqj] at hq
      rcases List.mem_append.mp hq with hq | hq
      · exact oldLt b q hb (hrest q hq) (lb q hq)
      · rw [List.mem_singleton.mp hq]
        exact toNew b hb (le_refl _)
  · have hi : i < f.arena.length := by rcases inside k3 with hj | hj <;> omega
    rw [old i hi] at k1
    obtain ⟨-, hrl⟩ := kids i m l r hi k1 k2
    rcases inside k3 with hj | rfl
    · rw [old j hj] at k3
      obtain ⟨hll, -⟩ := kids j n l' r' hj k3 k4
      exact oldLt r l' hrl hll (ho.next i j m n l r l' r' hij k1 k2 k3 k4)
    · rw [g1] at k3; cases k3
      rw [g2] at k4; cases k4
      exact oldLt r a hrl ha ((ho.pair i m l r k1 k2).2 a (perm.mem_iff.mpr (by simp)))

/-- The order of the picks at the end of BuildTree. -/
theorem buildForest_inOrder {leaves : List SymCount} (hn : (leaves.map (·.1)).Nodup)
    (hp : ∀ p ∈ leaves, 0 < p.2.toNat) (hl : leaves.Pairwise fun x y => leafLe x y = true)
    (hsum : (leaves.map fun p => p.2.toNat).sum < 2 ^ 64) : (buildForest leaves).InOrder :=
  (mergeLoop_induction (P := fun f => f.Grown leaves ∧ f.Weighed leaves ∧ f.InOrder)
    (fun _ _ _ _ _ h h1 h2 => ⟨merge_grown h.1 h1 h2, merge_weighed h.1 h.2.1 hl hsum h1 h2,
      merge_inOrder h.1 h.2.1 h.2.2 hl hsum h1 h2⟩) leaves.length
    (Forest.start leaves) ⟨start_grown leaves hn, start_weighed leaves, start_inOrder leaves hp⟩
    (by simp [Forest.start])).1.2.2

/-- In a grown forest the order of the picks is that of R142: a leaf's index is below every internal node's. -/
theorem Forest.Grown.before_of_pickLt {leaves : List SymCount} {f : Forest} (h : f.Grown leaves) {i j : Nat}
    {m n : Node} (hi : f.arena[i]? = some m) (hj : f.arena[j]? = some n) (hlt : PickLt f.arena i j) : m.Before i n j := by
  have rank : ∀ {i : Nat} {m : Node}, f.arena[i]? = some m →
      (i < leaves.length ∧ m.kind.rank = 0) ∨ (leaves.length ≤ i ∧ m.kind.rank = 1) := by
    intro i m hi
    by_cases hil : i < leaves.length
    · rw [h.leaf_get hil] at hi; cases hi
      exact .inl ⟨hil, rfl⟩
    · have hlen : i < f.arena.length := by
        by_contra hc; rw [List.getElem?_eq_none (by omega)] at hi; cases hi
      obtain ⟨nd, l, r, -, -, g1, g2, -⟩ := h.joins i (by omega) hlen
      rw [hi] at g1; cases g1
      exact .inr ⟨by omega, by rw [g2]; rfl⟩
  have wi : weightNat f.arena i = m.weight.toNat := by simp [weightNat, weightAt, hi]
  have wj : weightNat f.arena j = n.weight.toNat := by simp [weightNat, weightAt, hj]
  unfold PickLt at hlt
  rw [wi, wj] at hlt
  unfold Node.Before
  rcases rank hi with ⟨h1, h2⟩ | ⟨h1, h2⟩ <;> rcases rank hj with ⟨h3, h4⟩ | ⟨h3, h4⟩ <;> omega

end Sys2Proof.Machine
end

