-- ==== Sys2Proof/Laws/Program.lean ====
section
/-! SUPPORT. What one move of the host does in a run (30_encoding R79, R81): an operand takes a step, a command two. -/

namespace Sys2Proof.Machine

variable {s : State} {ms : List HostMove}

/-- The first operand is written in one step. -/
theorem run_writeArg0 (hc : s.cmd = none) (k : Nat) (v : Word) :
    Sys2Proof.core.run (k + 1) (s.withHost (.writeArg0 v :: ms)) =
      Sys2Proof.core.run k ((s.withHost ms).withArg0 v) := by
  simp only [Host.Core.run, Sys2Proof.core, step, State.withHost_cmd, hc, State.withHost_host]
  rfl

/-- The second operand is written in one step. -/
theorem run_writeArg1 (hc : s.cmd = none) (k : Nat) (v : Word) :
    Sys2Proof.core.run (k + 1) (s.withHost (.writeArg1 v :: ms)) =
      Sys2Proof.core.run k ((s.withHost ms).withArg1 v) := by
  simp only [Host.Core.run, Sys2Proof.core, step, State.withHost_cmd, hc, State.withHost_host]
  rfl

/-- A command is issued in one step and runs in the next. -/
theorem run_issue {i : Instr} (hc : s.cmd = none) (hd : decode (encode i) = some i) (k : Nat) (bytes : List Byte) :
    Sys2Proof.core.run (k + 2) (s.withHost (issueMove i bytes :: ms)) =
      match exec i { s with input := bytes, inputIo := [], host := ms } with
      | .next t => Sys2Proof.core.run k t
      | .fault r => .fault r
      | .refused r => .refused r := by
  have h : ({ s with cmd := none, input := bytes, inputIo := [], host := ms } : State)
      = { s with input := bytes, inputIo := [], host := ms } := by rw [← hc]
  simp only [Host.Core.run, Sys2Proof.core, step, State.withHost, hc, State.hostMove, issueMove, State.withCmd,
    runWord, hd, h]
  cases exec i _ <;> rfl

/-- The host's last command is issued and runs. -/
theorem run_last {i : Instr} (hc : s.cmd = none) (hd : decode (encode i) = some i) (bytes : List Byte) :
    Sys2Proof.core.run 2 (s.withHost [issueMove i bytes]) =
      exec i { s with input := bytes, inputIo := [], host := [] } := by
  rw [run_issue hc hd 0]
  cases exec i _ <;> rfl

/-- A command whose operand the host writes first. -/
theorem run_withOperand {i : Instr} (hc : s.cmd = none) (hd : decode (encode i) = some i) (v : Nat) :
    Sys2Proof.core.run 3 (s.withHost (withOperand v i)) = exec i { s.issued with arg0 := BitVec.ofNat 64 v } := by
  rw [withOperand, run_writeArg0 hc 2]
  exact run_last (s := s.withArg0 (BitVec.ofNat 64 v)) hc hd []

/-- A command whose two operands the host writes first. -/
theorem run_withOperands {i : Instr} (hc : s.cmd = none) (hd : decode (encode i) = some i) (a b : Word) :
    Sys2Proof.core.run 4 (s.withHost [.writeArg0 a, .writeArg1 b, issueMove i []]) =
      exec i { s.issued with arg0 := a, arg1 := b } := by
  have h := run_writeArg1 (s := s.withArg0 a) (ms := [issueMove i []]) hc 2 b
  exact (run_writeArg0 hc 3 a).trans (h.trans (run_last (s := (s.withArg0 a).withArg1 b) hc hd []))

/-- Writing a bit does not look at the host's moves (41_bit_writer R121). -/
theorem execBwWriteBit_withHost {b : Bool} {t : State} (h : execBwWriteBit b s = .next t) (ms : List HostMove) :
    execBwWriteBit b (s.withHost ms) = .next (t.withHost ms) := by
  have ha : (s.withHost ms).answer .bwSink = s.answer .bwSink := rfl
  unfold execBwWriteBit at *
  rw [bwGuard_eq_next_iff, bwFinish_eq_next_iff] at h ⊢
  rw [ha]
  obtain ⟨h1, rfl⟩ | ⟨h1, h2, rfl⟩ | ⟨h1, h2, ⟨w, h3, rfl⟩ | ⟨w, h3, rfl⟩⟩ := h
  · exact .inl ⟨h1, rfl⟩
  · exact .inr (.inl ⟨h1, h2, rfl⟩)
  · exact .inr (.inr ⟨h1, h2, .inl ⟨w, h3, rfl⟩⟩)
  · exact .inr (.inr ⟨h1, h2, .inr ⟨w, h3, rfl⟩⟩)

/-- The bits a host writes one after another, two steps each (30_encoding R80). -/
theorem run_writeBits (hd : ∀ b, decode (encode (.bwWriteBit b)) = some (.bwWriteBit b)) {t : State}
    (bits : List Bool) (hc : s.cmd = none) (hi : s.input = []) (hio : s.inputIo = [])
    (h : runCommands (bits.map .bwWriteBit) s = some t) :
    Sys2Proof.core.run (2 * bits.length) (s.withHost (bits.map fun b => issueMove (.bwWriteBit b) [])) =
      .next (t.withHost []) := by
  induction bits generalizing s with
  | nil => cases h; rfl
  | cons b bits ih =>
    rw [List.map_cons, runCommands] at h
    cases he : exec (.bwWriteBit b) s with
    | next u =>
      rw [he] at h
      have hu : u.cmd = s.cmd ∧ u.input = s.input ∧ u.inputIo = s.inputIo := by
        obtain ⟨-, rfl⟩ | ⟨-, -, -, rfl⟩ | ⟨-, -, rfl⟩ | ⟨-, -, -, w, rel, -, -, rfl⟩ | ⟨-, -, w, -, rfl⟩ :=
          bw_cases rfl he <;> exact ⟨rfl, rfl, rfl⟩
      rw [List.map_cons, List.length_cons, show 2 * (bits.length + 1) = 2 * bits.length + 2 by omega,
        run_issue hc (hd b)]
      have hs : ({ s with input := [], inputIo := [], host := bits.map fun b => issueMove (.bwWriteBit b) [] } : State)
          = s.withHost (bits.map fun b => issueMove (.bwWriteBit b) []) := by rw [← hi, ← hio]; rfl
      rw [hs, show exec (.bwWriteBit b) _ = _ from execBwWriteBit_withHost he _]
      exact ih (hu.1.trans hc) (hu.2.1.trans hi) (hu.2.2.trans hio) h
    | fault r => rw [he] at h; cases h
    | refused r => rw [he] at h; cases h

end Sys2Proof.Machine
end

