-- ==== Sys2Proof/Tests/Slice0.lean ====
section
/-! SUPPORT. The model's own tests and the witnesses of the statements' hypotheses. Expected values are those of
95_test_vectors (named V-...) or of the encoding tables of 30_encoding. -/

namespace Sys2Proof.Tests

open Sys2Proof Sys2Proof.Machine

/-! ### The checks of WellFormed.lean, each with a term it refuses -/

theorem test_opcode_unassigned : (splitWord 0x00000016).opcAssigned = false := by decide
theorem test_reserved_bits : (splitWord 0x00000813).reservedZero = false := by decide
theorem test_width_elsewhere : (splitWord 0x00000105).widthLegal = false := by decide
theorem test_bit_elsewhere : (splitWord 0x00000402).bitLegal = false := by decide

theorem test_line_skip : (Line.brSkipBits (2 ^ 64)).wf = false := by decide
theorem test_line_set_position : (Line.brSetPosition (2 ^ 64)).wf = false := by decide
theorem test_line_write :
    (Line.bwWriteU8 (2 ^ 64)).wf = false ∧ (Line.bwWriteU16 (2 ^ 64)).wf = false
      ∧ (Line.bwWriteU32 (2 ^ 64)).wf = false ∧ (Line.bwWriteU64 (2 ^ 64)).wf = false := by decide
theorem test_line_decoder :
    (Line.decNew (2 ^ 64)).wf = false ∧ (Line.decDecode (2 ^ 64) 0).wf = false
      ∧ (Line.decDecode 0 (2 ^ 64)).wf = false := by decide
theorem test_line_write_bits :
    (Line.bwWriteBits 0 0).wf = false ∧ (Line.bwWriteBits 0 65).wf = false
      ∧ (Line.bwWriteBits (2 ^ 64) 1).wf = false := by decide
theorem test_line_decode_bytes :
    (Line.decDecodeBytes (2 ^ 64) 0).wf = false ∧ (Line.decDecodeBytes 0 (2 ^ 61)).wf = false := by decide

/-- 00_scope R6: a base is a multiple of 8. -/
theorem test_params_base :
    Params.wf { Config.defaultParams with bwBase := 4 } = false
      ∧ Params.wf { Config.defaultParams with wBase := 4 } = false := by decide
/-- 10_state R25, R35: a source of 2^61 bytes is too long. -/
theorem test_params_length (bytes : List Byte) (h : bytes.length = 2 ^ 61) :
    Params.wf { Config.defaultParams with src := bytes } = false
      ∧ Params.wf { Config.defaultParams with dsrc := bytes } = false := by
  simp [Params.wf, h]

/-! ### Decoding: words written out as reserved 31:11, B, W, OPC (30_encoding R70, R75) -/

theorem test_decode_br :
    decode 0b000000000000000000000_0_00_00000001 = some .brReadBit
    ∧ decode 0b000000000000000000000_0_00_00000010 = some .brReadU8
    ∧ decode 0b000000000000000000000_0_01_00000010 = some .brReadU16
    ∧ decode 0b000000000000000000000_0_10_00000010 = some .brReadU32
    ∧ decode 0b000000000000000000000_0_11_00000010 = some .brReadU64
    ∧ decode 0b000000000000000000000_0_00_00000011 = some .brSkipBits
    ∧ decode 0b000000000000000000000_0_00_00000100 = some .brSetPosition
    ∧ decode 0b000000000000000000000_0_00_00000101 = some .brPosition := by decide

theorem test_decode_bw :
    decode 0b000000000000000000000_0_00_00010001 = some (.bwWriteBit false)
    ∧ decode 0b000000000000000000000_1_00_00010001 = some (.bwWriteBit true)
    ∧ decode 0b000000000000000000000_0_00_00010010 = some .bwWriteU8
    ∧ decode 0b000000000000000000000_0_01_00010010 = some .bwWriteU16
    ∧ decode 0b000000000000000000000_0_10_00010010 = some .bwWriteU32
    ∧ decode 0b000000000000000000000_0_11_00010010 = some .bwWriteU64
    ∧ decode 0b000000000000000000000_0_00_00010011 = some .bwFlush
    ∧ decode 0b000000000000000000000_0_00_00010100 = some .bwPosition
    ∧ decode 0b000000000000000000000_0_00_00010101 = some .bwRelease := by decide

theorem test_decode_enc :
    decode 0b000000000000000000000_0_00_00100001 = some .encAnalyze
    ∧ decode 0b000000000000000000000_0_00_00100010 = some .encAnalyzeFinish
    ∧ decode 0b000000000000000000000_0_00_00100011 = some .encCompress
    ∧ decode 0b000000000000000000000_0_00_00100100 = some .encCompressFinish
    ∧ decode 0b000000000000000000000_0_00_00100101 = some .encPosition
    ∧ decode 0b000000000000000000000_0_00_00100110 = some .encRelease := by decide

theorem test_decode_dec :
    decode 0b000000000000000000000_0_00_00110001 = some .decNew
    ∧ decode 0b000000000000000000000_0_00_00110010 = some .decDecode := by decide

/-- V-E07 to V-E13, and the last of each gap of R76. -/
theorem test_decode_illegal :
    ([0x00000000, 0x00000402, 0x00000111, 0x00000105, 0x00000813, 0x80000021, 0x00000016, 0x00000027,
      0x00000033, 0x000000FF, 0x00000010, 0x00000020, 0x00000030, 0x00000006] : List CmdWord).all
      (fun w => (decode w).isNone) = true := by decide

/-- No two rows of the opcode map share their fields, so a word has one meaning. -/
theorem test_rows_apart :
    opcodeMap.Pairwise fun a b => (a.opc, a.w, a.b) ≠ (b.opc, b.w, b.b) := by decide

/-- The words of a table row's bits (30_encoding R75). -/
theorem test_table_word :
    decodeTableWord 32 0x00000302 = some .brReadU64 ∧ decodeTableWord 32 0x00000016 = none := by decide

/-! ### States for the tests -/

/-- The state a command ends in; the given one where it has none. -/
def after (i : Instr) (s : State) : State :=
  match exec i s with
  | .next t => t
  | _ => s

/-- The command has a next state. -/
def runs (i : Instr) (s : State) : Bool :=
  match exec i s with
  | .next _ => true
  | _ => false

theorem next_after {i : Instr} {s : State} (h : runs i s = true) : exec i s = .next (after i s) := by
  unfold runs at h
  unfold after
  split at h <;> simp_all

/-- A command after which RES and STATUS.CODE are as given. -/
def ends (i : Instr) (s : State) (res : Nat) (code : StatusCode) : Bool :=
  runs i s && (after i s).res.toNat == res && (after i s).code == code

/-- Reset with a source and the answers of the environment. -/
def withSrc (src : List Byte) (io : List IoEvent) : State :=
  State.resetWith { Config.defaultParams with src := src, io := io }

/-- Reset with a source of DEC. -/
def withDsrc (dsrc : List Byte) (io : List IoEvent) : State :=
  State.resetWith { Config.defaultParams with dsrc := dsrc, io := io }

/-- BR at a position of `SRC = 2D 05` (V-BR). -/
def brAt (io : List IoEvent) (pos : Pos) : State :=
  (withSrc [0x2D, 0x05] io).withBr { rd := { pos := pos, pb := [] }, iof := false }

/-- BW with three bits pending after the byte 2D (V-BW2), or as given. -/
def bwAt (io : List IoEvent) (cnt : Fin 8) (buf : Byte) (arg0 : Word) : State :=
  ((withSrc [] io).withBw
    { wr := { sink := [0x2D], buf := buf, cnt := cnt, pos := BitVec.ofNat 64 (8 + cnt.val) }
      iof := false, rel := false }).withArg0 arg0

/-- BW released. -/
def bwReleased : State :=
  State.reset.withBw { wr := { sink := [0x05], buf := 0, cnt := 0, pos := 8 }, iof := false, rel := true }

/-- Every unit with its sticky fault set. -/
def faulty : State :=
  { State.reset with
    br := { State.reset.br with iof := true }, bw := { State.reset.bw with iof := true }
    enc := { State.reset.enc with iof := true }, dec := { State.reset.dec with iof := true } }

/-- The bytes IN of a command. -/
def withIn (s : State) (bytes : List Byte) : State := { s with input := bytes, inputIo := [] }

/-- Reset, with W_BASE and the answers of the environment, and "ba" counted (V-T6). -/
def counted (wBase : Pos) (io : List IoEvent) : State :=
  after .encAnalyze
    (withIn (State.resetWith { Config.defaultParams with wBase := wBase, io := io }) [0x62, 0x61])

/-- Then the analysis finished: codes a = 0, b = 1. -/
def analyzed (wBase : Pos) (io : List IoEvent) : State := after .encAnalyzeFinish (counted wBase io)

/-- Then "ab" compressed. -/
def compressed (wBase : Pos) (io : List IoEvent) : State :=
  after .encCompress (withIn (analyzed wBase io) [0x61, 0x62])

/-- ENC with given counts and TOTAL. -/
def counts (freq : Vector Count 256) (total : Count) : State :=
  State.reset.withEnc { State.reset.enc with freq := freq, total := total }

/-- The counts of the given list, on the symbols from 'A' on. -/
def countsFrom (l : List Nat) : Vector Count 256 :=
  Vector.ofFn fun i => BitVec.ofNat 64 (l.getD (i.val - 65) 0 * (if 65 ≤ i.val then 1 else 0))

/-- The header of V-T6, then the payload of "abba". -/
def abStream : List Byte :=
  [0x00, 0x40, 0x80, 0x00, 0x00, 0x80, 0x86, 0x80, 0x00, 0x80, 0x80, 0x46, 0x06]

/-- DEC after DEC_NEW on that stream. -/
def ready (io : List IoEvent) : State := after .decNew (withDsrc abStream io)

/-- Its next DEC_DECODE: S and LBITS. -/
def decoding (io : List IoEvent) (s l : Word) : State := ((ready io).withArg0 s).withArg1 l

/-! ### Commands, at most two tests each -/

theorem test_read_bit : ends .brReadBit (brAt [] 0) 1 .ok = true ∧ ends .brReadBit (brAt [] 9) 0 .ok = true := by
  decide
/-- V-BR7b. -/
theorem test_read_u8 : ends .brReadU8 (brAt [] 3) 0xA5 .ok = true := by decide
/-- V-BR3: the cursor moves by 8. -/
theorem test_read_u8_cursor : (after .brReadU8 (brAt [] 1)).br.rd.pos = 9 := by decide
/-- V-BR7, V-BR2. -/
theorem test_read_u16 :
    ends .brReadU16 (brAt [] 0) 0xB4A0 .ok = true ∧ ends .brReadU16 (brAt [] 1) 0 .endOfStream = true := by
  decide
/-- V-BR8, V-BR12. -/
theorem test_read_u32 :
    ends .brReadU32 (withSrc [0x80, 0xC4, 0xA2, 0xE6, 0x91, 0xD5, 0xB3] []) 0x01234567 .ok = true := by decide
theorem test_read_u64 :
    ends .brReadU64 (withSrc [0x80, 0xC4, 0xA2, 0xE6, 0x91, 0xD5, 0xB3, 0xF7] []) 0x0123456789ABCDEF .ok = true
    ∧ ends .brReadU64 (withSrc [0x80, 0xC4, 0xA2, 0xE6, 0x91, 0xD5, 0xB3] []) 0 .endOfStream = true := by
  decide +kernel
/-- V-BR7e, V-BR7d. -/
theorem test_skip :
    (after .brSkipBits ((brAt [] 0xFFFFFFFFFFFFFFF0).withArg0 0x20)).br.rd.pos = 0xFFFFFFFFFFFFFFFF
    ∧ (after .brSkipBits ((brAt [] 0).withArg0 5)).br.rd.pos = 5 := by decide
/-- V-BR7c: the seek past the end is OK, the read after it is not. -/
theorem test_set_position :
    (after .brSetPosition ((brAt [] 0).withArg0 100)).br.rd.pos = 100
    ∧ ends .brReadBit (after .brSetPosition ((brAt [] 0).withArg0 100)) 0 .endOfStream = true := by decide
/-- V-BR6. -/
theorem test_br_position : ends .brPosition (brAt [] 10) 10 .ok = true := by decide
/-- V-BR11. -/
theorem test_read_io :
    ends .brReadBit (brAt [⟨.src, 0, .fail⟩] 0) 0 .io = true
    ∧ (after .brReadBit (brAt [⟨.src, 0, .fail⟩] 0)).br.iof = true := by decide

/-- V-BW1: the third bit, a 1, goes to bit 2. -/
theorem test_write_bit : (after (.bwWriteBit true) (bwAt [] 2 0x01 0)).bw.wr = (bwAt [] 3 0x05 0).bw.wr := by decide
/-- V-BW2. -/
theorem test_write_u8 :
    (after .bwWriteU8 ((bwAt [] 3 0x05 0xA5).withBw
        { wr := { sink := [], buf := 0x05, cnt := 3, pos := 3 }, iof := false, rel := false })).bw.wr
      = { sink := [0x2D], buf := 0x05, cnt := 3, pos := 11 } := by decide
/-- V-BW5, V-BW8. -/
theorem test_write_u8_aligned :
    (after .bwWriteU8 (bwAt [] 0 0 0x01)).bw.wr.sink = [0x2D, 0x80]
    ∧ (after .bwWriteU8 (bwAt [] 0 0 0x1FF)).bw.wr.sink = [0x2D, 0xFF] := by decide
/-- V-BW6. -/
theorem test_write_u16 : (after .bwWriteU16 (bwAt [] 0 0 0x1234)).bw.wr.sink = [0x2D, 0x48, 0x2C] := by decide
/-- V-BW7. -/
theorem test_write_u16_unaligned :
    (after .bwFlush (after .bwWriteU16 (bwAt [] 4 0x0B 0xFFFF))).bw.wr.sink = [0x2D, 0xFB, 0xFF, 0x0F] := by decide
theorem test_write_u32 :
    (after .bwWriteU32 (bwAt [] 0 0 0xDEADBEEF)).bw.wr.sink = [0x2D, 0x7B, 0xB5, 0x7D, 0xF7] := by decide
theorem test_write_u64 :
    (after .bwWriteU64 (bwAt [] 0 0 0x0123456789ABCDEF)).bw.wr.sink
      = [0x2D, 0x80, 0xC4, 0xA2, 0xE6, 0x91, 0xD5, 0xB3, 0xF7] := by decide
/-- V-BW3, V-BW9. -/
theorem test_flush :
    (after .bwFlush (bwAt [] 3 0x05 0)).bw.wr = { sink := [0x2D, 0x05], buf := 0, cnt := 0, pos := 16 }
    ∧ (after .bwFlush State.reset).bw.wr = { sink := [], buf := 0, cnt := 0, pos := 0 } := by decide
/-- V-BW10, V-BW11. -/
theorem test_release :
    (after .bwRelease (bwAt [] 3 0x05 0)).bw.rel = true
    ∧ ends .bwRelease (after .bwRelease (bwAt [] 3 0x05 0)) 0 .invalidState = true := by decide
theorem test_bw_position : ends .bwPosition bwReleased 8 .ok = true := by decide
/-- V-BW13. -/
theorem test_write_io :
    ends .bwWriteU8 (bwAt [⟨.bwSink, 1, .fail⟩] 0 0 0) 0 .io = true
    ∧ (after .bwWriteU8 (bwAt [⟨.bwSink, 1, .fail⟩] 0 0 0)).bw.wr.sink = [0x2D] := by decide

/-- V-T6: each of the two symbols counted once. -/
theorem test_analyze :
    (counted 0 []).res = 16 ∧ (counted 0 []).enc.total = 2
    ∧ (counted 0 []).enc.freqOf 0x61 = 1 ∧ (counted 0 []).enc.freqOf 0x63 = 0 := by decide +kernel
/-- V-T6: the header, PAYLOAD_START, ESTATE. -/
theorem test_analyze_finish :
    (analyzed 0 []).enc.ew.sink = abStream.take 12 ∧ (analyzed 0 []).res = 96
    ∧ (analyzed 0 []).enc.payloadStart = 96 ∧ (analyzed 0 []).enc.estate = .analyzed := by decide +kernel
/-- V-T1: the codes of "mississippi river". -/
theorem test_codes :
    ((counts (Vector.ofFn fun i => if i.val = 0x20 ∨ i.val = 0x65 ∨ i.val = 0x6D ∨ i.val = 0x76 then 1
        else if i.val = 0x69 then 5 else if i.val = 0x70 ∨ i.val = 0x72 then 2
        else if i.val = 0x73 then 4 else 0) 17).enc.buildCode.dict.toList.filterMap id)
      = [⟨4, 1⟩, ⟨4, 9⟩, ⟨2, 3⟩, ⟨4, 5⟩, ⟨3, 2⟩, ⟨3, 6⟩, ⟨2, 0⟩, ⟨4, 13⟩] := by decide +kernel
/-- V-T6 ("abba": 4 bits). -/
theorem test_compress :
    ends .encCompress (withIn (analyzed 0 []) [0x61, 0x62, 0x62, 0x61]) 4 .ok = true
    ∧ (after .encCompress (withIn (analyzed 0 []) [0x61, 0x62, 0x62, 0x61])).enc.ew.buf = 0x06 := by
  decide +kernel
/-- V-ENC3 ("abc"). -/
theorem test_compress_unknown :
    ends .encCompress (withIn (analyzed 0 []) [0x61, 0x62, 0x63]) 2 .unknownSymbol = true
    ∧ (after .encCompress (withIn (analyzed 0 []) [0x61, 0x62, 0x63])).enc.ew.cnt = 2 := by
  decide +kernel
/-- V-ENC13, with W_BASE = 64. -/
theorem test_compress_finish :
    (after .encCompressFinish (compressed 64 [])).enc.ew.pos = 168
    ∧ (after .encCompressFinish (compressed 64 [])).enc.ew.sink = abStream.take 12 ++ [0x02] := by decide +kernel
theorem test_enc_position : ends .encPosition (analyzed 64 []) 160 .ok = true := by decide +kernel
/-- V-ENC4. -/
theorem test_enc_release :
    (after .encRelease (compressed 0 [])).enc.ew.pos = 104
    ∧ (after .encRelease (compressed 0 [])).status = 0x00000400 := by decide +kernel

/-- V-T6 with R201. -/
theorem test_new : ends .decNew (withDsrc abStream []) 96 .ok = true ∧ (ready []).dec.maxLen = 1 := by decide
/-- V-H11 and V-H12. -/
theorem test_new_prefix :
    ends .decNew (withDsrc [0x00, 0x40, 0x80, 0x00, 0x00, 0x80, 0x82, 0x40, 0x00, 0x40, 0x80, 0x42] []) 0
      .invalidHeader = true
    ∧ ends .decNew (withDsrc [0x00, 0x40, 0x80, 0x00, 0x00, 0x80, 0x82, 0x40, 0x00, 0x80, 0x80, 0x42] []) 96
      .ok = true := by decide
theorem test_decode :
    ends .decDecode (decoding [] 96 32) 4 .ok = true
    ∧ (after .decDecode (decoding [] 96 32)).dec.out = [0x61, 0x62, 0x62, 0x61] := by decide
/-- V-D5's case (b) on this stream: eight symbols, then the end. -/
theorem test_decode_corrupt :
    ends .decDecode (decoding [] 96 72) 8 .corruptStream = true
    ∧ (after .decDecode (decoding [] 96 72)).dec.out
      = [0x61, 0x62, 0x62, 0x61, 0x61, 0x61, 0x61, 0x61] := by decide

/-- 30_encoding R79, R81: line 4 of P1, from the host's moves. -/
theorem test_program :
    (match Sys2Proof.core.run 3 (State.reset.withHost (programMoves [.bwWriteU8 0xA5])) with
     | .next t => t.bw.wr.sink == [0xA5] && t.arg0 == 0xA5 && t.cmd == none && t.host == []
     | _ => false) = true := by decide
/-- 30_encoding R79, R80: the moves of the two lines written out. -/
theorem test_lines :
    lineMoves .brRewind = [.writeArg0 0, .issue 0x00000004 [] []]
    ∧ lineMoves (.decDecodeBytes 96 4) = [.writeArg0 96, .writeArg1 32, .issue 0x00000032 [] []] := by decide

/-- P6 line 1. -/
theorem test_illegal_step :
    (match step (State.reset.withFetchWord 32 0) with
     | .next t => t.status == 8
     | _ => false) = true := by decide

/-! ### Witnesses: states that meet the hypotheses of each statement, clause by clause -/

/-- A buffer with no bit at or above the count. -/
theorem clean_of {w : Writer} (h : ∀ i : Fin 8, w.cnt.val ≤ i.val → w.buf.getLsbD i.val = false) : w.Clean := by
  intro i hi
  by_cases h8 : i < 8
  · exact h ⟨i, h8⟩ hi
  · exact BitVec.getLsbD_of_ge _ _ (by omega)

/-- A pending word is no reset. -/
theorem not_resets {s : State} (h : s.cmd ≠ none) : ¬ s.Resets := fun hr => h hr.1

/-- A state in which a word is pending. -/
def pending (w : CmdWord) (s : State) : State := s.withCmd (some w)

theorem witness_IllegalWordChangesOnlyTheCode :
    ((pending 0x16 State.reset).cmd = some 0x16 ∧ (splitWord 0x16).wf = false)
    ∧ ((pending 0x813 State.reset).cmd = some 0x813 ∧ (splitWord 0x813).wf = false)
    ∧ ((pending 0x105 State.reset).cmd = some 0x105 ∧ (splitWord 0x105).wf = false)
    ∧ ((pending 0x402 State.reset).cmd = some 0x402 ∧ (splitWord 0x402).wf = false)
    ∧ (splitWord 0x302).wf = true ∧ (splitWord 0x411).wf = true := by decide

theorem witness_StepRunsThePendingWord :
    (pending 0x2 State.reset).cmd = some 0x2 ∧ decode 0x2 = some .brReadU8 := by decide

theorem witness_HostMovesOneAtATime :
    (State.reset.cmd = none ∧ State.reset.host = [])
    ∧ (State.reset.withHost [.writeArg0 7]).host = .writeArg0 7 :: []
    ∧ (State.reset.withHost [.writeArg1 7]).host = .writeArg1 7 :: []
    ∧ (State.reset.withHost [.issue 0x21 [0x61] []]).host = .issue 0x21 [0x61] [] :: [] := by decide

theorem witness_ResetSetsEveryField :
    (faulty.withHost [.reset Config.defaultParams, .writeArg0 1]).cmd = none
    ∧ (faulty.withHost [.reset Config.defaultParams, .writeArg0 1]).host
        = .reset Config.defaultParams :: [.writeArg0 1] := by decide

theorem witness_BrReadBit :
    faulty.br.iof = true
    ∧ ((brAt [] 16).br.iof = false ∧ 8 * (brAt [] 16).params.src.length ≤ (brAt [] 16).br.rd.pos.toNat)
    ∧ ((brAt [] 15).br.rd.pos.toNat < 8 * (brAt [] 15).params.src.length ∧ (brAt [] 15).answer .src 1 = .ok)
    ∧ ((brAt [⟨.src, 1, .fail⟩] 15).br.rd.pos.toNat < 8 * (brAt [] 15).params.src.length
      ∧ (brAt [⟨.src, 1, .fail⟩] 15).answer .src (15 / 8) = .fail) := by decide

/-- One bit short, the exact fit, the second byte failing. -/
theorem witness_BrReadWidth :
    (Instr.brReadU8, 8) ∈ [(Instr.brReadU8, 8), (.brReadU16, 16), (.brReadU32, 32), (.brReadU64, 64)]
    ∧ faulty.br.iof = true
    ∧ ((brAt [] 9).br.iof = false ∧ 8 * (brAt [] 9).params.src.length < (brAt [] 9).br.rd.pos.toNat + 8)
    ∧ (brAt [] 8).br.rd.pos.toNat + 8 ≤ 8 * (brAt [] 8).params.src.length
    ∧ (3 / 8 + 1 ≤ (3 + 8 - 1) / 8 ∧ (∀ j < 1, (brAt [⟨.src, 1, .fail⟩] 3).answer .src (3 / 8 + j) = .ok)
      ∧ (brAt [⟨.src, 1, .fail⟩] 3).answer .src (3 / 8 + 1) = .fail) := by decide
theorem witness_BrReadWidth_ok :
    (brAt [] 8).br.iof = false ∧ ∀ j, 1 ≤ j → j ≤ 1 → (brAt [] 8).answer .src j = .ok :=
  ⟨rfl, fun _ _ _ => rfl⟩

theorem witness_BrSkipBits : faulty.br.iof = true ∧ (brAt [] 3).br.iof = false := by decide
theorem witness_BrSetPosition : faulty.br.iof = true ∧ (brAt [] 3).br.iof = false := by decide

/-- A read that ends with OK, and one that does not. -/
theorem witness_BrPositionCountsTheReads :
    faulty.br.iof = true ∧ (brAt [] 3).br.iof = false
    ∧ (∀ i ∈ [Instr.brReadU8, .brReadU16], 0 < readWidth i) ∧ (brAt [] 3).params.src.length < 2 ^ 61
    ∧ runCommands [.brReadU8, .brReadU16] (brAt [] 3)
        = some (after .brReadU16 (after .brReadU8 (brAt [] 3)))
    ∧ (after .brReadU16 (after .brReadU8 (brAt [] 3))).br.iof = false := by
  refine ⟨rfl, rfl, by decide, by decide, ?_, by decide⟩
  simp only [runCommands, next_after (show runs .brReadU8 (brAt [] 3) = true by decide),
    next_after (show runs .brReadU16 (after .brReadU8 (brAt [] 3)) = true by decide)]

theorem bwAt_clean (io : List IoEvent) (a : Word) :
    (bwAt io 3 0x05 a).bw.wr.Clean ∧ (bwAt io 6 0x05 a).bw.wr.Clean ∧ (bwAt io 7 0x05 a).bw.wr.Clean :=
  ⟨clean_of (show ∀ i : Fin 8, 3 ≤ i.val → (0x05 : Byte).getLsbD i.val = false by decide),
   clean_of (show ∀ i : Fin 8, 6 ≤ i.val → (0x05 : Byte).getLsbD i.val = false by decide),
   clean_of (show ∀ i : Fin 8, 7 ≤ i.val → (0x05 : Byte).getLsbD i.val = false by decide)⟩

/-- CNT 6 and 7, the push answered ok and failing. -/
theorem witness_BwWriteBit :
    faulty.bw.iof = true ∧ (bwReleased.bw.iof = false ∧ bwReleased.bw.rel = true)
    ∧ ((bwAt [] 6 0x05 0).bw.iof = false ∧ (bwAt [] 6 0x05 0).bw.rel = false
      ∧ (bwAt [] 6 0x05 0).bw.wr.cnt.val + 1 < 8 ∧ (bwAt [] 6 0x05 0).bw.wr.pos.toNat + 1 < 2 ^ 64)
    ∧ ((bwAt [] 7 0x05 0).bw.wr.cnt.val = 7 ∧ (bwAt [] 7 0x05 0).answer .bwSink 1 = .ok)
    ∧ ((bwAt [⟨.bwSink, 1, .fail⟩] 7 0x05 0).bw.wr.cnt.val = 7
      ∧ (bwAt [⟨.bwSink, 1, .fail⟩] 7 0x05 0).answer .bwSink 1 = .fail) := by decide

/-- Both bytes of a BW_WRITE_U16 ok, and the second failing; the writer's three bits are clean (`bwAt_clean`). -/
theorem witness_BwWriteWidth :
    (Instr.bwWriteU16, 16) ∈ [(Instr.bwWriteU8, 8), (.bwWriteU16, 16), (.bwWriteU32, 32), (.bwWriteU64, 64)]
    ∧ faulty.bw.iof = true ∧ (bwReleased.bw.iof = false ∧ bwReleased.bw.rel = true)
    ∧ ((bwAt [] 3 0x05 0).bw.iof = false ∧ (bwAt [] 3 0x05 0).bw.rel = false
      ∧ (bwAt [] 3 0x05 0).bw.wr.pos.toNat + 16 < 2 ^ 64)
    ∧ (bwAt [] 3 0x05 0).TransfersOk .bwSink 1 (16 / 8)
    ∧ (1 < 16 / 8 ∧ (bwAt [⟨.bwSink, 2, .fail⟩] 3 0x05 0).TransfersOk .bwSink 1 1
      ∧ (bwAt [⟨.bwSink, 2, .fail⟩] 3 0x05 0).answer .bwSink (1 + 1) = .fail) := by
  unfold State.TransfersOk
  decide

theorem witness_AlignedWritesReverseBytes :
    (bwAt [] 0 0 0x12).bw.iof = false ∧ (bwAt [] 0 0 0x12).bw.rel = false ∧ (bwAt [] 0 0 0x12).bw.wr.cnt = 0
    ∧ (bwAt [] 0 0 0x12).bw.wr.buf = 0 ∧ (bwAt [] 0 0 0x12).TransfersOk .bwSink 1 1
    ∧ (bwAt [] 0 0 0x12).TransfersOk .bwSink 1 2 := by
  unfold State.TransfersOk
  decide

theorem witness_BwFlush :
    faulty.bw.iof = true ∧ (bwReleased.bw.iof = false ∧ bwReleased.bw.rel = true)
    ∧ ((bwAt [] 0 0 0).bw.rel = false ∧ (bwAt [] 0 0 0).bw.wr.cnt.val = 0)
    ∧ (0 < (bwAt [] 1 1 0).bw.wr.cnt.val ∧ (bwAt [] 1 1 0).answer .bwSink 1 = .ok
      ∧ (bwAt [] 1 1 0).bw.wr.pos.toNat + (8 - 1) < 2 ^ 64)
    ∧ (bwAt [⟨.bwSink, 1, .fail⟩] 1 1 0).answer .bwSink 1 = .fail
    ∧ (after .bwFlush (bwAt [] 1 1 0)).code = .ok := by decide
theorem witness_BwFlush_ends : exec .bwFlush (bwAt [] 1 1 0) = .next (after .bwFlush (bwAt [] 1 1 0)) :=
  next_after (by decide)

theorem witness_BwRelease :
    faulty.bw.iof = true
    ∧ ((bwAt [] 0 0 0).bw.iof = false ∧ (bwAt [] 0 0 0).bw.rel = false ∧ (bwAt [] 0 0 0).bw.wr.cnt.val = 0)
    ∧ (0 < (bwAt [] 1 1 0).bw.wr.cnt.val ∧ (bwAt [] 1 1 0).answer .bwSink 1 = .ok
      ∧ (bwAt [] 1 1 0).bw.wr.pos.toNat + (8 - 1) < 2 ^ 64)
    ∧ (bwAt [⟨.bwSink, 1, .fail⟩] 1 1 0).answer .bwSink 1 = .fail
    ∧ (bwReleased.bw.iof = false ∧ bwReleased.bw.rel = true ∧ unitOf .bwFlush = .bw
      ∧ Instr.bwFlush ≠ .bwPosition) := by decide

theorem witness_BwPositionCountsTheBits :
    faulty.bw.iof = true ∧ (bwAt [] 7 0x05 0).bw.iof = false ∧ (bwAt [] 7 0x05 0).bw.rel = false
    ∧ (bwAt [] 7 0x05 0).bw.wr.pos.toNat + [true, false].length < 2 ^ 64
    ∧ runCommands ([true, false].map .bwWriteBit) (bwAt [] 7 0x05 0)
        = some (after (.bwWriteBit false) (after (.bwWriteBit true) (bwAt [] 7 0x05 0)))
    ∧ (after (.bwWriteBit false) (after (.bwWriteBit true) (bwAt [] 7 0x05 0))).bw.iof = false := by
  refine ⟨rfl, rfl, rfl, by decide, ?_, by decide⟩
  simp only [List.map, runCommands, next_after (show runs (.bwWriteBit true) (bwAt [] 7 0x05 0) = true by decide),
    next_after (show runs (.bwWriteBit false) (after (.bwWriteBit true) (bwAt [] 7 0x05 0)) = true by decide)]

/-- The sink of V-BW3 as the source of a new run. -/
theorem witness_WrittenValueReadsBack :
    ((bwAt [] 3 0x05 0xA5).bw.iof = false ∧ (bwAt [] 3 0x05 0xA5).bw.rel = false
      ∧ ∀ k, (bwAt [] 3 0x05 0xA5).answer .bwSink k = .ok)
    ∧ (∀ k, (withSrc [0x2D, 0x2D, 0x05] []).answer .src k = .ok)
    ∧ (after .bwFlush (after .bwWriteU8 (bwAt [] 3 0x05 0xA5))).bw.wr.sink = [0x2D, 0x2D, 0x05]
    ∧ ((withSrc [0x2D, 0x2D, 0x05] []).withBr { rd := { pos := 11, pb := [] }, iof := false }).br.rd.pos.toNat
        = (bwAt [] 3 0x05 0xA5).bw.wr.bitCount :=
  ⟨⟨rfl, rfl, fun _ => rfl⟩, fun _ => rfl, by decide, by decide⟩

/-- A failing read, a read with OK, and a step with a fault set. -/
theorem witness_IoFaultIsSticky :
    faulty.faultOf (unitOf .brReadBit) = true
    ∧ (exec .brReadBit (brAt [⟨.src, 0, .fail⟩] 0) = .next (after .brReadBit (brAt [⟨.src, 0, .fail⟩] 0))
      ∧ (after .brReadBit (brAt [⟨.src, 0, .fail⟩] 0)).code = .io)
    ∧ (exec .brReadBit (brAt [] 0) = .next (after .brReadBit (brAt [] 0))
      ∧ (after .brReadBit (brAt [] 0)).code ≠ .io)
    ∧ UnitName.bw ≠ unitOf .brReadBit
    ∧ ((∃ t, step (pending 0x1 faulty) = .next t) ∧ ¬ (pending 0x1 faulty).Resets
      ∧ (pending 0x1 faulty).faultOf .dec = true) :=
  ⟨rfl, ⟨next_after (by decide), by decide⟩, ⟨next_after (by decide), by decide⟩, by decide,
   ⟨_, next_after (i := .brReadBit) (s := faulty) (by decide)⟩, not_resets (by decide), rfl⟩

theorem witness_CommandsStayInTheirUnit :
    exec .bwFlush (bwAt [] 1 1 0) = .next (after .bwFlush (bwAt [] 1 1 0)) ∧ hasResult .bwFlush = false
    ∧ unitOf .bwFlush ≠ .br ∧ unitOf .brPosition ≠ .bw ∧ unitOf .bwFlush ≠ .enc ∧ unitOf .bwFlush ≠ .dec :=
  ⟨next_after (by decide), by decide, by decide, by decide, by decide, by decide⟩

theorem witness_CodesAndRes :
    exec .brReadBit (brAt [] 16) = .next (after .brReadBit (brAt [] 16))
    ∧ (after .brReadBit (brAt [] 16)).code = .endOfStream := ⟨next_after (by decide), by decide⟩

theorem witness_SinksOnlyGrow :
    step (pending 0x13 (bwAt [] 1 1 0)) = .next (after .bwFlush (bwAt [] 1 1 0))
    ∧ ¬ (pending 0x13 (bwAt [] 1 1 0)).Resets
    ∧ (after .bwFlush (bwAt [] 1 1 0)).bw.wr.sink ≠ (bwAt [] 1 1 0).bw.wr.sink :=
  ⟨next_after (i := .bwFlush) (s := bwAt [] 1 1 0) (by decide), not_resets (by decide), by decide⟩

theorem witness_EncStateTable :
    (unitOf .encCompress = .enc ∧ State.reset.enc.iof = false
      ∧ encRunsIn .encCompress State.reset.enc.estate = false)
    ∧ (exec .encRelease State.reset = .next (after .encRelease State.reset)
      ∧ encRunsIn .encRelease State.reset.enc.estate = true) :=
  ⟨by decide, next_after (by decide), by decide⟩

theorem witness_EncStateOnlyMovesForward :
    step (pending 0x26 State.reset) = .next (after .encRelease State.reset)
    ∧ ¬ (pending 0x26 State.reset).Resets
    ∧ State.reset.enc.estate.number < (after .encRelease State.reset).enc.estate.number :=
  ⟨next_after (i := .encRelease) (s := State.reset) (by decide), not_resets (by decide), by decide⟩

/-- One symbol below TOTAL_LIMIT and at it; the second of two bytes failing. -/
theorem witness_EncAnalyze :
    faulty.enc.iof = true
    ∧ ((after .encRelease State.reset).enc.iof = false ∧ (after .encRelease State.reset).enc.estate ≠ .initial)
    ∧ 2 ^ 61 ≤ (withIn (counts (Vector.replicate 256 0) (BitVec.ofNat 64 (2 ^ 61 - 1))) [0x61]).enc.total.toNat + 1
    ∧ ((withIn (counts (Vector.replicate 256 0) (BitVec.ofNat 64 (2 ^ 61 - 2))) [0x61]).enc.estate = .initial
      ∧ (withIn (counts (Vector.replicate 256 0) (BitVec.ofNat 64 (2 ^ 61 - 2))) [0x61]).enc.total.toNat + 1 < 2 ^ 61
      ∧ (withIn (counts (Vector.replicate 256 0) (BitVec.ofNat 64 (2 ^ 61 - 2))) [0x61]).TransfersOk .input 0 1)
    ∧ (1 < [0x61, 0x62].length
      ∧ ({ State.reset with inputIo := [(1, .fail)] } : State).TransfersOk .input 0 1
      ∧ ({ State.reset with inputIo := [(1, .fail)] } : State).answer .input 1 = .fail) := by
  unfold State.TransfersOk
  decide

/-- The counts of V-T4, 18 of them and 17. -/
def fibonacci (n : Nat) : State :=
  counts (countsFrom ([1, 1, 2, 3, 5, 8, 13, 21, 34, 55, 89, 144, 233, 377, 610, 987, 1597, 2584].take n)) 6764

/-- A code of 17 bits; codes of at most 16, of which one has 16; the first and the last of the twelve bytes of a
header failing. -/
theorem witness_EncAnalyzeFinish :
    faulty.enc.iof = true
    ∧ ((after .encRelease State.reset).enc.iof = false ∧ (after .encRelease State.reset).enc.estate ≠ .initial)
    ∧ ((fibonacci 18).enc.iof = false ∧ (fibonacci 18).enc.estate = .initial
      ∧ ∃ e ∈ dictEntries (fibonacci 18).enc.buildCode.dict, 16 < e.code.len.toNat)
    ∧ ((∀ e ∈ dictEntries (fibonacci 17).enc.buildCode.dict, e.code.len.toNat ≤ 16)
      ∧ ∃ e ∈ dictEntries (fibonacci 17).enc.buildCode.dict, e.code.len.toNat = 16)
    ∧ ((0 + 16 + 40 * (dictEntries (counted 0 []).enc.buildCode.dict).length) / 8 = 12
      ∧ (counted 0 []).TransfersOk .eSink 0 12
      ∧ (counted 0 []).enc.ew.pos.toNat + 16 + 40 * 2 < 2 ^ 64)
    ∧ ((counted 0 [⟨.eSink, 11, .fail⟩]).TransfersOk .eSink 0 11
      ∧ (counted 0 [⟨.eSink, 11, .fail⟩]).answer .eSink (0 + 11) = .fail)
    ∧ ((counted 0 [⟨.eSink, 0, .fail⟩]).TransfersOk .eSink 0 0
      ∧ (counted 0 [⟨.eSink, 0, .fail⟩]).answer .eSink (0 + 0) = .fail) := by
  unfold State.TransfersOk
  decide +kernel
theorem witness_EncAnalyzeFinish_clean : (counted 0 []).enc.ew.Clean := clean_of (by decide +kernel)

/-- The entries of V-T6. -/
def abEntries : List InvEntry := [⟨⟨1, 0⟩, 0x61⟩, ⟨⟨1, 1⟩, 0x62⟩]

theorem witness_HeaderLayout : abEntries.length < 2 ^ 16 ∧ abEntries[1]? = some ⟨⟨1, 1⟩, 0x62⟩ := by decide

theorem no_codes {e : Enc} (h : e.dict = Vector.replicate 256 none) (b : Byte) : e.codeOf b = none := by
  simp [Enc.codeOf, h]

/-- DEC ready and ENC with nothing counted. -/
theorem witness_EmptyTable :
    ((ready []).enc.iof = false ∧ (ready []).enc.estate = .initial ∧ (∀ b, (ready []).enc.freqOf b = 0)
      ∧ (∀ b, (ready []).enc.codeOf b = none))
    ∧ (after .encAnalyzeFinish (ready [])).dec.iof = false
    ∧ (after .encAnalyzeFinish (ready [])).dec.dstate = .ready
    ∧ (after .encAnalyzeFinish (ready [])).arg1 = 0 := by
  have h : (ready []).enc = Enc.reset 0 := rfl
  refine ⟨⟨by decide, by decide, fun b => ?_, no_codes (by rw [h]; rfl)⟩, by decide +kernel⟩
  rw [h]
  simp [Enc.freqOf, Enc.reset]
theorem witness_EmptyTable_writer : (ready []).enc.ew.Clean ∧ ∀ k, (ready []).answer .eSink k = .ok :=
  ⟨clean_of (by decide +kernel), fun _ => rfl⟩

/-- Three times the same symbol. -/
def single : State := after .encAnalyze (withIn State.reset [0x2B, 0x2B, 0x2B])

theorem witness_SingleSymbol :
    single.enc.iof = false ∧ single.enc.estate = .initial ∧ 0 < (single.enc.freqOf 0x2B).toNat
    ∧ (∀ b, b ≠ 0x2B → single.enc.freqOf b = 0) ∧ (∀ b, single.enc.codeOf b = none) := by
  have h : single.enc = (((Enc.reset 0).countSymbol 0x2B).countSymbol 0x2B).countSymbol 0x2B := rfl
  refine ⟨by decide +kernel, by decide +kernel, by decide +kernel, fun b hb => ?_, no_codes rfl⟩
  have hn : ¬ 0x2B = b.toNat := fun he => hb (BitVec.eq_of_toNat_eq he.symm)
  simp [h, Enc.countSymbol, Enc.freqOf, Enc.reset, hn]
theorem witness_SingleSymbol_writer : single.enc.ew.Clean ∧ ∀ k, single.answer .eSink k = .ok :=
  ⟨clean_of (by decide +kernel), fun _ => rfl⟩

/-- "ba" counted, then the analysis finished, with OK. -/
theorem counted_finishes :
    exec .encAnalyzeFinish (counted 0 []) = .next (analyzed 0 []) ∧ (analyzed 0 []).code = .ok :=
  ⟨next_after (by decide +kernel), by decide +kernel⟩

/-- For the statements of tree and dictionary: TreeShape, CodesArePaths, DictionaryIsPrefixFree,
DictionaryIsOptimal, with `counted_finishes`. -/
theorem witness_TreeShape :
    (counted 0 []).enc.iof = false ∧ (counted 0 []).enc.estate = .initial ∧ CountInv (counted 0 [])
    ∧ 1 ≤ (counted 0 []).enc.distinct := by
  unfold CountInv
  decide +kernel
/-- Three symbols, the third twice. -/
def three : State := after .encAnalyze (withIn State.reset [0x61, 0x62, 0x63, 0x63])

/-- R142, R143 by hand: a and b are joined first; then c, a leaf, comes before their node of the same weight 2. -/
theorem witness_TreeShape_order :
    three.enc.iof = false ∧ three.enc.estate = .initial ∧ CountInv three ∧ three.enc.distinct = 3
    ∧ runs .encAnalyzeFinish three = true
    ∧ (after .encAnalyzeFinish three).enc.tree.map (fun n => (n.weight.toNat, n.kind))
      = [(1, .leaf 0x61), (1, .leaf 0x62), (2, .leaf 0x63), (2, .internal 0 1), (4, .internal 2 3)] := by
  unfold CountInv
  decide +kernel

theorem witness_CodesArePaths :
    2 ≤ (counted 0 []).enc.distinct ∧ (∀ b, (counted 0 []).enc.codeOf b = none)
    ∧ 0 < ((counted 0 []).enc.freqOf 0x61).toNat :=
  ⟨by decide +kernel, no_codes rfl, by decide +kernel⟩
/-- Two symbols, and one. -/
theorem witness_DictionaryIsPrefixFree :
    2 ≤ (counted 0 []).enc.distinct ∧ single.enc.distinct = 1
    ∧ (exec .encAnalyzeFinish single = .next (after .encAnalyzeFinish single)
      ∧ (after .encAnalyzeFinish single).code = .ok) :=
  ⟨by decide +kernel, by decide +kernel, next_after (by decide +kernel), by decide +kernel⟩
theorem witness_DictionaryIsOptimal :
    (∀ p ∈ usedSymbols (counted 0 []).enc.freq, (fun _ : Byte => 1) p.1 ≤ 1)
    ∧ ((usedSymbols (counted 0 []).enc.freq).map fun p => 2 ^ (1 - (fun _ : Byte => 1) p.1)).sum ≤ 2 ^ 1 :=
  ⟨fun _ _ => Nat.le_refl 1, by decide +kernel⟩

/-- "ab"; "aaaaaaaa" with the push failing, alone and before a byte without a code; "ac" with no code for c, and the
second byte of IN failing. -/
theorem witness_EncCompress :
    faulty.enc.iof = true ∧ (State.reset.enc.iof = false ∧ State.reset.enc.estate ≠ .analyzed)
    ∧ ((analyzed 0 []).enc.iof = false ∧ (analyzed 0 []).enc.estate = .analyzed
      ∧ encodeBytes (analyzed 0 []).enc.codeOf [0x61, 0x62] = some [false, true]
      ∧ (withIn (analyzed 0 []) [0x61, 0x62]).TransfersOk .input 0 2
      ∧ (analyzed 0 []).enc.ew.pos.toNat + 2 < 2 ^ 64)
    ∧ (encodeBytes (analyzed 0 []).enc.codeOf (List.replicate 8 0x61) = some (List.replicate 8 false)
      ∧ (analyzed 0 []).TransfersOk .eSink 12 ((0 + 8) / 8)
      ∧ (0 < (0 + 8) / 8 ∧ (analyzed 0 [⟨.eSink, 12, .fail⟩]).enc.ew.sink.length = 12
        ∧ (analyzed 0 [⟨.eSink, 12, .fail⟩]).answer .eSink (12 + 0) = .fail
        ∧ (withIn (analyzed 0 [⟨.eSink, 12, .fail⟩]) (List.replicate 8 0x61 ++ [0x63])).TransfersOk .input 0 8
        ∧ ends .encCompress (withIn (analyzed 0 [⟨.eSink, 12, .fail⟩]) (List.replicate 8 0x61 ++ [0x63])) 96 .io))
    ∧ (encodeBytes (analyzed 0 []).enc.codeOf [0x61] = some [false]
      ∧ (analyzed 0 []).enc.codeOf 0x63 = none ∧ (withIn (analyzed 0 []) [0x61, 0x63]).answer .input 1 = .ok
      ∧ ({ analyzed 0 [] with input := [0x61, 0x63], inputIo := [(1, .fail)] } : State).answer .input 1 = .fail) := by
  unfold State.TransfersOk
  decide +kernel

theorem witness_EncCompress_clean :
    (analyzed 0 []).enc.ew.Clean ∧ (analyzed 0 [⟨.eSink, 12, .fail⟩]).enc.ew.Clean :=
  ⟨clean_of (by decide +kernel), clean_of (by decide +kernel)⟩

theorem witness_EncFlushCommands :
    faulty.enc.iof = true
    ∧ (encRunsIn .encCompressFinish State.reset.enc.estate = false
      ∧ encRunsIn .encRelease (after .encRelease State.reset).enc.estate = false)
    ∧ (encRunsIn .encCompressFinish (analyzed 0 []).enc.estate = true ∧ (analyzed 0 []).enc.ew.cnt.val = 0
      ∧ encRunsIn .encRelease State.reset.enc.estate = true ∧ State.reset.enc.ew.cnt.val = 0)
    ∧ (encRunsIn .encCompressFinish (compressed 0 []).enc.estate = true ∧ 0 < (compressed 0 []).enc.ew.cnt.val
      ∧ encRunsIn .encRelease (compressed 0 []).enc.estate = true ∧ (compressed 0 []).answer .eSink 12 = .ok
      ∧ (compressed 0 []).enc.ew.pos.toNat + (8 - (compressed 0 []).enc.ew.cnt.val) < 2 ^ 64)
    ∧ (0 < (compressed 0 [⟨.eSink, 12, .fail⟩]).enc.ew.cnt.val
      ∧ (compressed 0 [⟨.eSink, 12, .fail⟩]).enc.ew.sink.length = 12
      ∧ (compressed 0 [⟨.eSink, 12, .fail⟩]).answer .eSink 12 = .fail) := by decide +kernel

theorem witness_EncPosition : faulty.enc.iof = true ∧ (analyzed 0 []).enc.iof = false := by decide +kernel

/-- The header of V-T6; the two equal codes of V-H10; no entry (V-H1). -/
theorem witness_DecNewParsesTheHeader :
    ((withDsrc abStream []).dec.iof = false
      ∧ BitsAt abStream 0 (rawHeaderBits (abEntries.map fun e => (e, 1)))
      ∧ ConsistentDict ((abEntries.map fun e => (e, (1 : Byte))).map (·.1))
      ∧ ∀ p ∈ abEntries.map fun e => (e, (1 : Byte)), p.2 = 1)
    ∧ (BitsAt [0x00, 0x40, 0x80, 0x00, 0x00, 0x80, 0x82, 0x80, 0x00, 0x00, 0x80, 0x42] 0
        (rawHeaderBits [(⟨⟨1, 0⟩, 0x41⟩, 1), (⟨⟨1, 0⟩, 0x42⟩, 1)])
      ∧ ¬ ConsistentDict [⟨⟨1, 0⟩, 0x41⟩, ⟨⟨1, 0⟩, 0x42⟩])
    ∧ (BitsAt [0x00, 0x00] 0 (rawHeaderBits []) ∧ ConsistentDict []) := by
  unfold BitsAt ConsistentDict InvEntry.Apart Code.InRange Code.InitialOf
  decide +kernel

/-- The first and the last byte of the header of V-T6 failing (bits 0 and 95; the last byte the clause names). -/
theorem witness_DecNewParsesTheHeader_io :
    (0 ≤ 11 ∧ 11 ≤ (0 + 15 + 40 * abEntries.length) / 8
      ∧ (∀ k < 11, (withDsrc abStream [⟨.dsrc, 11, .fail⟩]).answer .dsrc k = .ok)
      ∧ (withDsrc abStream [⟨.dsrc, 11, .fail⟩]).answer .dsrc 11 = .fail)
    ∧ (withDsrc abStream [⟨.dsrc, 0, .fail⟩]).answer .dsrc 0 = .fail
    ∧ (0 + 15 + 40 * abEntries.length) / 8 = 11 := by decide

/-- V-H3: the count of one entry and no entry; a first entry of symbol length 2, and a second entry missing. -/
theorem witness_DecNewTruncatedHeader :
    ((withDsrc [0x00, 0x80] []).dec.iof = false
      ∧ 8 * [0x00, 0x80].length - 0 < (rawHeaderBits [(⟨⟨1, 0⟩, 0x41⟩, 1)]).length
      ∧ streamBits [0x00, 0x80] 0 (8 * 2 - 0) <+: rawHeaderBits [(⟨⟨1, 0⟩, 0x41⟩, 1)])
    ∧ (56 < (rawHeaderBits [(⟨⟨1, 0⟩, 0x41⟩, 2), (⟨⟨1, 1⟩, 0x42⟩, 1)]).length
      ∧ streamBits [0x00, 0x40, 0x80, 0x00, 0x00, 0x40, 0x82] 0 56
        <+: rawHeaderBits [(⟨⟨1, 0⟩, 0x41⟩, 2), (⟨⟨1, 1⟩, 0x42⟩, 1)]) := by decide +kernel

theorem dsrc_ok (bytes : List Byte) (k : Nat) : (withDsrc bytes []).answer .dsrc k = .ok := rfl

theorem witness_DecStateTransitions :
    (exec .decNew (withDsrc abStream []) = .next (ready []) ∧ (withDsrc abStream []).dec.iof = false)
    ∧ exec .decDecode (decoding [] 96 32) = .next (after .decDecode (decoding [] 96 32))
    ∧ (State.reset.dec.iof = false ∧ State.reset.dec.dstate = .unconstructed) :=
  ⟨⟨next_after (by decide), by decide⟩, next_after (by decide), by decide⟩

/-- "abba" (V-T6), and the third byte of OUT failing. -/
theorem witness_DecDecodeEmitsTheSymbols :
    (decoding [] 96 32).dec.iof = false ∧ (decoding [] 96 32).dec.dstate = .ready
    ∧ (decoding [] 96 32).arg1 ≠ 0
    ∧ [0x61, 0x62, 0x62, 0x61].length = (decoding [] 96 32).arg1.toNat / 8
    ∧ ConsistentDict (decoding [] 96 32).dec.inv
    ∧ (decoding [] 96 32).dec.maxLen.toNat = maxLenOf (decoding [] 96 32).dec.inv
    ∧ encodeBytes (codeIn (decoding [] 96 32).dec.inv) [0x61, 0x62, 0x62, 0x61] = some [false, true, true, false]
    ∧ BitsAt abStream 96 [false, true, true, false]
    ∧ (∀ j < 4, (decoding [] 96 32).answer .dsrc ((96 + j) / 8) = .ok)
    ∧ (decoding [] 96 32).TransfersOk .out 0 4
    ∧ (encodeBytes (codeIn (decoding [] 96 32).dec.inv) ([0x61, 0x62] ++ [0x62]) = some [false, true, true]
      ∧ (decoding [⟨.out, 2, .fail⟩] 96 32).TransfersOk .out 0 2
      ∧ (decoding [⟨.out, 2, .fail⟩] 96 32).answer .out (0 + 2) = .fail) := by
  unfold BitsAt ConsistentDict InvEntry.Apart Code.InRange Code.InitialOf State.TransfersOk
  decide +kernel

/-- DEC after DEC_NEW on the dictionary of V-H12 (A = 0, B = 1 then 0), before the codes of AAAAAAAB. -/
def decodingB (io : List IoEvent) : State :=
  ((after .decNew (withDsrc
      [0x00, 0x40, 0x80, 0x00, 0x00, 0x80, 0x82, 0x40, 0x00, 0x80, 0x80, 0x42, 0x80, 0x00] io)).withArg0 96).withArg1 64

/-- The byte of the second bit of B fails, and the first byte of the payload. -/
theorem witness_DecDecodeEmitsTheSymbols_dsrc :
    ((decodingB [⟨.dsrc, 13, .fail⟩]).dec.iof = false ∧ (decodingB [⟨.dsrc, 13, .fail⟩]).dec.dstate = .ready
      ∧ ConsistentDict (decodingB [⟨.dsrc, 13, .fail⟩]).dec.inv
      ∧ (decodingB [⟨.dsrc, 13, .fail⟩]).dec.maxLen.toNat = maxLenOf (decodingB [⟨.dsrc, 13, .fail⟩]).dec.inv
      ∧ BitsAt (decodingB [⟨.dsrc, 13, .fail⟩]).params.dsrc 96 (List.replicate 7 false ++ [true])
      ∧ (∀ j < 8, (decodingB [⟨.dsrc, 13, .fail⟩]).answer .dsrc ((96 + j) / 8) = .ok)
      ∧ encodeBytes (codeIn (decodingB [⟨.dsrc, 13, .fail⟩]).dec.inv) (List.replicate 7 0x41)
        = some (List.replicate 7 false)
      ∧ [true].length < (decodingB [⟨.dsrc, 13, .fail⟩]).dec.maxLen.toNat
      ∧ (∀ e ∈ (decodingB [⟨.dsrc, 13, .fail⟩]).dec.inv, ¬ codeBits e.code <+: [true])
      ∧ 96 + 8 < 8 * (decodingB [⟨.dsrc, 13, .fail⟩]).params.dsrc.length
      ∧ (decodingB [⟨.dsrc, 13, .fail⟩]).answer .dsrc ((96 + 8) / 8) = .fail
      ∧ (after .decDecode (decodingB [⟨.dsrc, 13, .fail⟩])).dec.out = List.replicate 7 0x41)
    ∧ ((decodingB [⟨.dsrc, 12, .fail⟩]).dec.dstate = .ready
      ∧ (∀ e ∈ (decodingB [⟨.dsrc, 12, .fail⟩]).dec.inv, ¬ codeBits e.code <+: [])
      ∧ (decodingB [⟨.dsrc, 12, .fail⟩]).answer .dsrc ((96 + 0) / 8) = .fail) := by
  unfold BitsAt ConsistentDict InvEntry.Apart Code.InRange Code.InitialOf
  decide +kernel

theorem decoding_ok (s l : Word) (k : Nat) :
    (decoding [] s l).answer .dsrc k = .ok ∧ (decoding [] s l).answer .out k = .ok := ⟨rfl, rfl⟩

theorem witness_DecDecodeZeroLength :
    (decoding [] 0 0).dec.iof = false ∧ (decoding [] 0 0).dec.dstate = .ready ∧ (decoding [] 0 0).arg1 = 0 := by
  decide

/-- Nine bytes asked for where eight bits are left; the rest as in DecDecodeEmitsTheSymbols. -/
theorem witness_DecDecodeCorruptStream :
    exec .decDecode (decoding [] 96 72) = .next (after .decDecode (decoding [] 96 72))
    ∧ (after .decDecode (decoding [] 96 72)).code = .corruptStream := ⟨next_after (by decide), by decide⟩

/-- Two machines that differ in ARG, BR and OUT. -/
theorem witness_MembersDecodeIndependently :
    exec .decDecode (decoding [] 96 32) = .next (after .decDecode (decoding [] 96 32))
    ∧ exec .decDecode ((after .decDecode (decoding [] 96 32)).withBr faulty.br)
        = .next (after .decDecode ((after .decDecode (decoding [] 96 32)).withBr faulty.br))
    ∧ (after .decDecode (decoding [] 96 32)).dec.inv = (decoding [] 96 32).dec.inv
    ∧ (after .decDecode (decoding [] 96 32)).dec.maxLen = (decoding [] 96 32).dec.maxLen
    ∧ (after .decDecode (decoding [] 96 32)).dec.out ≠ (decoding [] 96 32).dec.out :=
  ⟨next_after (by decide), next_after (by decide), by decide, by decide, by decide⟩

/-- V-ENC13 and V-D10: W_BASE = 64, one member before x = "ab" and none after. -/
theorem witness_RoundTrip :
    ((counted 64 []).enc.iof = false ∧ (counted 64 []).enc.estate = .initial
      ∧ (∀ y, (counted 64 []).enc.codeOf y = none) ∧ (counted 64 []).enc.ew = Writer.reset 64
      ∧ (∀ y ∈ [0x61, 0x62], 0 < ((counted 64 []).enc.freqOf y).toNat)
      ∧ (analyzed 64 []).code = .ok)
    ∧ (compressed 64 []).code = .ok
    ∧ runs .encAnalyzeFinish (counted 64 []) = true
    ∧ runs .encCompress (withIn (analyzed 64 []) [0x61, 0x62]) = true
    ∧ runs .encCompress (withIn (compressed 64 []) [0x61, 0x62]) = true
    ∧ runs .encCompressFinish (after .encCompress (withIn (compressed 64 []) [0x61, 0x62])) = true
    ∧ 8 * (List.replicate 8 (0 : Byte)).length = (64 : Pos).toNat
    ∧ ((withDsrc (List.replicate 8 0 ++ (after .encCompressFinish
          (after .encCompress (withIn (compressed 64 []) [0x61, 0x62]))).enc.ew.sink) []).withArg0 64).dec.iof
        = false := by decide +kernel
theorem witness_RoundTrip_members :
    compressMembers [[0x61, 0x62]] (analyzed 64 []) = some (compressed 64 [])
    ∧ compressMembers [] (after .encCompress (withIn (compressed 64 []) [0x61, 0x62]))
      = some (after .encCompress (withIn (compressed 64 []) [0x61, 0x62])) := by
  refine ⟨?_, rfl⟩
  have h := next_after (show runs .encCompress (withIn (analyzed 64 []) [0x61, 0x62]) = true by decide +kernel)
  have hc : (compressed 64 []).code = .ok := by decide +kernel
  simp only [withIn] at h
  simp only [compressMembers, h]
  exact if_pos hc

/-- The invariants hold, and the step goes on, in a state with pending bits, symbols counted and codes set. -/
theorem witness_StepKeepsStreamInv :
    StreamInv (pending 0x12 ((bwAt [] 3 0x05 0xA5))) ∧ ∃ t, step (pending 0x12 (bwAt [] 3 0x05 0xA5)) = .next t :=
  ⟨⟨⟨by decide, by decide⟩, rfl, rfl, fun _ => ⟨(bwAt_clean [] 0xA5).1, fun _ => by decide⟩,
    fun _ => ⟨clean_of (by decide), fun _ => by decide⟩⟩,
   _, next_after (i := .bwWriteU8) (s := bwAt [] 3 0x05 0xA5) (by decide)⟩

theorem witness_StepKeepsCountInv :
    CountInv (pending 0x22 (counted 0 [])) ∧ ∃ t, step (pending 0x22 (counted 0 [])) = .next t :=
  ⟨witness_TreeShape.2.2.1, _, counted_finishes.1⟩

theorem witness_StepKeepsDictInv :
    DictInv (pending 0x25 (analyzed 0 [])) ∧ ∃ t, step (pending 0x25 (analyzed 0 [])) = .next t := by
  refine ⟨?_, _, next_after (i := .encPosition) (s := (pending 0x25 (analyzed 0 [])).withCmd none) (by decide +kernel)⟩
  unfold DictInv ConsistentDict InvEntry.Apart Code.InRange Code.InitialOf
  decide +kernel

theorem witness_StepKeepsInverseInv :
    InverseInv (pending 0x32 (decoding [] 96 32)) ∧ ∃ t, step (pending 0x32 (decoding [] 96 32)) = .next t := by
  refine ⟨?_, _, next_after (i := .decDecode) (s := (pending 0x32 (decoding [] 96 32)).withCmd none) (by decide)⟩
  unfold InverseInv ConsistentDict InvEntry.Apart Code.InRange Code.InitialOf
  decide +kernel

theorem witness_InvariantsHoldAtReset :
    Params.wf { Config.defaultParams with src := [0x2D], bwBase := 64, wBase := 8 } = true := by decide

/-- Three bits of 5 behind three pending bits, and both forms of 0xA5. -/
theorem witness_WriteBitsIsWriteWidth :
    ((bwAt [] 3 0x05 0).cmd = none ∧ (Line.bwWriteBits 5 3).wf = true
      ∧ ∃ t, runCommands ((List.range 3).map fun j => .bwWriteBit (Nat.testBit 5 (3 - 1 - j))) (bwAt [] 3 0x05 0).issued
        = some t)
    ∧ 0xA5 < 2 ^ 64 ∧ (bwAt [] 3 0x05 0).bw.iof = false ∧ (bwAt [] 3 0x05 0).bw.rel = false
    ∧ ∀ k, (bwAt [] 3 0x05 0).answer .bwSink k = .ok :=
  ⟨⟨rfl, by decide, Option.isSome_iff_exists.mp (by decide)⟩, by decide, rfl, rfl, fun _ => rfl⟩

theorem witness_HostLinesRunTheirCommands : State.reset.cmd = none ∧ (32 : Word).toNat = 8 * 4 := by decide

end Sys2Proof.Tests
end

section
/-! Proofs for 10_state. First the rules every proof over all steps uses: what a command leaves as it was, by its unit
(`CommandEnd`), everything a step can do (`step_cases`), and the induction step of an invariant (`step_keeps`). Then
one part per statement. -/

namespace Sys2Proof.Machine

variable {s t : State} {i : Instr}

/-! ### What a command leaves as it was -/

/-- The end of the command `i`: what it does not write, and what its code says of the unit's fault flag
(10_state R21, R39). -/
structure CommandEnd (i : Instr) (s t : State) : Prop where
  arg0 : t.arg0 = s.arg0
  arg1 : t.arg1 = s.arg1
  res : hasResult i = false → t.res = s.res
  cmd : t.cmd = s.cmd
  input : t.input = s.input
  inputIo : t.inputIo = s.inputIo
  params : t.params = s.params
  host : t.host = s.host
  br : unitOf i ≠ .br → t.br = s.br
  bw : unitOf i ≠ .bw → t.bw = s.bw
  enc : unitOf i ≠ .enc → t.enc = s.enc
  dec : unitOf i ≠ .dec → t.dec = s.dec
  fault_of_io : t.code = .io → t.faultOf (unitOf i) = true
  fault_of_not_io : t.code ≠ .io → t.faultOf (unitOf i) = s.faultOf (unitOf i)

theorem CommandEnd.of_br (hi : unitOf i = .br) (h : BrEnd i s t) : CommandEnd i s t := by
  obtain ⟨hf, rfl⟩ | ⟨hf, v, rd, hv, -, rfl⟩ | ⟨hf, -, rfl⟩ | ⟨hf, rfl⟩ := h
  · constructor <;> simp [hi, State.faultOf, hf]
  · constructor <;> simp +contextual [hi, State.faultOf, hf, hv, State.withBrReader]
  · constructor <;> simp [hi, State.faultOf, hf]
  · constructor <;> simp [hi, State.faultOf]

theorem CommandEnd.of_bw (hi : unitOf i = .bw) (h : BwEnd i s t) : CommandEnd i s t := by
  obtain ⟨hf, rfl⟩ | ⟨hf, -, -, rfl⟩ | ⟨hf, rfl, rfl⟩ | ⟨hf, -, -, w, rel, -, -, rfl⟩ | ⟨hf, -, w, -, rfl⟩ := h
  · constructor <;> simp [hi, State.faultOf, hf]
  · constructor <;> simp [hi, State.faultOf, hf]
  · constructor <;> simp [unitOf, hasResult, State.faultOf, hf]
  · constructor <;> simp [hi, State.faultOf, hf]
  · constructor <;> simp [hi, State.faultOf]

theorem CommandEnd.of_enc (hi : unitOf i = .enc) (h : EncEnd i s t) : CommandEnd i s t := by
  obtain ⟨hf, rfl⟩ | ⟨hf, -, rfl⟩ | ⟨hf, -, e, v, c, rfl, -, hio, -, -, hv, -⟩ := h
  · constructor <;> simp [hi, State.faultOf, hf]
  · constructor <;> simp [hi, State.faultOf, hf]
  · constructor <;> simp +contextual [hi, State.faultOf, hf, hv, ← hio]

theorem CommandEnd.of_dec (hi : unitOf i = .dec) (h : DecEnd i s t) : CommandEnd i s t := by
  have hres : hasResult i = true := by cases i <;> simp_all [unitOf, hasResult]
  obtain ⟨hf, rfl⟩ | ⟨hf, -, -, rfl⟩ | ⟨hf, d, v, c, rfl, hio, -⟩ := h
  · constructor <;> simp [hi, State.faultOf, hf]
  · constructor <;> simp [hi, State.faultOf, hf]
  · constructor <;> simp [hi, hres, State.faultOf, hf, ← hio]

/-- Every next state of a command is one of its unit's ends. -/
theorem exec_commandEnd (h : exec i s = .next t) : CommandEnd i s t := by
  cases hi : unitOf i with
  | br => exact .of_br hi (br_cases hi h)
  | bw => exact .of_bw hi (bw_cases hi h)
  | enc => exact .of_enc hi (enc_cases hi h)
  | dec => exact .of_dec hi (dec_cases hi h)

/-- A command leaves the fault flags of the other units (10_state R39). -/
theorem CommandEnd.faultOf_eq (h : CommandEnd i s t) {u : UnitName} (hu : u ≠ unitOf i) :
    t.faultOf u = s.faultOf u := by
  cases u with
  | br => simp only [State.faultOf, h.br hu.symm]
  | bw => simp only [State.faultOf, h.bw hu.symm]
  | enc => simp only [State.faultOf, h.enc hu.symm]
  | dec => simp only [State.faultOf, h.dec hu.symm]

/-! ### What a step can do -/

theorem step_pending {word : CmdWord} (hc : s.cmd = some word) : step s = runWord word (s.withCmd none) := by
  simp only [step, hc]

theorem runWord_of_decode {word : CmdWord} (hd : decode word = some i) : runWord word s = exec i s := by
  simp only [runWord, hd]

theorem runWord_illegal {word : CmdWord} (hd : decode word = none) :
    runWord word s = .next (s.withCode .illegalCommand) := by
  simp only [runWord, hd, State.illegalCommand, State.raise]

theorem step_waits (hc : s.cmd = none) (hh : s.host = []) : step s = .next s := by
  simp only [step, hc, hh]

theorem step_hostMove {m : HostMove} {ms : List HostMove} (hc : s.cmd = none) (hh : s.host = m :: ms) :
    step s = .next ((s.withHost ms).hostMove m) := by
  simp only [step, hc, hh]

/-- A step runs the pending command, ends an illegal word, waits, or makes the host's next move. -/
theorem step_cases (h : step s = .next t) :
    (∃ word i, s.cmd = some word ∧ decode word = some i ∧ exec i (s.withCmd none) = .next t)
    ∨ (∃ word, s.cmd = some word ∧ decode word = none ∧ t = (s.withCmd none).withCode .illegalCommand)
    ∨ (s.cmd = none ∧ s.host = [] ∧ t = s)
    ∨ (∃ m ms, s.cmd = none ∧ s.host = m :: ms ∧ t = (s.withHost ms).hostMove m) := by
  cases hc : s.cmd with
  | some word =>
    rw [step_pending hc] at h
    cases hd : decode word with
    | some i => exact .inl ⟨word, i, rfl, hd, by rwa [runWord_of_decode hd] at h⟩
    | none => rw [runWord_illegal hd] at h; cases h; exact .inr (.inl ⟨word, rfl, hd, rfl⟩)
  | none =>
    cases hh : s.host with
    | nil => rw [step_waits hc hh] at h; cases h; exact .inr (.inr (.inl ⟨rfl, rfl, rfl⟩))
    | cons m ms => rw [step_hostMove hc hh] at h; cases h; exact .inr (.inr (.inr ⟨m, ms, rfl, rfl, rfl⟩))

/-- The units and the parameters are as they were, and the host has no new move. -/
structure State.SameUnits (s t : State) : Prop where
  br : t.br = s.br
  bw : t.bw = s.bw
  enc : t.enc = s.enc
  dec : t.dec = s.dec
  params : t.params = s.params
  host : ∀ m ∈ t.host, m ∈ s.host

/-- A step that neither runs a command nor resets leaves the units. -/
theorem step_units (h : step s = .next t) :
    (∃ i, exec i (s.withCmd none) = .next t)
    ∨ (∃ p ms, s.cmd = none ∧ s.host = .reset p :: ms ∧ t = (State.resetWith p).withHost ms)
    ∨ s.SameUnits t := by
  obtain ⟨-, i, -, -, h⟩ | ⟨-, -, -, rfl⟩ | ⟨-, -, rfl⟩ | ⟨m, ms, hc, hh, rfl⟩ := step_cases h
  · exact .inl ⟨i, h⟩
  · exact .inr (.inr ⟨rfl, rfl, rfl, rfl, rfl, fun _ hm => hm⟩)
  · exact .inr (.inr ⟨rfl, rfl, rfl, rfl, rfl, fun _ hm => hm⟩)
  · have hms : ∀ m' ∈ ms, m' ∈ s.host := fun m' hm => hh ▸ List.mem_cons_of_mem _ hm
    cases m with
    | reset p => exact .inr (.inl ⟨p, ms, hc, hh, rfl⟩)
    | writeArg0 v => exact .inr (.inr ⟨rfl, rfl, rfl, rfl, rfl, hms⟩)
    | writeArg1 v => exact .inr (.inr ⟨rfl, rfl, rfl, rfl, rfl, hms⟩)
    | issue w input io => exact .inr (.inr ⟨rfl, rfl, rfl, rfl, rfl, hms⟩)

/-- A step that does not reset runs a command or leaves the units. -/
theorem step_units_of_not_resets (h : step s = .next t) (hr : ¬ s.Resets) :
    (∃ i, exec i (s.withCmd none) = .next t) ∨ s.SameUnits t := by
  obtain h | ⟨p, ms, hc, hh, -⟩ | h := step_units h
  · exact .inl h
  · exact absurd ⟨hc, p, ms, hh⟩ hr
  · exact .inr h

/-- An invariant of the units, the parameters and the host's moves is kept by every step when every command and
every reset keep it. -/
theorem step_keeps {P : State → Prop} (same : ∀ {s t : State}, s.SameUnits t → P s → P t)
    (command : ∀ {i : Instr} {s t : State}, exec i s = .next t → P s → P t)
    (reset : ∀ {s : State} {p : Params} {ms : List HostMove}, s.host = .reset p :: ms → P s →
      P ((State.resetWith p).withHost ms))
    (hs : P s) (h : step s = .next t) : P t := by
  obtain ⟨i, h⟩ | ⟨p, ms, -, hh, rfl⟩ | h := step_units h
  · exact command h (same (s := s) (t := s.withCmd none) ⟨rfl, rfl, rfl, rfl, rfl, fun _ hm => hm⟩ hs)
  · exact reset hh hs
  · exact same h hs

/-! ### A step with a word pending (10_state R20, R22) -/

/-- Settles O5: the step takes the word from CMD and runs the command it decodes to. -/
theorem stepRunsThePendingWord : Obligations.StepRunsThePendingWord :=
  fun _ _ _ hc hd => (step_pending hc).trans (runWord_of_decode hd)

/-! ### STATUS (10_state R23) -/

theorem StatusCode.number_le (c : StatusCode) : c.number ≤ 8 := by cases c <;> decide
theorem EState.number_le (e : EState) : e.number ≤ 4 := by cases e <;> decide
theorem DState.number_le (d : DState) : d.number ≤ 1 := by cases d <;> decide

/-- No field of STATUS reaches into the next one, so each is a digit of the word: a quotient, cut to the field's
width. -/
theorem State.status_fields (s : State) :
    s.status.toNat % 2 ^ 8 = s.code.number
    ∧ s.status.toNat / 2 ^ 8 % 2 ^ 3 = s.enc.estate.number
    ∧ s.status.toNat / 2 ^ 11 % 2 ^ 2 = s.dec.dstate.number
    ∧ s.status.toNat / 2 ^ 13 % 2 = s.br.iof.toNat
    ∧ s.status.toNat / 2 ^ 14 % 2 = s.bw.iof.toNat
    ∧ s.status.toNat / 2 ^ 15 % 2 = s.enc.iof.toNat
    ∧ s.status.toNat / 2 ^ 16 % 2 = s.dec.iof.toNat
    ∧ s.status.toNat / 2 ^ 17 % 2 = s.bw.rel.toNat
    ∧ s.status.toNat / 2 ^ 18 = 0 := by
  have h1 := s.code.number_le
  have h2 := s.enc.estate.number_le
  have h3 := s.dec.dstate.number_le
  have h4 := s.br.iof.toNat_le
  have h5 := s.bw.iof.toNat_le
  have h6 := s.enc.iof.toNat_le
  have h7 := s.dec.iof.toNat_le
  have h8 := s.bw.rel.toNat_le
  rw [State.status, BitVec.toNat_ofNat]
  refine ⟨?_, ?_, ?_, ?_, ?_, ?_, ?_, ?_, ?_⟩ <;> omega

/-- A bit of a word, from the number it is the last digit of. -/
theorem getLsbD_of_digit {n : Nat} {w : BitVec n} {k : Nat} {b : Bool} (h : w.toNat / 2 ^ k % 2 = b.toNat) :
    w.getLsbD k = b := by
  rw [BitVec.getLsbD, Nat.testBit_eq_decide_div_mod_eq, h]
  cases b <;> rfl

/-- Settles O8: the fields do not overlap, so each is read off as a digit of the word. -/
theorem statusLayout : Obligations.StatusLayout := by
  intro s
  obtain ⟨hcode, hestate, hdstate, hbr, hbw, henc, hdec, hrel, hrest⟩ := s.status_fields
  refine ⟨?_, ?_, ?_, getLsbD_of_digit hbr, getLsbD_of_digit hbw, getLsbD_of_digit henc, getLsbD_of_digit hdec,
    getLsbD_of_digit hrel, ?_⟩
  · rw [BitVec.extractLsb'_toNat, Nat.shiftRight_zero, hcode]
    cases s.code <;> rfl
  · rw [BitVec.extractLsb'_toNat, Nat.shiftRight_eq_div_pow, hestate]
    cases s.enc.estate <;> rfl
  · rw [BitVec.extractLsb'_toNat, Nat.shiftRight_eq_div_pow, hdstate]
    cases s.dec.dstate <;> rfl
  · apply BitVec.eq_of_toNat_eq
    rw [BitVec.extractLsb'_toNat, Nat.shiftRight_eq_div_pow, hrest]
    rfl

/-! ### Rules over all commands (10_state R21, R39) -/

/-- Settles O22, by the ends of the commands of each unit. -/
theorem commandsStayInTheirUnit : Obligations.CommandsStayInTheirUnit := by
  intro i s t h
  have e := exec_commandEnd h
  exact ⟨e.arg0, e.arg1, e.res, e.cmd, e.input, e.inputIo, e.params, e.host, e.br, e.bw, e.enc, e.dec⟩

/-- A command whose unit has a fault ends with Io: the check of the flag comes first in every unit (R234). -/
theorem exec_of_fault (h : s.faultOf (unitOf i) = true) : exec i s = .next (s.withCode .io) := by
  cases hi : unitOf i <;> rw [hi] at h
  case br => cases i <;> simp only [unitOf, reduceCtorEq] at hi <;> exact brGuard_fault h
  case bw => cases i <;> simp only [unitOf, reduceCtorEq] at hi <;> exact bwGuardIo_fault h
  case enc => cases i <;> simp only [unitOf, reduceCtorEq] at hi <;> exact encGuardIo_fault h
  case dec => cases i <;> simp only [unitOf, reduceCtorEq] at hi <;> exact decGuard_fault h

/-- No step but reset clears a fault flag: the unit's own commands end with Io, and no other command, and no move of
the host, writes the flag. -/
theorem step_keeps_fault (h : step s = .next t) (hr : ¬ s.Resets) {u : UnitName} (hu : s.faultOf u = true) :
    t.faultOf u = true := by
  obtain ⟨i, he⟩ | hsame := step_units_of_not_resets h hr
  · by_cases hi : u = unitOf i
    · subst hi
      have hio : exec i (s.withCmd none) = .next ((s.withCmd none).withCode .io) := exec_of_fault hu
      rw [hio] at he; cases he
      exact hu
    · exact ((exec_commandEnd he).faultOf_eq hi).trans hu
  · cases u <;> simpa only [State.faultOf, hsame.br, hsame.bw, hsame.enc, hsame.dec] using hu

/-- Settles O21, by the ends of the commands of each unit and of the steps. -/
theorem ioFaultIsSticky : Obligations.IoFaultIsSticky :=
  ⟨fun _ _ hf => exec_of_fault hf,
   fun _ _ _ h => (exec_commandEnd h).fault_of_io,
   fun _ _ _ h => (exec_commandEnd h).fault_of_not_io,
   fun _ _ _ h _ hu => (exec_commandEnd h).faultOf_eq hu,
   fun _ _ h hr _ hu => step_keeps_fault h hr hu⟩

/-! ### ESTATE (10_state R29) -/

/-- Where the state table lets a command run, ESTATE moves forward (43_encoder R170). -/
theorem number_le_estateAfter {e : EState} {c : StatusCode} (hr : encRunsIn i e = true) :
    e.number ≤ (estateAfter i c e).number := by
  have initial : ∀ {e : EState} {n : Nat}, (e == .initial) = true → e.number ≤ n := by
    intro e n h
    rw [eq_of_beq h]
    exact Nat.zero_le n
  unfold estateAfter
  split
  · exact initial hr
  · exact initial hr
  · rw [eq_of_beq (show (_ == EState.analyzed) = true from hr)]
    decide
  · exact EState.number_le _
  · exact le_refl _

/-- A command does not move ESTATE backwards. -/
theorem exec_estate_number_le (h : exec i s = .next t) : s.enc.estate.number ≤ t.enc.estate.number := by
  by_cases hi : unitOf i = .enc
  · obtain ⟨-, rfl⟩ | ⟨-, -, rfl⟩ | ⟨-, hr, e, v, c, rfl, he, -⟩ := enc_cases hi h
    · exact le_refl _
    · exact le_refl _
    · simp only [State.withCode_enc, State.withRes_enc, State.withEnc_enc, he]
      exact number_le_estateAfter hr
  · rw [(exec_commandEnd h).enc hi]

/-- Settles O27: only a command of ENC writes ESTATE, and the state table only goes forward. -/
theorem encStateOnlyMovesForward : Obligations.EncStateOnlyMovesForward := by
  intro s t h hr
  obtain ⟨i, he⟩ | hsame := step_units_of_not_resets h hr
  · exact exec_estate_number_le (s := s.withCmd none) he
  · rw [hsame.enc]

end Sys2Proof.Machine
end

section
/-! Proofs for 10_state: the four invariants. For each, what it is worth after reset, what every command does to it,
and the statement by `step_keeps`. -/

namespace Sys2Proof.Machine

variable {s t : State} {i : Instr}

/-! ### The streams' invariant (10_state R26, R27) -/

theorem Writer.inv_reset (base : Pos) : (Writer.reset base).Inv base :=
  ⟨fun i _ => by simp [Writer.reset], fun _ => by simp [Writer.reset, Writer.bitCount]⟩

theorem streamInv_reset {p : Params} {ms : List HostMove} (hp : p.wf = true) (hm : ∀ m ∈ ms, m.wf = true) :
    StreamInv ((State.resetWith p).withHost ms) :=
  ⟨⟨hp, hm⟩, rfl, rfl, fun _ => Writer.inv_reset _, fun _ => Writer.inv_reset _⟩

/-- The host's reset moves carry legal parameters, so the new run starts with them. -/
theorem ParamsInv.of_host_reset {p : Params} {ms : List HostMove} (hs : ParamsInv s) (hh : s.host = .reset p :: ms) :
    p.wf = true ∧ ∀ m ∈ ms, m.wf = true := by
  obtain ⟨-, hm⟩ := hs
  rw [hh] at hm
  exact List.forall_mem_cons.mp hm

/-- No command puts a bit into BR's queue. -/
theorem exec_br_pb (h : exec i s = .next t) (hs : s.br.rd.pb = []) : t.br.rd.pb = [] := by
  by_cases hi : unitOf i = .br
  · obtain ⟨-, rfl⟩ | ⟨-, v, rd, -, hpb, rfl⟩ | ⟨-, -, rfl⟩ | ⟨-, rfl⟩ := br_cases hi h
    · exact hs
    · exact hpb hs
    · exact hs
    · exact hs
  · rwa [(exec_commandEnd h).br hi]

/-- No command puts a bit into DR's queue. -/
theorem exec_dec_pb (h : exec i s = .next t) (hs : s.dec.rd.pb = []) : t.dec.rd.pb = [] := by
  by_cases hi : unitOf i = .dec
  · obtain ⟨-, rfl⟩ | ⟨-, -, -, rfl⟩ | ⟨-, d, v, c, rfl, -, -, -, -, -, hpb, -, -⟩ := dec_cases hi h
    · exact hs
    · exact hs
    · exact hpb hs
  · rwa [(exec_commandEnd h).dec hi]

/-- A command that ends without a fault keeps BW's writer in its invariant. -/
theorem exec_bw_inv {base : Pos} (h : exec i s = .next t) (hs : s.bw.iof = false → s.bw.wr.Inv base)
    (ht : t.bw.iof = false) : t.bw.wr.Inv base := by
  by_cases hi : unitOf i = .bw
  · obtain ⟨-, rfl⟩ | ⟨-, -, -, rfl⟩ | ⟨-, -, rfl⟩ | ⟨hf, -, -, w, rel, -, hw, rfl⟩ | ⟨-, -, w, -, rfl⟩ :=
      bw_cases hi h
    · exact hs ht
    · exact hs ht
    · exact hs ht
    · exact hw base (hs hf)
    · cases ht
  · rw [(exec_commandEnd h).bw hi] at ht ⊢
    exact hs ht

/-- A command that ends without a fault keeps EW in its invariant. -/
theorem exec_enc_inv {base : Pos} (h : exec i s = .next t) (hs : s.enc.iof = false → s.enc.ew.Inv base)
    (ht : t.enc.iof = false) : t.enc.ew.Inv base := by
  by_cases hi : unitOf i = .enc
  · obtain ⟨-, rfl⟩ | ⟨-, -, rfl⟩ | ⟨hf, -, e, v, c, rfl, -, -, -, -, -, -, -, hw, -⟩ := enc_cases hi h
    · exact hs ht
    · exact hs ht
    · exact hw ht base (hs hf)
  · rw [(exec_commandEnd h).enc hi] at ht ⊢
    exact hs ht

theorem exec_keeps_streamInv (h : exec i s = .next t) (hs : StreamInv s) : StreamInv t := by
  obtain ⟨hp, hbr, hdec, hbw, henc⟩ := hs
  have e := exec_commandEnd h
  refine ⟨?_, exec_br_pb h hbr, exec_dec_pb h hdec, ?_, ?_⟩
  · rwa [ParamsInv, e.params, e.host]
  · rw [e.params]; exact exec_bw_inv h hbw
  · rw [e.params]; exact exec_enc_inv h henc

theorem State.SameUnits.streamInv (h : s.SameUnits t) (hs : StreamInv s) : StreamInv t := by
  obtain ⟨⟨hp, hm⟩, hs⟩ := hs
  refine ⟨⟨h.params ▸ hp, fun m hmt => hm m (h.host m hmt)⟩, ?_⟩
  rwa [h.br, h.bw, h.enc, h.dec, h.params]

/-- Settles O49: each unit's commands keep its stream's invariant, and a reset starts the run with writers at their
bases. -/
theorem stepKeepsStreamInv : Obligations.StepKeepsStreamInv := by
  intro s t hs h
  refine step_keeps (fun same => same.streamInv) exec_keeps_streamInv (fun hh hs => ?_) hs h
  obtain ⟨hp, hm⟩ := hs.1.of_host_reset hh
  exact streamInv_reset hp hm

/-! ### The counts (10_state R28, R31) -/

theorem countInv_reset (p : Params) : CountInv (State.resetWith p) := by
  have h0 : freqSum (Vector.replicate 256 0) = 0 := by
    rw [freqSum, Vector.toList_replicate, List.map_replicate, List.sum_replicate]
    rfl
  exact ⟨h0.symm, h0 ▸ by decide⟩

/-- Symbols counted one after another add their number to the sum of the counts, wherever it fits. -/
theorem freqSum_countSymbols (bs : List Byte) {e : Enc} (h : freqSum e.freq + bs.length < 2 ^ 64) :
    freqSum (bs.foldl Enc.countSymbol e).freq = freqSum e.freq + bs.length := by
  induction bs generalizing e with
  | nil => rfl
  | cons b bs ih =>
    rw [List.length_cons] at h ⊢
    have hle := freqOf_le_freqSum e b
    have hb : freqSum (e.countSymbol b).freq = freqSum e.freq + 1 := freqSum_countSymbol e b (by omega)
    rw [List.foldl_cons, ih (by omega), hb]
    omega

/-- Counting below TOTAL_LIMIT keeps TOTAL the sum of the counts (42_tree_dictionary R140). -/
theorem countSymbols_keeps_count (bs : List Byte) {e : Enc} (he : e.total.toNat = freqSum e.freq)
    (h : e.total.toNat + bs.length < 2 ^ 61) :
    (bs.foldl Enc.countSymbol e).total.toNat = freqSum (bs.foldl Enc.countSymbol e).freq
      ∧ freqSum (bs.foldl Enc.countSymbol e).freq < 2 ^ 61 := by
  have hsum := freqSum_countSymbols bs (e := e) (by omega)
  rw [hsum, countSymbols_total, BitVec.toNat_add, BitVec.toNat_ofNat]
  omega

/-- ENC_ANALYZE counts all of IN, or the bytes before the one that failed (43_encoder R171). -/
theorem execEncAnalyze_keeps_countInv (h : execEncAnalyze s = .next t) (hs : CountInv s) : CountInv t := by
  obtain ⟨-, rfl⟩ | ⟨-, -, rfl⟩ | ⟨-, -, hlim, ⟨e, he, rfl⟩ | ⟨e, he, rfl⟩⟩ := execEncAnalyze_eq_next_iff.mp h
  · exact hs
  · exact hs
  · obtain ⟨-, rfl⟩ := analyzeLoop_eq_ok_iff.mp he
    exact countSymbols_keeps_count s.input hs.1 hlim
  · obtain ⟨k, hk, -, -, rfl⟩ := analyzeLoop_eq_io_iff.mp he
    refine countSymbols_keeps_count (s.input.take k) hs.1 ?_
    rw [List.length_take]
    omega

theorem exec_keeps_countInv (h : exec i s = .next t) (hs : CountInv s) : CountInv t := by
  by_cases hi : unitOf i = .enc
  · by_cases ha : i = .encAnalyze
    · subst ha
      exact execEncAnalyze_keeps_countInv h hs
    · obtain ⟨-, rfl⟩ | ⟨-, -, rfl⟩ | ⟨-, -, e, v, c, rfl, -, -, -, -, -, -, -, -, hcount, -⟩ := enc_cases hi h
      · exact hs
      · exact hs
      · obtain ⟨hfreq, htotal⟩ := hcount ha
        rwa [CountInv, State.withCode_enc, State.withRes_enc, State.withEnc_enc, hfreq, htotal]
  · rwa [CountInv, (exec_commandEnd h).enc hi]

/-- Settles O50: only ENC_ANALYZE counts, and it is refused where the sum would reach TOTAL_LIMIT. -/
theorem stepKeepsCountInv : Obligations.StepKeepsCountInv := by
  intro s t hs h
  exact step_keeps (fun same hs => by rwa [CountInv, same.enc]) exec_keeps_countInv
    (fun {_ p _} _ _ => countInv_reset p) hs h

/-! ### DICT (10_state R33; 42_tree_dictionary R151, R153) -/

theorem dictInv_reset (p : Params) : DictInv (State.resetWith p) := by
  refine ⟨fun _ _ => ⟨rfl, fun b => ?_⟩, ?_⟩
  · simp [State.resetWith, Enc.reset, Enc.codeOf]
  · rintro (h | h) <;> cases h

/-- Built on an empty DICT, the dictionary has a code for exactly the symbols counted. -/
theorem buildCode_isSome_iff {e : Enc} (hempty : ∀ b, e.codeOf b = none) (b : Byte) :
    (e.buildCode.codeOf b).isSome = true ↔ 0 < (e.freqOf b).toNat := by
  rw [buildCode_codeOf, hempty]
  split <;> simp_all

/-- An entry of the built dictionary is its symbol's path in the tree, of 1 to 16 steps. -/
theorem buildCode_entry {e : Enc} (hempty : ∀ b, e.codeOf b = none) (hl : codeTooLong e.buildCode.dict = false)
    {x : InvEntry} (hx : x ∈ dictEntries e.buildCode.dict) :
    0 < (e.freqOf x.sym).toNat ∧ codeBits x.code = e.path x.sym ∧ x.code.InRange := by
  have hx := (mem_dictEntries _ x).mp hx
  have hfreq : 0 < (e.freqOf x.sym).toNat := (buildCode_isSome_iff hempty x.sym).mp (by rw [hx]; rfl)
  obtain ⟨c, hc, hpath, hrange⟩ := buildCode_path hl hfreq
  obtain rfl : x.code = c := Option.some.inj (hx.symm.trans hc)
  exact ⟨hfreq, hpath, hrange⟩

/-- The paths of different symbols part in the tree, so the built dictionary is consistent where no code is too
long. -/
theorem buildCode_consistent {e : Enc} (hempty : ∀ b, e.codeOf b = none)
    (hl : codeTooLong e.buildCode.dict = false) : ConsistentDict (dictEntries e.buildCode.dict) := by
  refine ⟨fun x hx => (buildCode_entry hempty hl hx).2.2, ?_⟩
  refine (dictEntries_ascend e.buildCode).imp_of_mem fun {x y} hx hy hlt => ?_
  have hne : x.sym ≠ y.sym := fun h => by rw [h] at hlt; exact lt_irrefl _ hlt
  obtain ⟨fx, px, -⟩ := buildCode_entry hempty hl hx
  obtain ⟨fy, py, -⟩ := buildCode_entry hempty hl hy
  refine ⟨hne, ?_, ?_⟩
  · rw [Code.InitialOf, px, py]
    exact path_apart fx fy hne
  · rw [Code.InitialOf, px, py]
    exact path_apart fy fx hne.symm

/-- ENC_ANALYZE_FINISH builds DICT from an empty one; the ends that leave no dictionary leave ESTATE Failed or the
fault (43_encoder R172). -/
theorem execEncAnalyzeFinish_keeps_dictInv (h : execEncAnalyzeFinish s = .next t) (hs : DictInv s) : DictInv t := by
  obtain ⟨-, rfl⟩ | ⟨-, -, rfl⟩ | ⟨hf, he, ⟨-, rfl⟩ | ⟨hl, ⟨w, -, rfl⟩ | ⟨w, -, rfl⟩⟩⟩ :=
    execEncAnalyzeFinish_eq_next_iff.mp h
  · exact hs
  · exact hs
  · exact ⟨nofun, fun h => h.elim nofun nofun⟩
  · obtain ⟨-, hempty⟩ := hs.1 he hf
    exact ⟨fun h => (nomatch h), fun _ => ⟨buildCode_consistent hempty hl, buildCode_isSome_iff hempty⟩⟩
  · have hestate : s.enc.estate ≠ .analyzed ∧ s.enc.estate ≠ .compressed := by simp [he]
    exact ⟨fun _ h => (nomatch h), fun h => (h.elim hestate.1 hestate.2).elim⟩

/-- ESTATE is Initial after a command only where it was so before: no command goes back. -/
theorem eq_initial_of_estateAfter {e : EState} {c : StatusCode} (h : estateAfter i c e = .initial) : e = .initial := by
  unfold estateAfter at h
  split at h
  case h_5 => exact h
  all_goals cases h

/-- Only ENC_ANALYZE_FINISH leads into Analyzed and Compressed from elsewhere, and ENC_ANALYZE does not run there. -/
theorem coded_of_estateAfter {e : EState} {c : StatusCode} (hr : encRunsIn i e = true)
    (hi : i ≠ .encAnalyzeFinish) (h : estateAfter i c e = .analyzed ∨ estateAfter i c e = .compressed) :
    (e = .analyzed ∨ e = .compressed) ∧ i ≠ .encAnalyze := by
  unfold estateAfter at h
  split at h
  · exact absurd rfl hi
  · exact absurd rfl hi
  · exact ⟨.inl (eq_of_beq hr), nofun⟩
  · obtain h | h := h <;> cases h
  · refine ⟨h, fun hi => ?_⟩
    subst hi
    rw [eq_of_beq (show (_ == EState.initial) = true from hr)] at h
    obtain h | h := h <;> cases h

theorem exec_keeps_dictInv (h : exec i s = .next t) (hs : DictInv s) : DictInv t := by
  by_cases hi : unitOf i = .enc
  · by_cases ha : i = .encAnalyzeFinish
    · subst ha
      exact execEncAnalyzeFinish_keeps_dictInv h hs
    · obtain ⟨-, rfl⟩ | ⟨-, -, rfl⟩ |
        ⟨hf, hr, e, v, c, rfl, hestate, -, -, -, -, -, -, -, hcount, hbuild⟩ := enc_cases hi h
      · exact hs
      · exact hs
      · obtain ⟨htree, hdict, -⟩ := hbuild ha
        have hcode : e.codeOf = s.enc.codeOf := by funext b; simp only [Enc.codeOf, hdict]
        refine ⟨fun h0 _ => ?_, fun h0 => ?_⟩
        · show e.tree = [] ∧ ∀ b, e.codeOf b = none
          rw [htree, hcode]
          exact hs.1 (eq_initial_of_estateAfter (hestate.symm.trans h0)) hf
        · obtain ⟨hcoded, hna⟩ := coded_of_estateAfter (c := c) hr ha (hestate ▸ h0)
          have hfreq : e.freqOf = s.enc.freqOf := by funext b; simp only [Enc.freqOf, (hcount hna).1]
          show ConsistentDict (dictEntries e.dict) ∧ ∀ b, (e.codeOf b).isSome = true ↔ 0 < (e.freqOf b).toNat
          rw [hdict, hcode, hfreq]
          exact hs.2 hcoded
  · rwa [DictInv, (exec_commandEnd h).enc hi]

/-- Settles O51: DICT is written once, by ENC_ANALYZE_FINISH from an empty one, and no path in the
tree is an initial segment of another. -/
theorem stepKeepsDictInv : Obligations.StepKeepsDictInv := by
  intro s t hs h
  exact step_keeps (fun same hs => by rwa [DictInv, same.enc]) exec_keeps_dictInv
    (fun {_ p _} _ _ => dictInv_reset p) hs h

/-! ### INV (10_state R35; 44_decoder R200, R203) -/

theorem consistentDict_nil : ConsistentDict [] := ⟨by simp, .nil⟩

theorem inverseInv_of_empty (hinv : s.dec.inv = []) (hmax : s.dec.maxLen = 0) : InverseInv s := by
  rw [InverseInv, hinv, hmax]
  exact ⟨consistentDict_nil, by simp, rfl, fun _ => rfl⟩

theorem exec_keeps_inverseInv (h : exec i s = .next t) (hs : InverseInv s) : InverseInv t := by
  by_cases hi : unitOf i = .dec
  · obtain ⟨-, rfl⟩ | ⟨-, -, -, rfl⟩ | ⟨-, d, v, c, rfl, -, -, -, -, -, -, hdecode, hnew⟩ := dec_cases hi h
    · exact hs
    · exact hs
    · cases i <;> simp only [unitOf, reduceCtorEq] at hi
      case decNew =>
        obtain ⟨-, ⟨-, hready, hinv, hmax⟩ | ⟨-, -, hinv, hmax⟩⟩ := hnew rfl
        · exact ⟨hinv, hinv.length_le, hmax, fun h => nomatch hready.symm.trans h⟩
        · exact inverseInv_of_empty hinv hmax
      case decDecode =>
        obtain ⟨hstate, hinv, hmax⟩ := hdecode rfl
        rwa [InverseInv, State.withCode_dec, State.withRes_dec, State.withDec_dec, hstate, hinv, hmax]
  · rwa [InverseInv, (exec_commandEnd h).dec hi]

/-- Settles O52: DEC_NEW leaves the table its entry check accepted, or none; DEC_DECODE leaves INV. -/
theorem stepKeepsInverseInv : Obligations.StepKeepsInverseInv := by
  intro s t hs h
  exact step_keeps (fun same hs => by rwa [InverseInv, same.dec]) exec_keeps_inverseInv
    (fun _ _ => inverseInv_of_empty rfl rfl) hs h

end Sys2Proof.Machine
end

section
/-! Proofs for 20_memory. First what the writer's and the reader's commands do when their transfers are answered ok, in
terms of the bits a writer holds (`Writer.bits`) and of those at a position of a source (`BitsAt`). Then one part per
statement. -/

namespace Sys2Proof.Machine

variable {s t : State} {i : Instr} {n : Nat}

/-! ### Bits of bytes and of operands (20_memory R52, R53) -/

/-- The bits of a byte sequence stand in it from its first position on. -/
theorem bitsAt_allBits (bytes : List Byte) : BitsAt bytes 0 (allBits bytes) :=
  ⟨.inr (by simp [length_allBits]), by rw [length_allBits, allBits]⟩

/-- A part of the bits of a byte sequence stands where the bits before it end. -/
theorem bitsAt_of_allBits_eq {bytes : List Byte} {a b c : List Bool} (h : allBits bytes = a ++ (b ++ c)) :
    BitsAt bytes a.length b := by
  have hb := (h ▸ bitsAt_allBits bytes).right.left
  rwa [Nat.zero_add] at hb

theorem bitrev8_getLsbD (b : Byte) {k : Nat} (hk : k < 8) : (bitrev8 b).getLsbD k = b.getLsbD (7 - k) := by
  have h := testBit_natOfBits ((List.range 8).map fun j => b.getLsbD j) (7 - k) (by simp; omega)
  simp only [List.length_map, List.length_range, List.getElem_map, List.getElem_range] at h
  rw [bitrev8, BitVec.getLsbD_ofNat, ← h, show 8 - 1 - (7 - k) = k by omega]
  simp [hk]

/-- A byte of an operand, reversed, is the stream image of its eight bits, most significant first (R52). -/
theorem allBits_bitrev8_extractLsb' (v : Word) (k : Nat) :
    allBits [bitrev8 (v.extractLsb' k 8)] = lowBits 8 (v >>> k) := by
  rw [allBits_singleton, lowBits, List.map_inj_left]
  intro j hj
  rw [List.mem_range] at hj
  rw [bitrev8_getLsbD _ hj, BitVec.getLsbD_extractLsb', BitVec.getLsbD_ushiftRight]
  simp; omega

/-- The low bits of an operand are its high part's followed by its low part's. -/
theorem lowBits_add (m n : Nat) (v : Word) : lowBits (m + n) v = lowBits m (v >>> n) ++ lowBits n v := by
  have high : ∀ j ∈ List.range m, v.getLsbD (m + n - 1 - j) = (v >>> n).getLsbD (m - 1 - j) := by
    intro j hj
    rw [List.mem_range] at hj
    rw [BitVec.getLsbD_ushiftRight, show m + n - 1 - j = n + (m - 1 - j) by omega]
  have low : ∀ j, v.getLsbD (m + n - 1 - (m + j)) = v.getLsbD (n - 1 - j) := by
    intro j
    rw [show m + n - 1 - (m + j) = n - 1 - j by omega]
  simp only [lowBits, List.range_add, List.map_append, List.map_map, Function.comp_def, low, List.map_congr_left high]

/-! ### Writers (41_bit_writer R131) -/

theorem Writer.clean_of_empty {w : Writer} (h : w.buf = 0) : w.Clean := fun _ _ => by simp [h]

/-- With no bit pending a writer holds the bits of its sink. -/
theorem Writer.bits_of_cnt_zero {w : Writer} (h : w.cnt.val = 0) : w.bits = allBits w.sink := by
  simp [Writer.bits, h]

/-- A writer that holds whole bytes has no bit pending, and the bytes are its sink. -/
theorem Writer.sink_of_bits {w : Writer} {bytes : List Byte} (h : w.bits = allBits bytes) :
    w.sink = bytes ∧ w.cnt = 0 := by
  have hl := congrArg List.length h
  rw [Writer.length_bits, Writer.bitCount, length_allBits] at hl
  have hcnt : w.cnt.val = 0 := by have := w.cnt.isLt; omega
  exact ⟨allBits_inj ((Writer.bits_of_cnt_zero hcnt).symm.trans h), Fin.ext hcnt⟩

/-- A write of a width ends with OK when the pushes of the bytes it completes are answered ok: the operand's bits
follow those the writer held (41_bit_writer R124 to R127). -/
theorem bwWrite_ok (hf : s.bw.iof = false) (hr : s.bw.rel = false) (hc : s.bw.wr.Clean)
    (hok : s.TransfersOk .bwSink s.bw.wr.sink.length ((s.bw.wr.cnt.val + n) / 8)) :
    ∃ w, bwWrite n s = .next ((s.withBw { s.bw with wr := w }).withCode .ok)
      ∧ w.Clean ∧ w.bits = s.bw.wr.bits ++ lowBits n s.arg0 := by
  have hpush : ∀ k, s.bw.wr.sink.length ≤ k → k < (s.bw.wr.bitCount + (lowBits n s.arg0).length) / 8 →
      s.answer .bwSink k = .ok := by
    intro k hlo hhi
    obtain ⟨j, rfl⟩ := Nat.exists_eq_add_of_le hlo
    refine hok j ?_
    rw [length_lowBits, Writer.bitCount] at hhi
    omega
  obtain ⟨w, hw⟩ := writeAll_completes .bwSink _ _ hpush
  obtain ⟨hclean, hbits, -⟩ := writeAll_ok_bits hw hc
  refine ⟨w, ?_, hclean, hbits⟩
  rw [bwWrite, bwGuard_ok hf hr, writeBits, bitsMsb_argLow, hw]
  rfl

/-- A flush whose push is answered ok ends with OK and the flushed writer (41_bit_writer R128). -/
theorem execBwFlush_ok (hf : s.bw.iof = false) (hr : s.bw.rel = false)
    (hok : s.answer .bwSink s.bw.wr.sink.length = .ok) :
    ∃ w, execBwFlush s = .next ((s.withBw { s.bw with wr := w }).withCode .ok)
      ∧ flush .bwSink (s.answer .bwSink) s.bw.wr = .ok w := by
  have hw : ∃ w, flush .bwSink (s.answer .bwSink) s.bw.wr = .ok w := by
    obtain ⟨-, e⟩ | ⟨-, -, e⟩ | ⟨-, ha, -⟩ | ⟨-, ha, -⟩ :=
      flush_cases .bwSink (s.answer .bwSink) s.bw.wr
    · exact ⟨_, e⟩
    · exact ⟨_, e⟩
    · simp [hok] at ha
    · simp [hok] at ha
  obtain ⟨w, hw⟩ := hw
  refine ⟨w, ?_, hw⟩
  rw [execBwFlush, bwGuard_ok hf hr, hw]
  rfl

/-! ### Readers (40_bit_reader R102) -/

/-- A wide read ends with OK and the value of the bits that stand at the cursor (40_bit_reader R102). -/
theorem brRead_of_bitsAt {bits : List Bool} (hf : s.br.iof = false) (hne : bits ≠ [])
    (hbits : BitsAt s.params.src s.br.rd.pos.toNat bits) (hok : ∀ k, s.answer .src k = .ok) :
    ∃ rd, brRead bits.length s = .next (((s.withBrReader rd).withRes (resWord (natOfBits bits))).withCode .ok) := by
  obtain ⟨rd, hrd⟩ : ∃ rd, readBits (s.answer .src) s.params.src bits.length s.br.rd = .ok (natOfBits bits) rd :=
    ⟨_, readBits_eq_ok_iff.mpr ⟨hbits.length_le hne, fun k _ => hok k, by rw [hbits.2], rfl⟩⟩
  refine ⟨rd, ?_⟩
  rw [brRead, brGuard_ok hf, hrd]
  rfl

/-- A register's low part, read back, fits in RES (30_encoding R74). -/
theorem resWord_natOfBits_lowBits (n : Nat) (v : Word) :
    (resWord (natOfBits (lowBits n v))).toNat = v.toNat % 2 ^ n := by
  rw [natOfBits_lowBits, resWord, BitVec.toNat_ofNat]
  exact Nat.mod_eq_of_lt ((Nat.mod_le _ _).trans_lt v.isLt)

/-! ### Host moves (20_memory R68) -/

/-- Settles O6, by what a step does with no word pending. -/
theorem hostMovesOneAtATime : Obligations.HostMovesOneAtATime :=
  fun _ hc =>
    ⟨step_waits hc, fun _ _ hh => step_hostMove hc hh, fun _ _ hh => step_hostMove hc hh,
      fun _ _ _ _ hh => step_hostMove hc hh⟩

/-! ### The sinks (20_memory R50, R57) -/

theorem exec_bw_sink (h : exec i s = .next t) : s.bw.wr.sink <+: t.bw.wr.sink := by
  by_cases hi : unitOf i = .bw
  · obtain ⟨-, rfl⟩ | ⟨-, -, -, rfl⟩ | ⟨-, -, rfl⟩ | ⟨-, -, -, w, rel, hw, -, rfl⟩ | ⟨-, -, w, hw, rfl⟩ :=
      bw_cases hi h
    · exact List.prefix_refl _
    · exact List.prefix_refl _
    · exact List.prefix_refl _
    · exact hw
    · exact hw
  · rw [(exec_commandEnd h).bw hi]

theorem exec_enc_sink (h : exec i s = .next t) : s.enc.ew.sink <+: t.enc.ew.sink := by
  by_cases hi : unitOf i = .enc
  · obtain ⟨-, rfl⟩ | ⟨-, -, rfl⟩ | ⟨-, -, e, v, c, rfl, -, -, -, -, -, -, hw, -⟩ := enc_cases hi h
    · exact List.prefix_refl _
    · exact List.prefix_refl _
    · exact hw
  · rw [(exec_commandEnd h).enc hi]

theorem exec_dec_out (h : exec i s = .next t) : s.dec.out <+: t.dec.out := by
  by_cases hi : unitOf i = .dec
  · obtain ⟨-, rfl⟩ | ⟨-, -, -, rfl⟩ | ⟨-, d, v, c, rfl, -, -, -, -, hout, -⟩ := dec_cases hi h
    · exact List.prefix_refl _
    · exact List.prefix_refl _
    · exact hout
  · rw [(exec_commandEnd h).dec hi]

/-- Settles O25: every command only appends to its unit's sink, and no other step but reset touches a unit. -/
theorem sinksOnlyGrow : Obligations.SinksOnlyGrow := by
  intro s t h hr
  obtain ⟨i, he⟩ | hsame := step_units_of_not_resets h hr
  · exact ⟨exec_bw_sink (s := s.withCmd none) he, exec_enc_sink (s := s.withCmd none) he,
      exec_dec_out (s := s.withCmd none) he⟩
  · rw [hsame.bw, hsame.enc, hsame.dec]
    exact ⟨List.prefix_refl _, List.prefix_refl _, List.prefix_refl _⟩

/-! ### Aligned writes (20_memory R52) -/

/-- At an aligned position, a write whose bits are those of whole bytes appends these bytes. -/
theorem bwWrite_aligned {bytes : List Byte} (hf : s.bw.iof = false) (hr : s.bw.rel = false)
    (hcnt : s.bw.wr.cnt = 0) (hbuf : s.bw.wr.buf = 0) (hbits : lowBits n s.arg0 = allBits bytes)
    (hok : s.TransfersOk .bwSink s.bw.wr.sink.length (n / 8)) :
    ∃ t, bwWrite n s = .next t ∧ t.bw.wr.sink = s.bw.wr.sink ++ bytes ∧ t.bw.wr.cnt = 0 := by
  have h0 : s.bw.wr.cnt.val = 0 := by rw [hcnt]; rfl
  obtain ⟨w, hw, -, hwbits⟩ := bwWrite_ok hf hr (Writer.clean_of_empty hbuf) (n := n) (by rwa [h0, Nat.zero_add])
  rw [Writer.bits_of_cnt_zero h0, hbits, ← allBits_append] at hwbits
  exact ⟨_, hw, Writer.sink_of_bits hwbits⟩

/-- Settles O16: the stream image of an operand's byte is the reversed byte, and the bits of two bytes go high byte
first. -/
theorem alignedWritesReverseBytes : Obligations.AlignedWritesReverseBytes := by
  intro s hf hr hcnt hbuf
  have low : lowBits 8 s.arg0 = allBits [bitrev8 (s.arg0.extractLsb' 0 8)] := by
    rw [allBits_bitrev8_extractLsb', BitVec.ushiftRight_zero]
  have both : lowBits 16 s.arg0 =
      allBits ([bitrev8 (s.arg0.extractLsb' 8 8)] ++ [bitrev8 (s.arg0.extractLsb' 0 8)]) := by
    rw [allBits_append, allBits_bitrev8_extractLsb', ← low]
    exact lowBits_add 8 8 _
  exact ⟨bwWrite_aligned hf hr hcnt hbuf low, bwWrite_aligned hf hr hcnt hbuf both⟩

/-! ### Reading back what was written (20_memory R53, 95_test_vectors V-S4) -/

/-- After a write of a width and a flush the operand's bits stand in the sink at the position where the writer stood. -/
theorem bwWrite_flush_bitsAt (hf : s.bw.iof = false) (hr : s.bw.rel = false) (hc : s.bw.wr.Clean)
    (hok : ∀ k, s.answer .bwSink k = .ok) :
    ∃ t u, bwWrite n s = .next t ∧ execBwFlush t = .next u ∧ t.code = .ok ∧ u.code = .ok
      ∧ BitsAt u.bw.wr.sink s.bw.wr.bitCount (lowBits n s.arg0) := by
  obtain ⟨w, hw, hwc, hwbits⟩ := bwWrite_ok hf hr hc (n := n) fun k _ => hok _
  obtain ⟨x, hx, hflush⟩ := execBwFlush_ok (s := (s.withBw { s.bw with wr := w }).withCode .ok) hf hr (hok _)
  obtain ⟨-, hxcnt, hxbits⟩ := flush_ok_bits hflush hwc
  refine ⟨_, _, hw, hx, rfl, rfl, ?_⟩
  rw [← Writer.length_bits]
  refine bitsAt_of_allBits_eq (c := List.replicate ((8 - w.cnt.val) % 8) false) ?_
  calc allBits x.sink
      = x.bits := (Writer.bits_of_cnt_zero hxcnt).symm
    _ = w.bits ++ List.replicate ((8 - w.cnt.val) % 8) false := hxbits
    _ = s.bw.wr.bits ++ (lowBits n s.arg0 ++ List.replicate ((8 - w.cnt.val) % 8) false) := by
      rw [hwbits, List.append_assoc]

/-- Settles O20: the flushed sink holds the operand's bits where the writer stood, and the read of the same width there
gives their value. -/
theorem writtenValueReadsBack : Obligations.WrittenValueReadsBack := by
  intro wi ri n hmem s hf hr hc hok
  have width : (∀ s, exec wi s = bwWrite n s) ∧ (∀ s, exec ri s = brRead n s) ∧ 0 < n := by
    simp only [List.mem_cons, Prod.mk.injEq, List.not_mem_nil, or_false] at hmem
    obtain ⟨rfl, rfl, rfl⟩ | ⟨rfl, rfl, rfl⟩ | ⟨rfl, rfl, rfl⟩ | ⟨rfl, rfl, rfl⟩ := hmem <;>
      exact ⟨fun _ => rfl, fun _ => rfl, by decide⟩
  obtain ⟨hwi, hri, hn⟩ := width
  obtain ⟨t, u, ht, hu, htc, huc, hbits⟩ := bwWrite_flush_bitsAt (n := n) hf hr hc hok
  refine ⟨t, u, (hwi s).trans ht, hu, htc, huc, fun r hrf hrok hsrc hpos => ?_⟩
  have hne : lowBits n s.arg0 ≠ [] := List.ne_nil_of_length_pos (by rwa [length_lowBits])
  obtain ⟨rd, hq⟩ := brRead_of_bitsAt hrf hne (by rwa [hsrc, hpos]) hrok
  rw [length_lowBits] at hq
  exact ⟨_, (hri r).trans hq, rfl, resWord_natOfBits_lowBits n s.arg0⟩

end Sys2Proof.Machine
end

section
/-! Proofs for 30_encoding. First the command word: a word that decodes to a command is the word `encode` gives, and its
fields pass the checks. Then the header's fields, and the host's lines as the moves they stand for. -/

namespace Sys2Proof.Machine

variable {s t : State} {i : Instr} {n : Nat}

/-! ### The command word (30_encoding R70, R75) -/

/-- Settles O1: the decoder is run on each of the words. -/
theorem sampleWordsDecode : Obligations.SampleWordsDecode := by
  unfold Obligations.SampleWordsDecode
  decide

/-- Settles O2, command by command. -/
theorem decodeOfEncode : Obligations.DecodeOfEncode := by
  intro i
  cases i with
  | bwWriteBit b => cases b <;> rfl
  | _ => rfl

/-- The fields of a word are all of its bits (R70). -/
theorem splitWord_injective : Function.Injective splitWord := by
  intro x y h
  obtain ⟨hopc, hw, hb, hrsv⟩ := CmdFields.mk.inj h
  have field {lo len k : Nat} (hf : x.extractLsb' lo len = y.extractLsb' lo len) (hlo : lo ≤ k) (hk : k - lo < len) :
      x.getLsbD k = y.getLsbD k := by
    have hbit := congrArg (BitVec.getLsbD · (k - lo)) hf
    simpa [BitVec.getLsbD_extractLsb', hk, Nat.add_sub_cancel' hlo] using hbit
  refine BitVec.eq_of_getLsbD_eq fun k hk => ?_
  obtain h8 | h10 | rfl | h11 : k < 8 ∨ (8 ≤ k ∧ k < 10) ∨ k = 10 ∨ 11 ≤ k := by omega
  · exact field hopc (Nat.zero_le k) h8
  · exact field hw h10.1 (by omega)
  · exact hb
  · exact field hrsv h11 (by omega)

/-- Fields that decode have no reserved bit, and the map has their row. -/
theorem exists_row_of_decodeFields {f : CmdFields} (h : decodeFields f = some i) :
    ∃ r ∈ opcodeMap, r.instr = i ∧ f = ⟨r.opc, r.w, r.b, 0⟩ := by
  unfold decodeFields at h
  split at h
  · obtain ⟨r, hr, rfl⟩ := Option.map_eq_some_iff.mp h
    have hmatch := List.find?_some hr
    simp only [Bool.and_eq_true, beq_iff_eq] at hmatch
    obtain ⟨⟨hopc, hw⟩, hb⟩ := hmatch
    refine ⟨r, List.mem_of_find?_eq_some hr, rfl, ?_⟩
    cases f
    simp_all
  · cases h

/-- Each row of the map holds the fields of its command's word. -/
theorem splitWord_encode_of_row : ∀ r ∈ opcodeMap, splitWord (encode r.instr) = ⟨r.opc, r.w, r.b, 0⟩ := by
  decide

/-- A command has one word: the one `encode` gives. -/
theorem decode_eq_some_iff {word : CmdWord} : decode word = some i ↔ word = encode i := by
  constructor
  · intro h
    obtain ⟨r, hr, rfl, hf⟩ := exists_row_of_decodeFields h
    exact splitWord_injective (hf.trans (splitWord_encode_of_row r hr).symm)
  · rintro rfl
    exact decodeOfEncode i

/-- Settles O3: the table lists each command once, with the word `encode` gives it. -/
theorem legalWordsAreTheOpcodeMap : Obligations.LegalWordsAreTheOpcodeMap := by
  intro word i
  rw [decode_eq_some_iff]
  cases i with
  | bwWriteBit b => cases b <;> simp [encode, assembleWord]
  | _ => simp [encode, assembleWord]

/-- The word of a command passes the checks on its fields (R70, R73, R76). -/
theorem wf_splitWord_encode (i : Instr) : (splitWord (encode i)).wf = true := by
  cases i with
  | bwWriteBit b => exact Laws.LegalWord.bwWriteBit b
  | _ => rfl

/-- Settles O4: a word that decodes would pass the checks. -/
theorem illegalWordChangesOnlyTheCode : Obligations.IllegalWordChangesOnlyTheCode := by
  intro s word hc hwf
  have hd : decode word = none := by
    refine Option.eq_none_iff_forall_ne_some.mpr fun i hi => ?_
    rw [decode_eq_some_iff.mp hi, wf_splitWord_encode] at hwf
    cases hwf
  exact (step_pending hc).trans (runWord_illegal hd)

/-! ### The header (30_encoding R85, R87) -/

/-- The value of a field is read back where the field stands. -/
theorem natOfBits_field {l rest : List Bool} {p v : Nat} (h : l.drop p = bitsMsb n v ++ rest) (hv : v < 2 ^ n) :
    natOfBits ((l.drop p).take n) = v := by
  rw [h, List.take_left' (length_bitsMsb n v), natOfBits_bitsMsb, Nat.mod_eq_of_lt hv]

/-- What follows a field stands behind its bits. -/
theorem drop_behind_field {l rest : List Bool} {p q v : Nat} (h : l.drop p = bitsMsb n v ++ rest) (hq : q = p + n) :
    l.drop q = rest := by
  rw [hq, ← List.drop_drop, h, List.drop_left' (length_bitsMsb n v)]

theorem drop_flatMap_entryBits (es : List InvEntry) (k : Nat) :
    (es.flatMap entryBits).drop (40 * k) = (es.drop k).flatMap entryBits := by
  induction k generalizing es with
  | zero => rfl
  | succ k ih =>
    cases es with
    | nil => simp
    | cons e es =>
      rw [List.flatMap_cons, Nat.mul_succ, Nat.add_comm, ← List.drop_drop, List.drop_left' (length_entryBits e), ih,
        List.drop_succ_cons]

/-- Entry `k` of the header begins at bit 16 + 40 k. -/
theorem drop_headerBits_entry {es : List InvEntry} {k : Nat} {e : InvEntry} (hk : es[k]? = some e) :
    (headerBits es).drop (16 + 40 * k) = entryBits e ++ (es.drop (k + 1)).flatMap entryBits := by
  obtain ⟨hlt, rfl⟩ := List.getElem?_eq_some_iff.mp hk
  rw [headerBits, ← List.drop_drop, List.drop_left' (length_bitsMsb 16 _), drop_flatMap_entryBits,
    List.drop_eq_getElem_cons hlt, List.flatMap_cons]

/-- Settles O30: each field is read back behind the fields before it. -/
theorem headerLayout : Obligations.HeaderLayout := by
  intro es hes
  refine ⟨length_headerBits es, natOfBits_field (p := 0) rfl hes, fun k e hk => ?_⟩
  have hlen := drop_headerBits_entry hk
  simp only [entryBits, List.append_assoc] at hlen
  have hbits := drop_behind_field hlen (q := 24 + 40 * k) (by omega)
  have hsize := drop_behind_field hbits (q := 40 + 40 * k) (by omega)
  have hsym := drop_behind_field hsize (q := 48 + 40 * k) (by omega)
  exact ⟨natOfBits_field hlen e.code.len.isLt, natOfBits_field hbits e.code.bits.isLt,
    natOfBits_field hsize (by decide), natOfBits_field hsym e.sym.isLt⟩

/-- Settles O31: the entries follow the order of the symbols, and DICT holds a code exactly where one stands. -/
theorem headerEntriesAscend : Obligations.HeaderEntriesAscend :=
  fun e => ⟨dictEntries_ascend e, fun s c => mem_dictEntries e ⟨c, s⟩⟩

/-! ### Host lines (30_encoding R79) -/

/-- A line without numeric operands supplies its bytes as IN and runs its command. -/
theorem runLine_issue {l : Line} {bytes : List Byte} (hc : s.cmd = none) (hl : lineMoves l = [issueMove i bytes]) :
    runLine 2 l s = exec i { s.issued with input := bytes } := by
  rw [runLine, hl]
  exact run_last hc (decodeOfEncode i) bytes

/-- A line with one numeric operand writes it to ARG0 and runs its command. -/
theorem runLine_withOperand {l : Line} {v : Nat} (hc : s.cmd = none) (hl : lineMoves l = withOperand v i) :
    runLine 3 l s = exec i { s.issued with arg0 := BitVec.ofNat 64 v } := by
  rw [runLine, hl]
  exact run_withOperand hc (decodeOfEncode i) v

/-- A line with two numeric operands writes them to ARG0 and ARG1 and runs its command. -/
theorem runLine_withOperands {l : Line} {a b : Word} (hc : s.cmd = none)
    (hl : lineMoves l = [.writeArg0 a, .writeArg1 b, issueMove i []]) :
    runLine 4 l s = exec i { s.issued with arg0 := a, arg1 := b } := by
  rw [runLine, hl]
  exact run_withOperands hc (decodeOfEncode i) a b

/-- Settles O55, line by line. -/
theorem hostLinesRunTheirCommands : Obligations.HostLinesRunTheirCommands := by
  intro s hc
  refine ⟨fun p hp => ?_, fun bytes => runLine_issue hc rfl, fun bytes => runLine_issue hc rfl, fun p hp a => ?_,
    runLine_withOperand hc rfl, fun a b => ?_, fun a b n hb => ?_⟩
  · exact runLine_issue hc (by fin_cases hp <;> rfl)
  · rw [runLine_withOperand (v := a.toNat) (i := p.2) hc (by fin_cases hp <;> rfl), BitVec.ofNat_toNat,
      BitVec.setWidth_eq]
  · exact runLine_withOperands hc (by simp [lineMoves])
  · exact runLine_withOperands hc (by simp [lineMoves, ← hb])

/-! ### `bw.write_bits` (30_encoding R80) -/

/-- A run that begins with a command does not depend on the IN before it (log 3). -/
theorem run_issued {ms : List HostMove} {bytes : List Byte} {k : Nat} (hc : s.cmd = none) :
    Sys2Proof.core.run (k + 2) (s.withHost (issueMove i bytes :: ms)) =
      Sys2Proof.core.run (k + 2) (s.issued.withHost (issueMove i bytes :: ms)) :=
  (run_issue hc (decodeOfEncode i) k bytes).trans (run_issue (s := s.issued) hc (decodeOfEncode i) k bytes).symm

theorem runCommands_host {is : List Instr} (h : runCommands is s = some t) : t.host = s.host := by
  induction is generalizing s with
  | nil => cases h; rfl
  | cons i is ih =>
    rw [runCommands] at h
    split at h
    next u hu => exact (ih h).trans (exec_commandEnd hu).host
    · cases h

/-- The line's moves end where the bits' commands end: the first of them takes IN and the host's list, and no command
writes the list. -/
theorem runLine_bwWriteBits {v : Nat} (hc : s.cmd = none) (hn : 1 ≤ n)
    (h : runCommands ((bitsMsb n v).map .bwWriteBit) s.issued = some t) :
    runLine (2 * n) (.bwWriteBits v n) s = .next t := by
  have hrun := run_writeBits (fun b => decodeOfEncode (.bwWriteBit b)) (bitsMsb n v) (s := s.issued) hc rfl rfl h
  have ht : t.withHost [] = t := by rw [← show t.host = [] from runCommands_host h]; rfl
  rw [ht, length_bitsMsb] at hrun
  obtain ⟨b, bits, hb⟩ := List.exists_cons_of_length_pos (l := bitsMsb n v) (by rwa [length_bitsMsb])
  obtain ⟨k, rfl⟩ := Nat.exists_eq_add_of_le' hn
  refine Eq.trans ?_ hrun
  rw [runLine, lineMoves, hb]
  exact run_issued hc (k := 2 * k)

/-- A bit that the writer takes ends the command with OK. -/
theorem execBwWriteBit_ok {b : Bool} {w : Writer} (hf : s.bw.iof = false) (hr : s.bw.rel = false)
    (hw : writeBit .bwSink (s.answer .bwSink) b s.bw.wr = .ok w) :
    exec (.bwWriteBit b) s = .next ((s.withBw { s.bw with wr := w }).withCode .ok) := by
  show execBwWriteBit b s = _
  rw [execBwWriteBit, bwGuard_ok hf hr, hw]
  rfl

/-- An operand whose bits the writer takes ends the command with OK. -/
theorem bwWrite_of_writeAll {w : Writer} (hf : s.bw.iof = false) (hr : s.bw.rel = false)
    (hw : writeAll .bwSink (s.answer .bwSink) (bitsMsb n (argLow n s.arg0)) s.bw.wr = .ok w) :
    bwWrite n s = .next ((s.withBw { s.bw with wr := w }).withCode .ok) := by
  rw [bwWrite, bwGuard_ok hf hr, writeBits, hw]
  rfl

/-- The commands of one bit or more leave the writer that writing all the bits leaves. -/
theorem runCommands_bwWriteBit {bits : List Bool} {w : Writer} (hne : bits ≠ []) (hf : s.bw.iof = false)
    (hr : s.bw.rel = false) (hw : writeAll .bwSink (s.answer .bwSink) bits s.bw.wr = .ok w) :
    runCommands (bits.map .bwWriteBit) s = some ((s.withBw { s.bw with wr := w }).withCode .ok) := by
  induction bits generalizing s with
  | nil => exact absurd rfl hne
  | cons b bits ih =>
    rw [writeAll] at hw
    split at hw
    next w' hw' =>
      rw [List.map_cons, runCommands, execBwWriteBit_ok hf hr hw']
      cases bits with
      | nil => cases hw; rfl
      | cons c bits => exact ih (s := (s.withBw { s.bw with wr := w' }).withCode .ok) (by simp) hf hr hw
    · cases hw
    · cases hw

/-- The bits of an operand that fits ARG0 are those of the register. -/
theorem bitsMsb_argLow_ofNat {v : Nat} (hv : v < 2 ^ 64) : bitsMsb n (argLow n (BitVec.ofNat 64 v)) = bitsMsb n v := by
  rw [argLow, BitVec.toNat_ofNat, Nat.mod_eq_of_lt hv, bitsMsb_mod]

/-- Settles O54: by the bits' commands, and for a width because both lines write the same bits to the same writer. -/
theorem writeBitsIsWriteWidth : Obligations.WriteBitsIsWriteWidth := by
  refine ⟨fun s t v n hc hwf h => ?_, fun n line hmem s v hv hc hf hr hok => ?_⟩
  · have hn : 1 ≤ n := by simp [Line.wf] at hwf; omega
    exact runLine_bwWriteBits hc hn (by rwa [bitsMsb, List.map_map])
  · obtain ⟨i, hl, hi, hn⟩ : ∃ i, lineMoves (line v) = withOperand v i ∧ (∀ s, exec i s = bwWrite n s) ∧ 1 ≤ n := by
      simp only [List.mem_cons, Prod.mk.injEq, List.not_mem_nil, or_false] at hmem
      obtain ⟨rfl, rfl⟩ | ⟨rfl, rfl⟩ | ⟨rfl, rfl⟩ | ⟨rfl, rfl⟩ := hmem <;>
        exact ⟨_, rfl, fun _ => rfl, by decide⟩
    obtain ⟨w, hw⟩ := writeAll_completes .bwSink (bitsMsb n v) s.bw.wr fun k _ _ => hok k
    have hne : bitsMsb n v ≠ [] := List.ne_nil_of_length_pos (by rwa [length_bitsMsb])
    have hwidth := bwWrite_of_writeAll (s := { s.issued with arg0 := BitVec.ofNat 64 v }) hf hr
      (by rw [bitsMsb_argLow_ofNat hv]; exact hw)
    exact ⟨_, _, runLine_bwWriteBits hc hn (runCommands_bwWriteBit (s := s.issued) hne hf hr hw),
      (runLine_withOperand hc hl).trans ((hi _).trans hwidth), rfl, rfl, rfl, rfl, rfl, rfl, rfl, rfl⟩

end Sys2Proof.Machine
end

section
/-! Proofs for 40_bit_reader. A bit is read as a width of 1, so every read is one function of its width (`exec_read`);
the ends of that function come first, then one part per statement. -/

namespace Sys2Proof.Machine

variable {s t : State} {i : Instr} {n : Nat} {ask : Nat → IoAnswer} {source : List Byte} {r : Reader}

/-! ### A read and its width (40_bit_reader R101 to R106) -/

/-- `ReadBit` is `ReadBits` at width 1 (40_bit_reader R102). -/
theorem readBit_bitValue : (readBit ask source r).bitValue = readBits ask source 1 r := by
  have hbytes : bytesOfBits r.pos.toNat 1 = [r.pos.toNat / 8] := by simp [bytesOfBits]
  have hvalue : natOfBits (streamBits source r.pos.toNat 1) = (streamBit source r.pos.toNat).toNat := by
    simp [natOfBits, streamBits]
  by_cases h : 8 * source.length ≤ r.pos.toNat
  · rw [readBit_eq_endOfStream_iff.mpr h, readBits_eq_endOfStream_iff.mpr (by omega), ReadRes.bitValue]
  · rw [readBit, readBits, if_neg h, if_neg (by omega), hbytes, hvalue]
    cases transferAll ask [r.pos.toNat / 8] <;> rfl

/-- Every read command reads its width. -/
theorem exec_read (hi : 0 < readWidth i) : exec i s = brRead (readWidth i) s := by
  cases i with
  | brReadBit =>
    show execBrReadBit s = brRead 1 s
    rw [execBrReadBit, readBit_bitValue, brRead]
  | brReadU8 => rfl
  | brReadU16 => rfl
  | brReadU32 => rfl
  | brReadU64 => rfl
  | _ => cases hi

theorem brRead_endOfStream (hf : s.br.iof = false) (hend : 8 * s.params.src.length < s.br.rd.pos.toNat + n) :
    brRead n s = .next (s.withCode .endOfStream) := by
  rw [brRead, brGuard_ok hf, readBits_eq_endOfStream_iff.mpr hend, brFinish, State.raise]

/-- A read whose byte q is the first that is not transferred ends with Io (40_bit_reader R111). -/
theorem brRead_io {q : Nat} (hf : s.br.iof = false) (hin : s.br.rd.pos.toNat + n ≤ 8 * s.params.src.length)
    (hlo : s.br.rd.pos.toNat / 8 ≤ q) (hhi : q ≤ (s.br.rd.pos.toNat + n - 1) / 8)
    (hok : ∀ k, s.br.rd.pos.toNat / 8 ≤ k → k < q → s.answer .src k = .ok) (hfail : s.answer .src q = .fail) :
    brRead n s = .next ((s.withBr { s.br with iof := true }).withCode .io) := by
  have hread : readBits (s.answer .src) s.params.src n s.br.rd = .io :=
    readBits_eq_io_iff.mpr ⟨hin, transferAll_bytesOfBits_fail hlo hhi hok hfail⟩
  rw [brRead, brGuard_ok hf, hread, brFinish, State.raise]

/-- A read whose bits are there and whose bytes are transferred gives their value and moves behind them. -/
theorem brRead_ok (hf : s.br.iof = false) (hn : 0 < n) (hin : s.br.rd.pos.toNat + n ≤ 8 * s.params.src.length)
    (hok : ∀ k, s.br.rd.pos.toNat / 8 ≤ k → k ≤ (s.br.rd.pos.toNat + n - 1) / 8 → s.answer .src k = .ok) :
    brRead n s = .next (((s.withBrReader { s.br.rd with pos := s.br.rd.pos + BitVec.ofNat 64 n }).withRes
      (resWord (natOfBits (streamBits s.params.src s.br.rd.pos.toNat n)))).withCode .ok) := by
  have hbytes : ∀ k ∈ bytesOfBits s.br.rd.pos.toNat n, s.answer .src k = .ok := fun k hk =>
    have ⟨hlo, hhi⟩ := (mem_bytesOfBits hn k).mp hk
    hok k hlo hhi
  rw [brRead, brGuard_ok hf, readBits_eq_ok_iff.mpr ⟨hin, hbytes, rfl, rfl⟩, brFinish, State.done]

/-! ### The value of a read (40_bit_reader R102, 20_memory R52) -/

/-- Stream bit p + j stands at bit n - 1 - j of the result. -/
theorem getLsbD_resWord_streamBits (hn : n ≤ 64) (p : Nat) {j : Nat} (hj : j < n) :
    (resWord (natOfBits (streamBits source p n))).getLsbD (n - 1 - j) = streamBit source (p + j) := by
  have hbit : (natOfBits (streamBits source p n)).testBit (n - 1 - j) = streamBit source (p + j) := by
    simpa [streamBits] using testBit_natOfBits (streamBits source p n) j (by rwa [length_streamBits])
  rw [resWord, BitVec.getLsbD_ofNat, hbit, decide_eq_true (by omega), Bool.true_and]

/-- The result has no bit at or above its width. -/
theorem getLsbD_resWord_streamBits_high (p : Nat) {j : Nat} (hj : n ≤ j) :
    (resWord (natOfBits (streamBits source p n))).getLsbD j = false := by
  have hlt := natOfBits_lt (streamBits source p n)
  rw [length_streamBits] at hlt
  rw [resWord, BitVec.getLsbD_ofNat, Nat.testBit_lt_two_pow (hlt.trans_le (Nat.pow_le_pow_right two_pos hj)),
    Bool.and_false]

/-- One bit, as a result, is 1 or 0. -/
theorem resWord_streamBits_one (p : Nat) :
    resWord (natOfBits (streamBits source p 1)) = if streamBit source p then 1 else 0 := by
  have hbits : streamBits source p 1 = [streamBit source p] := by simp [streamBits]
  rw [hbits]
  cases streamBit source p <;> rfl

/-- Settles O10, by the ends of a read and the bits of its value. -/
theorem brReadWidth : Obligations.BrReadWidth := by
  intro i n hmem s
  obtain ⟨rfl, hn, hn64⟩ : readWidth i = n ∧ 0 < n ∧ n ≤ 64 := by
    simp only [List.mem_cons, Prod.mk.injEq, List.not_mem_nil, or_false] at hmem
    obtain ⟨rfl, rfl⟩ | ⟨rfl, rfl⟩ | ⟨rfl, rfl⟩ | ⟨rfl, rfl⟩ := hmem <;> decide
  rw [exec_read hn]
  refine ⟨brGuard_fault, brRead_endOfStream, fun hf hin k hk hok hfail => ?_, fun hf hin hok =>
    ⟨_, brRead_ok hf hn hin hok, fun j hj => getLsbD_resWord_streamBits hn64 _ hj,
      fun j hj => getLsbD_resWord_streamBits_high _ hj⟩⟩
  refine brRead_io hf hin (Nat.le_add_right _ _) hk (fun q hlo hlt => ?_) hfail
  obtain ⟨j, rfl⟩ := Nat.exists_eq_add_of_le hlo
  exact hok j (by omega)

/-- Settles O9: the read of width 1, whose bit lies in one byte. -/
theorem brReadBit : Obligations.BrReadBit := by
  intro s
  rw [exec_read (i := .brReadBit) (by decide)]
  refine ⟨brGuard_fault, fun hf hend => brRead_endOfStream hf (Nat.lt_succ_of_le hend), fun hf hin hfail => ?_,
    fun hf hin hok => ?_⟩
  · exact brRead_io hf hin le_rfl le_rfl (fun k hlo hlt => absurd hlt hlo.not_gt) hfail
  · rw [← resWord_streamBits_one]
    exact brRead_ok hf one_pos hin fun k hlo hhi => by rwa [hhi.antisymm hlo]

/-! ### The cursor moved by the host (40_bit_reader R107, R108, R112) -/

/-- Settles O11, by the saturating cursor. -/
theorem brSkipBits : Obligations.BrSkipBits := fun s =>
  ⟨brGuard_fault, fun hf => ⟨(s.br.rd.skip s.arg0).pos, brGuard_ok hf, s.br.rd.skip_pos_toNat s.arg0⟩⟩

/-- Settles O12. -/
theorem brSetPosition : Obligations.BrSetPosition := fun _ => ⟨brGuard_fault, brGuard_ok⟩

/-! ### The cursor counts the reads (40_bit_reader R109) -/

/-- No command clears a fault flag (10_state R39). -/
theorem exec_keeps_fault (h : exec i s = .next t) {u : UnitName} (hu : s.faultOf u = true) : t.faultOf u = true := by
  by_cases hi : u = unitOf i
  · subst hi
    rw [exec_of_fault hu] at h
    cases h
    exact hu
  · exact ((exec_commandEnd h).faultOf_eq hi).trans hu

theorem runCommands_keeps_fault {is : List Instr} (h : runCommands is s = some t) {u : UnitName}
    (hu : s.faultOf u = true) : t.faultOf u = true := by
  induction is generalizing s with
  | nil => cases h; exact hu
  | cons i is ih =>
    rw [runCommands] at h
    split at h
    next v hv => exact ih h (exec_keeps_fault hv hu)
    · cases h

/-- A read that leaves no fault moves the cursor by its width when it ends with OK, and not at all otherwise. -/
theorem exec_read_pos (hi : 0 < readWidth i) (hsrc : s.params.src.length < 2 ^ 61) (h : exec i s = .next t)
    (ht : t.br.iof = false) :
    t.br.rd.pos.toNat = s.br.rd.pos.toNat + if t.code = .ok then readWidth i else 0 := by
  rw [exec_read hi, brRead, brGuard_eq_next_iff, brFinish_eq_next_iff] at h
  obtain ⟨hf, rfl⟩ | ⟨-, ⟨v, rd, hrd, rfl⟩ | ⟨-, rfl⟩ | ⟨-, rfl⟩⟩ := h
  · exact absurd (hf.symm.trans ht) (by decide)
  · obtain ⟨hin, -, -, rfl⟩ := readBits_eq_ok_iff.mp hrd
    exact pos_add_toNat hin hsrc
  · rfl
  · cases ht

/-- Reads that leave no fault move the cursor by the widths of those that end with OK. -/
theorem runCommands_read_pos {is : List Instr} (his : ∀ i ∈ is, 0 < readWidth i)
    (hsrc : s.params.src.length < 2 ^ 61) (h : runCommands is s = some t) (ht : t.br.iof = false) :
    t.br.rd.pos.toNat = s.br.rd.pos.toNat + bitsReadBy is s := by
  induction is generalizing s with
  | nil => cases h; rfl
  | cons i is ih =>
    obtain ⟨hi, his⟩ := List.forall_mem_cons.mp his
    rw [runCommands] at h
    rw [bitsReadBy]
    split at h
    next u hu =>
      have huf : u.br.iof = false := by
        rw [Bool.eq_false_iff]
        exact fun hf => Bool.eq_false_iff.mp ht (runCommands_keeps_fault (u := .br) h hf)
      have hparams : u.params = s.params := (exec_commandEnd hu).params
      rw [ih his (by rwa [hparams]) h, exec_read_pos hi hsrc hu huf, Nat.add_assoc]
    · cases h

/-- Settles O13, by induction on the reads. -/
theorem brPositionCountsTheReads : Obligations.BrPositionCountsTheReads :=
  ⟨fun _ => ⟨brGuard_fault, brGuard_ok⟩, fun _ _ _ his hsrc h ht => runCommands_read_pos his hsrc h ht⟩

end Sys2Proof.Machine
end

section
/-! Proofs for 41_bit_writer. First what a BW command that writes ends in, by how its writing ends; then one equation
per ending of a bit and of a flush, and one part per statement. -/

namespace Sys2Proof.Machine

variable {s t : State} {i : Instr} {n : Nat} {S : Stream} {ask : Nat → IoAnswer} {w w' : Writer} {b rel : Bool}
  {r : WriteRes}

/-! ### The end of a BW command that writes (41_bit_writer R120, R131) -/

theorem bwGuard_bwFinish_ok (hf : s.bw.iof = false) (hr : s.bw.rel = false) (h : r = .ok w) :
    bwGuard s (bwFinish s rel r) = .next ((s.withBw { wr := w, iof := s.bw.iof, rel := rel }).withCode .ok) := by
  rw [bwGuard_ok hf hr, h, bwFinish, State.done]

theorem bwGuard_bwFinish_io (hf : s.bw.iof = false) (hr : s.bw.rel = false) (h : r = .io w) :
    bwGuard s (bwFinish s rel r) = .next ((s.withBw { wr := w, iof := true, rel := s.bw.rel }).withCode .io) := by
  rw [bwGuard_ok hf hr, h, bwFinish, State.raise]

/-- A BW command that ends with OK ran its writing to the end. -/
theorem bwGuard_bwFinish_code_ok (h : bwGuard s (bwFinish s rel r) = .next t) (ht : t.code = .ok) :
    s.bw.iof = false ∧ s.bw.rel = false
      ∧ ∃ w, r = .ok w ∧ t = (s.withBw { wr := w, iof := s.bw.iof, rel := rel }).withCode .ok := by
  rw [bwGuard_eq_next_iff, bwFinish_eq_next_iff] at h
  obtain ⟨-, rfl⟩ | ⟨-, -, rfl⟩ | ⟨hf, hr, hw | ⟨w, -, rfl⟩⟩ := h
  · cases ht
  · cases ht
  · exact ⟨hf, hr, hw⟩
  · cases ht

/-! ### One bit (41_bit_writer R121) -/

/-- A bit that completes no byte goes to BUF. -/
theorem writeBit_pending (h : w.cnt.val + 1 < 8) :
    writeBit S ask b w = .ok { sink := w.sink, buf := w.fill b, cnt := ⟨w.cnt.val + 1, h⟩, pos := w.advance S 1 } := by
  rw [writeBit, dif_pos h]

/-- The eighth bit completes a byte, which is pushed. -/
theorem writeBit_pushes (h7 : w.cnt.val = 7) (hok : ask w.sink.length = .ok) :
    writeBit S ask b w = .ok { sink := w.sink ++ [w.fill b], buf := 0, cnt := 0, pos := w.advance S 1 } := by
  simp [writeBit, h7, transferAll, hok]

theorem writeBit_push_fails (h7 : w.cnt.val = 7) (hfail : ask w.sink.length = .fail) :
    ∃ w', writeBit S ask b w = .io w' ∧ w'.sink = w.sink := by
  simp [writeBit, h7, transferAll, hfail]

/-- Settles O14, by the ending the count and the push's answer select. -/
theorem bwWriteBit : Obligations.BwWriteBit := by
  refine fun s b => ⟨bwGuard_fault, bwGuard_released, fun hf hr hc => ⟨s.bw.wr.fill b, s.bw.wr.advance .bwSink 1,
    fun k => Writer.fill_getLsbD _ b k hc, Writer.advance_toNat, fun h => ?_, fun h7 hok => ?_, fun h7 hfail => ?_⟩⟩
  · exact bwGuard_bwFinish_ok hf hr (writeBit_pending h)
  · exact bwGuard_bwFinish_ok hf hr (writeBit_pushes h7 hok)
  · obtain ⟨w, hw, hsink⟩ := writeBit_push_fails h7 hfail
    exact ⟨w, bwGuard_bwFinish_io hf hr hw, hsink⟩

/-! ### A width (41_bit_writer R124 to R127) -/

/-- Writers whose bits differ by `m` whole bytes differ by `m` bytes in the sink and not in CNT. -/
theorem Writer.length_sink_of_bits {bs : List Bool} {m : Nat} (hbits : w'.bits = w.bits ++ bs)
    (hlen : bs.length = 8 * m) : w'.sink.length = w.sink.length + m ∧ w'.cnt = w.cnt := by
  have hcount := congrArg List.length hbits
  rw [List.length_append, Writer.length_bits, Writer.length_bits, Writer.bitCount, Writer.bitCount, hlen] at hcount
  have hlt := w.cnt.isLt
  have hlt' := w'.cnt.isLt
  exact ⟨by omega, Fin.ext (by omega)⟩

/-- A write of a width that ends with OK moves the cursor by the width, where that fits in 64 bits. -/
theorem bwWrite_ok_pos (h : bwWrite n s = .next t) (ht : t.code = .ok) (hc : s.bw.wr.Clean)
    (hp : s.bw.wr.pos.toNat + n < 2 ^ 64) : t.bw.wr.pos.toNat = s.bw.wr.pos.toNat + n := by
  obtain ⟨-, -, w, hw, rfl⟩ := bwGuard_bwFinish_code_ok h ht
  have hpos := writeAll_ok_pos hw hc (by rwa [length_bitsMsb])
  rwa [length_bitsMsb] at hpos

/-- A write of a width whose push of byte k is the first to fail ends with Io, with k bytes pushed. -/
theorem bwWrite_io {k : Nat} (hf : s.bw.iof = false) (hr : s.bw.rel = false) (hc : s.bw.wr.Clean)
    (hk : k < (s.bw.wr.cnt.val + n) / 8) (hok : s.TransfersOk .bwSink s.bw.wr.sink.length k)
    (hfail : s.answer .bwSink (s.bw.wr.sink.length + k) = .fail) :
    ∃ w, bwWrite n s = .next ((s.withBw { wr := w, iof := true, rel := s.bw.rel }).withCode .io)
      ∧ w.sink.length = s.bw.wr.sink.length + k ∧ allBits w.sink <+: s.bw.wr.bits ++ lowBits n s.arg0 := by
  obtain ⟨w, hw, hlen, hbits⟩ :=
    writeAll_fails .bwSink (lowBits n s.arg0) s.bw.wr k hc (by rwa [length_lowBits]) hok hfail
  rw [← bitsMsb_argLow] at hw
  exact ⟨w, bwGuard_bwFinish_io hf hr hw, hlen, hbits⟩

/-- Settles O15: the four commands are the write of their width, which is a number of whole bytes. -/
theorem bwWriteWidth : Obligations.BwWriteWidth := by
  intro i n hmem s
  obtain ⟨hi, hn⟩ : exec i s = bwWrite n s ∧ n = 8 * (n / 8) := by
    simp only [List.mem_cons, Prod.mk.injEq, List.not_mem_nil, or_false] at hmem
    obtain ⟨rfl, rfl⟩ | ⟨rfl, rfl⟩ | ⟨rfl, rfl⟩ | ⟨rfl, rfl⟩ := hmem <;> exact ⟨rfl, rfl⟩
  have hcnt := s.bw.wr.cnt.isLt
  refine ⟨fun hf => hi.trans (bwGuard_fault hf), fun hf hr => hi.trans (bwGuard_released hf hr),
    fun hf hr hc hok => ?_, fun hf hr hc k hk hok hfail => ?_⟩
  · have hpushes : (s.bw.wr.cnt.val + n) / 8 = n / 8 := by omega
    obtain ⟨w, hw, hclean, hbits⟩ := bwWrite_ok hf hr hc (hpushes ▸ hok)
    obtain ⟨hlen, hcnt'⟩ := Writer.length_sink_of_bits hbits ((length_lowBits n s.arg0).trans hn)
    exact ⟨w, hi.trans hw, hbits, hclean, exec_bw_sink (hi.trans hw), hlen, hcnt', bwWrite_ok_pos hw rfl hc⟩
  · rw [hi]
    exact bwWrite_io hf hr hc (by omega) hok hfail

/-! ### Flush (41_bit_writer R128) -/

theorem flush_of_cnt_zero (h : w.cnt.val = 0) : flush S ask w = .ok w := by
  simp [flush, h]

/-- The pending bits are pushed as a byte and the padding counts in the cursor. -/
theorem flush_pushes (h : 0 < w.cnt.val) (hok : ask w.sink.length = .ok) :
    flush S ask w = .ok { sink := w.sink ++ [w.buf], buf := 0, cnt := 0, pos := w.advance S (8 - w.cnt.val) } := by
  simp [flush, h, transferAll, hok]

theorem flush_push_fails (h : 0 < w.cnt.val) (hfail : ask w.sink.length = .fail) : flush S ask w = .io w := by
  simp [flush, h, transferAll, hfail]

/-- A flush after one that ended with OK changes nothing. -/
theorem execBwFlush_idempotent (h : execBwFlush s = .next t) (ht : t.code = .ok) : execBwFlush t = .next t := by
  obtain ⟨hf, hr, w, hw, rfl⟩ := bwGuard_bwFinish_code_ok h ht
  exact bwGuard_bwFinish_ok hf hr (flush_flush hw)

/-- Settles O17, by the ending CNT and the push's answer select. -/
theorem bwFlush : Obligations.BwFlush := fun _ =>
  ⟨bwGuard_fault, bwGuard_released, fun hf hr h0 => bwGuard_bwFinish_ok hf hr (flush_of_cnt_zero h0),
    fun hf hr h0 hok => ⟨_, bwGuard_bwFinish_ok hf hr (flush_pushes h0 hok), Writer.advance_toNat⟩,
    fun hf hr h0 hfail => bwGuard_bwFinish_io hf hr (flush_push_fails h0 hfail), fun _ => execBwFlush_idempotent⟩

/-! ### Release (41_bit_writer R130) -/

/-- After a release every BW command but BW_POSITION ends with InvalidState (R120). -/
theorem exec_of_released (hf : s.bw.iof = false) (hr : s.bw.rel = true) (hi : unitOf i = .bw)
    (hne : i ≠ .bwPosition) : exec i s = .next (s.withCode .invalidState) := by
  cases i with
  | bwWriteBit b => exact bwGuard_released hf hr
  | bwWriteU8 => exact bwGuard_released hf hr
  | bwWriteU16 => exact bwGuard_released hf hr
  | bwWriteU32 => exact bwGuard_released hf hr
  | bwWriteU64 => exact bwGuard_released hf hr
  | bwFlush => exact bwGuard_released hf hr
  | bwRelease => exact bwGuard_released hf hr
  | bwPosition => exact absurd rfl hne
  | _ => cases hi

/-- Settles O18: the endings of a flush, with BW_REL set at a successful one. -/
theorem bwRelease : Obligations.BwRelease := fun _ =>
  ⟨bwGuard_fault, fun hf hr h0 => bwGuard_bwFinish_ok hf hr (flush_of_cnt_zero h0),
    fun hf hr h0 hok => ⟨_, bwGuard_bwFinish_ok hf hr (flush_pushes h0 hok), Writer.advance_toNat⟩,
    fun hf hr h0 hfail => bwGuard_bwFinish_io hf hr (flush_push_fails h0 hfail),
    fun hf hr _ hi hne => exec_of_released hf hr hi hne⟩

/-! ### The cursor counts the bits (41_bit_writer R129) -/

theorem writeBit_ok_pos (h : writeBit S ask b w = .ok w') : w'.pos = w.advance S 1 := by
  obtain ⟨_, e⟩ | ⟨-, -, e⟩ | ⟨-, -, e⟩ | ⟨-, -, e⟩ := writeBit_cases S ask b w
  · rw [e] at h; cases h; rfl
  · rw [e] at h; cases h; rfl
  · rw [e] at h; cases h
  · rw [e] at h; cases h

/-- A bit that leaves no fault moves the cursor by 1, where that fits in 64 bits, and releases nothing. -/
theorem exec_bwWriteBit_pos (hr : s.bw.rel = false) (hp : s.bw.wr.pos.toNat + 1 < 2 ^ 64)
    (h : exec (.bwWriteBit b) s = .next t) (ht : t.bw.iof = false) :
    t.bw.rel = false ∧ t.bw.wr.pos.toNat = s.bw.wr.pos.toNat + 1 := by
  replace h : execBwWriteBit b s = .next t := h
  rw [execBwWriteBit, bwGuard_eq_next_iff, bwFinish_eq_next_iff] at h
  obtain ⟨hf, rfl⟩ | ⟨-, hrel, -⟩ | ⟨-, -, ⟨w, hw, rfl⟩ | ⟨w, -, rfl⟩⟩ := h
  · exact absurd (hf.symm.trans ht) (by decide)
  · exact absurd (hrel.symm.trans hr) (by decide)
  · exact ⟨hr, (congrArg BitVec.toNat (writeBit_ok_pos hw)).trans (Writer.advance_toNat hp)⟩
  · cases ht

/-- N bits that leave no fault move the cursor by N, where that fits in 64 bits. -/
theorem runCommands_bwWriteBit_pos {bits : List Bool} (hr : s.bw.rel = false)
    (hp : s.bw.wr.pos.toNat + bits.length < 2 ^ 64) (h : runCommands (bits.map .bwWriteBit) s = some t)
    (ht : t.bw.iof = false) : t.bw.wr.pos.toNat = s.bw.wr.pos.toNat + bits.length := by
  induction bits generalizing s with
  | nil => cases h; rfl
  | cons b bits ih =>
    rw [List.length_cons] at hp ⊢
    rw [List.map_cons, runCommands] at h
    split at h
    next u hu =>
      have huf : u.bw.iof = false := by
        rw [Bool.eq_false_iff]
        exact fun hf => Bool.eq_false_iff.mp ht (runCommands_keeps_fault (u := .bw) h hf)
      obtain ⟨hur, hup⟩ := exec_bwWriteBit_pos hr (by omega) hu huf
      rw [ih hur (by omega) h, hup]
      omega
    · cases h

/-- Settles O19, by induction on the bits. -/
theorem bwPositionCountsTheBits : Obligations.BwPositionCountsTheBits :=
  ⟨fun _ => ⟨bwGuardIo_fault, bwGuardIo_ok⟩, fun _ _ _ hr hp h ht => runCommands_bwWriteBit_pos hr hp h ht⟩

end Sys2Proof.Machine
end

section
/-! Proofs for 42_tree_dictionary. First what ENC_ANALYZE_FINISH leaves when it builds the code, then the tree, the
dictionary, and that no lengths are better: each merge saves as much as any lengths can (`Affords.join`), so what any
lengths cost is enough for the finished tree (`Forest.Optimal`). Last the tables of no symbol and of one. -/

namespace Sys2Proof.Machine

section

variable {s t : State} {e : Enc} {i j : Nat} {a b : Byte} {arena : List Node} {n : Node} {leaves : List SymCount}
  {f : Forest}

/-! ### The ends of ENC_ANALYZE_FINISH (43_encoder R172) -/

/-- In Initial and without a fault, TREE is the tree of the counts, whatever the command ends with. -/
theorem encAnalyzeFinish_tree (hf : s.enc.iof = false) (he : s.enc.estate = .initial)
    (h : exec .encAnalyzeFinish s = .next t) : t.enc.tree = s.enc.forest.arena := by
  obtain ⟨hio, -⟩ | ⟨-, hne, -⟩ | ⟨-, -, ⟨-, rfl⟩ | ⟨-, ⟨w, -, rfl⟩ | ⟨w, -, rfl⟩⟩⟩ :=
    execEncAnalyzeFinish_eq_next_iff.mp h
  · simp [hf] at hio
  · exact absurd he hne
  · rfl
  · rfl
  · rfl

/-- Ended with OK, the command built a code of at most 16 bits for each symbol and wrote the header. -/
theorem encAnalyzeFinish_of_ok (h : exec .encAnalyzeFinish s = .next t) (hok : t.code = .ok) :
    codeTooLong s.enc.buildCode.dict = false ∧ ∃ w, t.enc = s.enc.buildCode.analyzed w := by
  obtain ⟨-, rfl⟩ | ⟨-, -, rfl⟩ | ⟨-, -, ⟨-, rfl⟩ | ⟨hl, ⟨w, -, rfl⟩ | ⟨w, -, rfl⟩⟩⟩ :=
    execEncAnalyzeFinish_eq_next_iff.mp h
  · cases hok
  · cases hok
  · cases hok
  · exact ⟨hl, w, rfl⟩
  · cases hok

/-- With every push answered ok and no code too long, ENC_ANALYZE_FINISH ends with OK behind the header. -/
theorem encAnalyzeFinish_ok (hf : s.enc.iof = false) (he : s.enc.estate = .initial)
    (hl : codeTooLong s.enc.buildCode.dict = false) (hc : s.enc.ew.Clean) (hok : ∀ k, s.answer .eSink k = .ok) :
    ∃ w, exec .encAnalyzeFinish s = .next (((s.withEnc (s.enc.buildCode.analyzed w)).withRes w.pos).withCode .ok)
      ∧ w.Clean ∧ w.bits = s.enc.ew.bits ++ headerBits (dictEntries s.enc.buildCode.dict) := by
  obtain ⟨w, hw⟩ := writeAll_completes .eSink (headerBits (dictEntries s.enc.buildCode.dict)) s.enc.ew
    fun k _ _ => hok k
  obtain ⟨hclean, hbits, -⟩ := writeAll_ok_bits hw hc
  exact ⟨w, execEncAnalyzeFinish_eq_next_iff.mpr (.inr (.inr ⟨hf, he, .inr ⟨hl, .inl ⟨w, hw, rfl⟩⟩⟩)), hclean, hbits⟩

/-! ### The leaves and the weights of the tree (42_tree_dictionary R141, R147) -/

theorem weightNat_of_getElem? (h : arena[i]? = some n) : weightNat arena i = n.weight.toNat := by
  simp [weightNat, weightAt, h]

theorem symsAt_of_getElem? (h : arena[i]? = some n) : symsAt arena i = n.syms := by
  simp [symsAt, h]

theorem leafNode_inj {p q : SymCount} (h : leafNode p = leafNode q) : p = q := by
  obtain ⟨hweight, hsyms, -⟩ := Node.mk.inj h
  exact Prod.ext (List.singleton_injective hsyms) hweight

/-- Every leaf of the tree is a symbol counted, with its count. -/
theorem exists_leaf (hi : i < e.leaves.length) : ∃ b, e.leaves[i] = (b, e.freqOf b) ∧ 0 < (e.freqOf b).toNat := by
  obtain ⟨hcount, hpos⟩ := (mem_leaves e e.leaves[i]).mp (List.getElem_mem hi)
  exact ⟨e.leaves[i].1, Prod.ext rfl hcount, hpos⟩

/-- The leaves stand by weight, and among equal weights by symbol. -/
theorem leaves_ordered (hij : i < j) (hj : j < e.leaves.length) (ha : e.leaves[i] = (a, e.freqOf a))
    (hb : e.leaves[j] = (b, e.freqOf b)) :
    (e.freqOf a).toNat < (e.freqOf b).toNat
      ∨ ((e.freqOf a).toNat = (e.freqOf b).toNat ∧ a.toNat < b.toNat) := by
  have hle := List.pairwise_iff_getElem.mp (sortLeaves_sorted (usedSymbols e.freq)) i j (hij.trans hj) hj hij
  change leafLe e.leaves[i] e.leaves[j] = true at hle
  have hsym := List.pairwise_iff_getElem.mp (leaves_nodup e) i j (by simp; omega) (by simpa using hj) hij
  simp only [List.getElem_map, ha, hb] at hsym
  have hne : a.toNat ≠ b.toNat := fun h => hsym (BitVec.eq_of_toNat_eq h)
  simp only [ha, hb, leafLe, Bool.or_eq_true, decide_eq_true_eq, Bool.and_eq_true, beq_iff_eq] at hle
  omega

theorem leaves_sum_lt (h : CountInv s) : (s.enc.leaves.map fun p => p.2.toNat).sum < 2 ^ 64 := by
  obtain ⟨-, hlt⟩ := h
  rw [leaves_sum]
  omega

theorem forest_weighed (h : CountInv s) : s.enc.forest.Weighed s.enc.leaves :=
  buildForest_weighed (leaves_nodup _) (sortLeaves_sorted _) (leaves_sum_lt h)

theorem forest_inOrder (h : CountInv s) : s.enc.forest.InOrder := by
  refine buildForest_inOrder (leaves_nodup _) (fun p hp => ?_) (sortLeaves_sorted _) (leaves_sum_lt h)
  obtain ⟨hcount, hpos⟩ := (mem_leaves _ p).mp hp
  rwa [hcount]

/-- An internal node joins two earlier nodes, weighs their sum and holds the disjoint union of their symbols. -/
theorem Forest.Grown.joins_weighed (g : f.Grown leaves) (hw : f.Weighed leaves) (hi : leaves.length ≤ i)
    (hn : f.arena[i]? = some n) : ∃ l r nl nr, n.kind = .internal l r ∧ l < i ∧ r < i ∧ l ≠ r
      ∧ f.arena[l]? = some nl ∧ f.arena[r]? = some nr ∧ n.weight.toNat = nl.weight.toNat + nr.weight.toNat
      ∧ (∀ b, b ∈ n.syms ↔ b ∈ nl.syms ∨ b ∈ nr.syms) ∧ ∀ b, ¬ (b ∈ nl.syms ∧ b ∈ nr.syms) := by
  obtain ⟨n', l, r, nl, nr, hn', hk, hl, hr, hne, hnl, hnr, -, hsyms, hapart⟩ :=
    g.joins i hi (List.getElem?_eq_some_iff.mp hn).1
  obtain rfl := Option.some.inj (hn.symm.trans hn')
  have hweight := hw.joint i n l r hn hk
  rw [weightNat_of_getElem? hnl, weightNat_of_getElem? hnr] at hweight
  exact ⟨l, r, nl, nr, hk, hl, hr, hne, hnl, hnr, hweight, hsyms, hapart⟩

theorem rootIndex_lt (h : 1 ≤ e.distinct) : e.rootIndex < e.forest.arena.length := by
  obtain ⟨-, hlen, -⟩ := forest_grown h
  unfold Enc.rootIndex
  omega

/-- The root weighs TOTAL. -/
theorem root_weight (h : CountInv s) (hd : 1 ≤ s.enc.distinct) :
    weightNat s.enc.forest.arena s.enc.rootIndex = s.enc.total.toNat := by
  obtain ⟨-, -, hroot⟩ := forest_grown hd
  have hsum := (forest_weighed h).sum
  rw [Forest.rootSum, hroot, leaves_sum, ← h.1] at hsum
  simpa using hsum

/-! ### The tree (42_tree_dictionary R141 to R144, R147) -/

/-- Settles O34: what every merge keeps (`Forest.Grown`, `Forest.Weighed`, `Forest.InOrder`) holds of the finished
forest, whose last node is its only root. -/
theorem treeShape : Obligations.TreeShape := by
  intro s t hf he hc hd h
  obtain ⟨g, hlen, -⟩ := forest_grown hd
  have hw := forest_weighed hc
  have ho := forest_inOrder hc
  have hn := length_leaves s.enc
  have hleaf : ∀ {i b}, (hi : i < s.enc.leaves.length) →
      s.enc.forest.arena[i]? = some (leafNode (b, s.enc.freqOf b)) → s.enc.leaves[i] = (b, s.enc.freqOf b) :=
    fun hi hb => leafNode_inj (Option.some.inj ((g.leaf_get hi).symm.trans hb))
  rw [encAnalyzeFinish_tree hf he h, ← hn]
  refine ⟨hn ▸ hlen, fun i hi => ?_, fun b hb => ?_, fun i j a b hij hj ha hb => ?_, fun i n hi hni => ?_,
    fun i j m n hi hij hm hn => ?_, fun i l r n nl nr hni hk hnl hnr => ?_,
    fun i j l r l' r' m n nr nl' hij hm hk hn hk' hnr hnl => ?_, ?_⟩
  · obtain ⟨b, hb, hpos⟩ := exists_leaf hi
    exact ⟨b, (g.leaf_get hi).trans (by rw [hb]; rfl), hpos⟩
  · obtain ⟨i, hi, hbi⟩ := List.mem_iff_getElem.mp ((mem_leaves s.enc (b, s.enc.freqOf b)).mpr ⟨rfl, hb⟩)
    exact ⟨i, hi, (g.leaf_get hi).trans (by rw [hbi]; rfl)⟩
  · exact leaves_ordered hij hj (hleaf (hij.trans hj) ha) (hleaf hj hb)
  · exact g.joins_weighed hw hi hni
  · have := hw.ascend i j hi hij (List.getElem?_eq_some_iff.mp hn).1
    rwa [weightNat_of_getElem? hm, weightNat_of_getElem? hn] at this
  · exact g.before_of_pickLt hnl hnr (ho.pair i n l r hni hk).1
  · exact g.before_of_pickLt hnr hnl (ho.next i j m n l r l' r' hij hm hk hn hk')
  · have hroot := List.getElem?_eq_getElem (rootIndex_lt hd)
    refine ⟨_, List.getLast?_eq_getElem?.trans hroot, ?_, fun b => ?_⟩
    · exact BitVec.eq_of_toNat_eq ((weightNat_of_getElem? hroot).symm.trans (root_weight hc hd))
    · rw [← symsAt_of_getElem? hroot]
      exact root_syms hd b

/-! ### Codes (42_tree_dictionary R148, R149) -/

/-- Settles O35: the code is the path of the symbol, and the path is the walk from the root, which ends at the
symbol's leaf. -/
theorem codesArePaths : Obligations.CodesArePaths := by
  intro s t hf he hd hempty h hok b hb
  obtain ⟨hl, w, hw⟩ := encAnalyzeFinish_of_ok h hok
  obtain ⟨c, hc, hpath, hrange⟩ := buildCode_path hl hb
  have hd1 : 1 ≤ s.enc.distinct := by omega
  obtain ⟨g, -, -⟩ := forest_grown hd1
  obtain ⟨i, n, hfollow, hn, hkind⟩ :=
    walk_follow g b _ _ (rootIndex_lt hd1) (rootIndex_lt hd1) ((root_syms hd1 b).mpr hb)
  rw [← path_eq_walk hd, ← hpath] at hfollow
  rw [hw]
  exact ⟨c, i, n, hc, hrange, hfollow, hn, hkind⟩

/-! ### The dictionary (42_tree_dictionary R151, R153) -/

/-- Built on an empty DICT, the entries are those of the symbols counted, in their order. -/
theorem dictEntries_buildCode (hempty : ∀ b, e.codeOf b = none) :
    dictEntries e.buildCode.dict = (usedSymbols e.freq).map fun p => ⟨codeOfPath (e.path p.1), p.1⟩ := by
  have hcode : ∀ b, e.buildCode.codeOf b = if 0 < (e.freqOf b).toNat then some (codeOfPath (e.path b)) else none := by
    intro b
    rw [buildCode_codeOf, hempty]
    rfl
  rw [dictEntries_eq, usedSymbols_eq, List.map_map, ← List.filterMap_eq_map, List.filterMap_filter]
  refine List.filterMap_congr fun b _ => ?_
  rw [hcode]
  by_cases hb : 0 < (e.freqOf b).toNat
  · simp [hb]
  · simp [hb]

theorem path_length_le (hl : codeTooLong e.buildCode.dict = false) (hb : 0 < (e.freqOf b).toNat) :
    (e.path b).length ≤ 16 := by
  obtain ⟨c, -, hpath, -, hle, -⟩ := buildCode_path hl hb
  rwa [← hpath, length_codeBits]

/-- The Kraft sum is that of the paths. -/
theorem kraftSum_buildCode (hempty : ∀ b, e.codeOf b = none) (hl : codeTooLong e.buildCode.dict = false) :
    kraftSum (dictEntries e.buildCode.dict) =
      ((usedSymbols e.freq).map fun p => 2 ^ (16 - (e.path p.1).length)).sum := by
  rw [kraftSum, dictEntries_buildCode hempty, List.map_map]
  refine congrArg List.sum (List.map_congr_left fun p hp => ?_)
  obtain ⟨-, hlen, -⟩ := codeBits_codeOfPath (path_length_le hl ((mem_usedSymbols e p).mp hp).2)
  simp only [Function.comp_apply, hlen]

theorem usedSymbols_nodup (e : Enc) : ((usedSymbols e.freq).map (·.1)).Nodup :=
  List.pairwise_map.mpr ((usedSymbols_ascend e).imp fun hlt heq => by rw [heq] at hlt; exact lt_irrefl _ hlt)

/-- A sum over the symbols counted is one over the root's symbols. -/
theorem sum_usedSymbols (hd : 1 ≤ e.distinct) (g : Byte → Nat) :
    ((usedSymbols e.freq).map fun p => g p.1).sum =
      ∑ b ∈ (symsAt e.forest.arena e.rootIndex).toFinset, g b := by
  have hsyms : (symsAt e.forest.arena e.rootIndex).toFinset = ((usedSymbols e.freq).map (·.1)).toFinset := by
    ext b
    rw [List.mem_toFinset, List.mem_toFinset, root_syms hd, ← mem_leaves_syms]
    exact ((sortLeaves_perm _).map _).mem_iff
  rw [hsyms, List.sum_toFinset _ (usedSymbols_nodup e), List.map_map]
  rfl

/-- The paths of two or more symbols use up the whole of Kraft's sum (R153). -/
theorem kraft_paths (hl : codeTooLong e.buildCode.dict = false) (hd : 2 ≤ e.distinct) :
    ((usedSymbols e.freq).map fun p => 2 ^ (16 - (e.path p.1).length)).sum = 2 ^ 16 := by
  have hd1 : 1 ≤ e.distinct := by omega
  obtain ⟨g, -, -⟩ := forest_grown hd1
  have hroot := rootIndex_lt hd1
  rw [sum_usedSymbols hd1 fun b => 2 ^ (16 - (e.path b).length)]
  simp only [path_eq_walk hd]
  refine walk_kraft g _ _ 16 hroot hroot fun b hb => ?_
  rw [← path_eq_walk hd]
  exact path_length_le hl ((root_syms hd1 b).mp hb)

/-- The only symbol has the path of one left step (R146). -/
theorem path_of_single (hd : e.distinct = 1) (b : Byte) : e.path b = [false] := by
  simp only [Enc.path, pathOf, hd, if_true]

/-- Settles O36: the entries are those of the symbols counted, each with its path, and the walks that end at the
leaves of a tree use up Kraft's sum. -/
theorem dictionaryIsPrefixFree : Obligations.DictionaryIsPrefixFree := by
  intro s t _ _ hempty h hok
  obtain ⟨hl, w, ht⟩ := encAnalyzeFinish_of_ok h hok
  rw [ht]
  change ConsistentDict (dictEntries s.enc.buildCode.dict) ∧ (dictEntries s.enc.buildCode.dict).length = _
    ∧ (∀ b, (s.enc.buildCode.codeOf b).isSome = true ↔ _) ∧ (_ → kraftSum (dictEntries s.enc.buildCode.dict) = _)
    ∧ (_ → kraftSum (dictEntries s.enc.buildCode.dict) = _)
  refine ⟨buildCode_consistent hempty hl, ?_, buildCode_isSome_iff hempty, fun hd => ?_, fun hd => ?_⟩
  · rw [dictEntries_buildCode hempty, List.length_map]
    rfl
  · rw [kraftSum_buildCode hempty hl, kraft_paths hl hd]
  · obtain ⟨p, hp⟩ := List.length_eq_one_iff.mp hd
    rw [kraftSum_buildCode hempty hl, hp]
    simp [path_of_single hd]

end

section

variable {K c w x y : Nat} {ws : Multiset Nat} {ps : Multiset (Nat × Nat)}

/-! ### Weights, lengths and Kraft's inequality (42_tree_dictionary R153, R155) -/

/-- `2^K` times the Kraft sum of the lengths. -/
def kraftOf (K : Nat) (ls : Multiset Nat) : Nat := (ls.map fun l => 2 ^ (K - l)).sum

/-- The total length of weights paired with lengths. -/
def totalLength (ps : Multiset (Nat × Nat)) : Nat := (ps.map fun p => p.1 * p.2).sum

/-- Some lengths that satisfy Kraft's inequality give the weights a total length of at most `c`. -/
def Affords (K : Nat) (ws : Multiset Nat) (c : Nat) : Prop :=
  ∃ ps : Multiset (Nat × Nat), ps.map Prod.fst = ws ∧ kraftOf K (ps.map Prod.snd) ≤ 2 ^ K ∧ totalLength ps ≤ c

@[simp] theorem kraftOf_cons (K l : Nat) (ls : Multiset Nat) :
    kraftOf K (l ::ₘ ls) = 2 ^ (K - l) + kraftOf K ls := by simp [kraftOf]

@[simp] theorem totalLength_cons (p : Nat × Nat) (ps : Multiset (Nat × Nat)) :
    totalLength (p ::ₘ ps) = p.1 * p.2 + totalLength ps := by simp [totalLength]

theorem exists_cons_of_map_fst (h : ps.map Prod.fst = w ::ₘ ws) :
    ∃ l qs, ps = (w, l) ::ₘ qs ∧ qs.map Prod.fst = ws := by
  obtain ⟨⟨_, l⟩, hmem, rfl, hrest⟩ := (Multiset.map_eq_cons _ _ _ _).mpr h
  exact ⟨l, ps.erase (_, l), (Multiset.cons_erase hmem).symm, hrest⟩

/-- The least weight can take the longest length: exchanging it for a longer one makes nothing dearer. -/
theorem exists_longest (w l : Nat) (ps : Multiset (Nat × Nat)) (hw : ∀ v ∈ ps.map Prod.fst, w ≤ v) :
    ∃ l' qs, qs.map Prod.fst = ps.map Prod.fst ∧ l' ::ₘ qs.map Prod.snd = l ::ₘ ps.map Prod.snd
      ∧ (∀ m ∈ qs.map Prod.snd, m ≤ l') ∧ w * l' + totalLength qs ≤ w * l + totalLength ps := by
  induction ps using Multiset.induction_on with
  | empty => exact ⟨l, 0, rfl, rfl, by simp, le_refl _⟩
  | cons p ps ih =>
    obtain ⟨v, m⟩ := p
    simp only [Multiset.map_cons, Multiset.mem_cons, forall_eq_or_imp] at hw
    obtain ⟨hv, hw⟩ := hw
    obtain ⟨l', qs, hfst, hsnd, hmax, hcost⟩ := ih hw
    by_cases hm : m ≤ l'
    · refine ⟨l', (v, m) ::ₘ qs, by simp [hfst], ?_, by simpa using ⟨hm, by simpa using hmax⟩, ?_⟩
      · rw [Multiset.map_cons, Multiset.map_cons, Multiset.cons_swap, hsnd, Multiset.cons_swap]
      · simp only [totalLength_cons]; omega
    · refine ⟨m, (v, l') ::ₘ qs, by simp [hfst], ?_, ?_, ?_⟩
      · rw [Multiset.map_cons, Multiset.map_cons, hsnd, Multiset.cons_swap]
      · simp only [Multiset.map_cons, Multiset.mem_cons, forall_eq_or_imp]
        exact ⟨by omega, fun k hk => (hmax k hk).trans (by omega)⟩
      · have hswap : w * m + v * l' ≤ w * l' + v * m := mul_add_mul_le_mul_add_mul hv (by omega)
        simp only [totalLength_cons]; omega

/-- Lengths of which none is above `M` leave a gap of a whole `2^(K-M)` below `2^K`, if they leave one. -/
theorem kraftOf_add_le {M : Nat} {ls : Multiset Nat} (hM : ∀ l ∈ ls, l ≤ M) (h : kraftOf K ls + 2 ^ (K - M) < 2 ^ K) :
    kraftOf K ls + 2 ^ (K - M) + 2 ^ (K - M) ≤ 2 ^ K := by
  have hdvd : 2 ^ (K - M) ∣ kraftOf K ls := by
    refine Multiset.dvd_sum fun n hn => ?_
    obtain ⟨l, hl, rfl⟩ := Multiset.mem_map.mp hn
    exact pow_dvd_pow 2 (Nat.sub_le_sub_left (hM l hl) K)
  have hgap : 2 ^ (K - M) ∣ 2 ^ K - (kraftOf K ls + 2 ^ (K - M)) :=
    Nat.dvd_sub (pow_dvd_pow 2 (Nat.sub_le K M)) (hdvd.add (dvd_refl _))
  have := Nat.le_of_dvd (by omega) hgap
  omega

/-- Joining the two least weights saves their sum: they can have the two longest lengths, and a node in their place
is one step shorter. -/
theorem Affords.join (h : Affords K (x ::ₘ y ::ₘ ws) c) (hxy : x ≤ y) (hy : ∀ w ∈ ws, y ≤ w) :
    ∃ c', Affords K ((x + y) ::ₘ ws) c' ∧ c' + (x + y) ≤ c := by
  obtain ⟨rs, hrs, hkraft, hcost⟩ := h
  obtain ⟨lx, ps, rfl, hps⟩ := exists_cons_of_map_fst hrs
  obtain ⟨m, os, hos, hm, hmax, hcost1⟩ := exists_longest x lx ps (by
    rw [hps]
    simpa using ⟨hxy, fun w hw => hxy.trans (hy w hw)⟩)
  obtain ⟨ly, qs, rfl, hqs⟩ := exists_cons_of_map_fst (hos.trans hps)
  obtain ⟨M, ts, hts, hM, hmax2, hcost2⟩ := exists_longest y ly qs (by rwa [hqs])
  rw [Multiset.map_cons] at hm hmax hkraft
  rw [← hM] at hm hmax
  rw [← hm, kraftOf_cons, kraftOf_cons] at hkraft
  have hmM : M ≤ m := hmax M (Multiset.mem_cons_self _ _)
  have hpos : 0 < 2 ^ (K - m) := by positivity
  have hroom := kraftOf_add_le (K := K) hmax2 (by omega)
  obtain ⟨M, rfl⟩ : ∃ j, M = j + 1 := by
    refine Nat.exists_eq_succ_of_ne_zero fun h0 => ?_
    simp only [h0, Nat.sub_zero] at hkraft
    omega
  refine ⟨(x + y) * M + totalLength ts, ⟨(x + y, M) ::ₘ ts, ?_, ?_, ?_⟩, ?_⟩
  · rw [Multiset.map_cons, hts, hqs]
  · have hstep : 2 ^ (K - M) ≤ 2 ^ (K - (M + 1) + 1) := Nat.pow_le_pow_right (by omega) (by omega)
    rw [pow_succ] at hstep
    simp only [Multiset.map_cons, kraftOf_cons]
    omega
  · rw [totalLength_cons]
  · have hx : x * (M + 1) ≤ x * m := Nat.mul_le_mul_left x hmM
    simp only [totalLength_cons] at hcost hcost1
    rw [Nat.mul_succ] at hx hcost2
    rw [Nat.add_mul]
    omega

end

section

variable {leaves : List SymCount} {f f1 f2 : Forest} {arena : List Node} {a b i l r k : Nat} {s : Byte} {nd : Node}
  {count : Byte → Nat}
  {e : Enc}

/-! ### Walks below a node (42_tree_dictionary R148) -/

/-- The children of an internal node are earlier nodes and split its symbols. -/
theorem Forest.Grown.children (h : f.Grown leaves) (hi : f.arena[i]? = some nd) (hk : nd.kind = .internal l r) :
    l < i ∧ r < i ∧ i < f.arena.length
      ∧ (symsAt f.arena i).toFinset = (symsAt f.arena l).toFinset ∪ (symsAt f.arena r).toFinset
      ∧ Disjoint (symsAt f.arena l).toFinset (symsAt f.arena r).toFinset := by
  have hlen := (List.getElem?_eq_some_iff.mp hi).1
  have hge : leaves.length ≤ i := by
    by_contra hlt
    rw [h.leaf_get (by omega)] at hi
    cases hi
    cases hk
  obtain ⟨nd', l', r', nl, nr, hi', hk', hl, hr, -, hnl, hnr, -, hsyms, hapart⟩ := h.joins i hge hlen
  obtain rfl := Option.some.inj (hi.symm.trans hi')
  cases hk.symm.trans hk'
  refine ⟨hl, hr, hlen, ?_, ?_⟩
  · ext t
    simpa [symsAt, hi, hnl, hnr] using hsyms t
  · rw [Finset.disjoint_left]
    intro t htl htr
    exact hapart t (by simpa [symsAt, hnl, hnr] using And.intro htl htr)

theorem walk_internal (hi : arena[i]? = some nd) (hk : nd.kind = .internal l r) (s : Byte) (k : Nat) :
    walk arena s (k + 1) i = if s ∈ symsAt arena l then false :: walk arena s k l else true :: walk arena s k r := by
  obtain ⟨w, sy, kd⟩ := nd
  subst hk
  simp only [walk, hi]

/-- A walk depends only on the nodes up to the one it starts at, and any fuel above that node's index is enough. -/
theorem walk_congr (h : f.Grown leaves) (s : Byte) (i : Nat) (heq : ∀ j ≤ i, arena[j]? = f.arena[j]?) :
    ∀ {k m : Nat}, i < k → i < m → walk arena s k i = walk f.arena s m i := by
  induction i using Nat.strong_induction_on with
  | _ i ih =>
    intro k m hk hm
    obtain ⟨k, rfl⟩ : ∃ j, k = j + 1 := ⟨k - 1, by omega⟩
    obtain ⟨m, rfl⟩ : ∃ j, m = j + 1 := ⟨m - 1, by omega⟩
    have hi := heq i (le_refl i)
    match hn : f.arena[i]? with
    | none => simp only [walk, hi, hn]
    | some ⟨w, sy, .leaf _⟩ => simp only [walk, hi, hn]
    | some ⟨w, sy, .internal l r⟩ =>
      obtain ⟨hl, hr, -⟩ := h.children hn rfl
      have hsyms : symsAt arena l = symsAt f.arena l := by simp only [symsAt, heq l hl.le]
      have hleft : walk arena s k l = walk f.arena s m l :=
        ih l hl (fun j hj => heq j (by omega)) (by omega) (by omega)
      have hright : walk arena s k r = walk f.arena s m r :=
        ih r hr (fun j hj => heq j (by omega)) (by omega) (by omega)
      rw [walk_internal (hi.trans hn) rfl, walk_internal hn rfl, hsyms, hleft, hright]

/-- The bits the symbols of node `i` take from there on, each as often as it was counted (R155). -/
def bitsBelow (count : Byte → Nat) (arena : List Node) (i : Nat) : Nat :=
  ∑ t ∈ (symsAt arena i).toFinset, count t * (walk arena t (i + 1) i).length

theorem bitsBelow_congr (h : f.Grown leaves) (heq : ∀ j ≤ i, arena[j]? = f.arena[j]?) :
    bitsBelow count arena i = bitsBelow count f.arena i := by
  have hsyms : symsAt arena i = symsAt f.arena i := by simp only [symsAt, heq i (le_refl i)]
  simp only [bitsBelow, hsyms, walk_congr h _ i heq (Nat.lt_succ_self i) (Nat.lt_succ_self i)]

theorem bitsBelow_leaf (h : f.Grown leaves) (hi : i < leaves.length) : bitsBelow count f.arena i = 0 := by
  simp [bitsBelow, walk, h.leaf_get hi, leafNode]

/-- A node weighs the counts of its symbols (R147). -/
theorem weightNat_eq_sum_count (h : f.Grown leaves) (hw : f.Weighed leaves)
    (hcount : ∀ p ∈ leaves, p.2.toNat = count p.1) (i : Nat) (hlen : i < f.arena.length) :
    weightNat f.arena i = ∑ t ∈ (symsAt f.arena i).toFinset, count t := by
  induction i using Nat.strong_induction_on with
  | _ i ih =>
    by_cases hi : i < leaves.length
    · rw [weightNat_leaf h hi, hcount _ (List.getElem_mem hi)]
      simp [symsAt, h.leaf_get hi, leafNode]
    · obtain ⟨nd, l, r, -, -, hn, hk, -⟩ := h.joins i (by omega) hlen
      obtain ⟨hl, hr, -, hunion, hdisj⟩ := h.children hn hk
      rw [hunion, Finset.sum_union hdisj, ← ih l hl (by omega), ← ih r hr (by omega), weightNat_of_getElem? hn]
      exact hw.joint i nd l r hn hk

/-- Below an internal node each symbol takes one bit more than below the child it is in. -/
theorem bitsBelow_internal (h : f.Grown leaves) (hw : f.Weighed leaves)
    (hcount : ∀ p ∈ leaves, p.2.toNat = count p.1) (hi : f.arena[i]? = some nd) (hk : nd.kind = .internal l r) :
    bitsBelow count f.arena i = bitsBelow count f.arena l + bitsBelow count f.arena r + weightNat f.arena i := by
  obtain ⟨hl, hr, hlen, hunion, hdisj⟩ := h.children hi hk
  have hleft : ∀ t ∈ (symsAt f.arena l).toFinset,
      (walk f.arena t (i + 1) i).length = (walk f.arena t (l + 1) l).length + 1 := by
    intro t ht
    rw [walk_internal hi hk, if_pos (List.mem_toFinset.mp ht), List.length_cons,
      walk_congr h t l (fun _ _ => rfl) hl (Nat.lt_succ_self l)]
  have hright : ∀ t ∈ (symsAt f.arena r).toFinset,
      (walk f.arena t (i + 1) i).length = (walk f.arena t (r + 1) r).length + 1 := by
    intro t ht
    have hnot : t ∉ symsAt f.arena l := fun hc =>
      Finset.disjoint_left.mp hdisj (List.mem_toFinset.mpr hc) ht
    rw [walk_internal hi hk, if_neg hnot, List.length_cons,
      walk_congr h t r (fun _ _ => rfl) hr (Nat.lt_succ_self r)]
  rw [weightNat_eq_sum_count h hw hcount i hlen, bitsBelow, bitsBelow, bitsBelow, hunion, Finset.sum_union hdisj,
    Finset.sum_union hdisj, Finset.sum_congr rfl fun t ht => congrArg (count t * ·) (hleft t ht),
    Finset.sum_congr rfl fun t ht => congrArg (count t * ·) (hright t ht)]
  simp only [Nat.mul_succ, Finset.sum_add_distrib]
  omega

/-! ### Every merge is the best one (42_tree_dictionary R155) -/

/-- The weights of the nodes in the queues. -/
def Forest.rootWeights (f : Forest) : Multiset Nat := ((f.lq ++ f.iq).map (weightNat f.arena) : List Nat)

/-- The bits taken below the nodes in the queues. -/
def Forest.bitsBelowRoots (count : Byte → Nat) (f : Forest) : Nat :=
  ((f.lq ++ f.iq).map (bitsBelow count f.arena)).sum

/-- What any lengths cost for the leaves is enough for the bits below the queues' nodes and some lengths of these
nodes: no merge so far was a loss. -/
def Forest.Optimal (count : Byte → Nat) (leaves : List SymCount) (f : Forest) : Prop :=
  ∀ K c : Nat, Affords K (leaves.map fun p => p.2.toNat : List Nat) c →
    ∃ c', Affords K f.rootWeights c' ∧ c' + f.bitsBelowRoots count ≤ c

theorem start_optimal (hn : (leaves.map (·.1)).Nodup) : (Forest.start leaves).Optimal count leaves := by
  intro K c h
  have g := start_grown leaves hn
  have hroots : (Forest.start leaves).lq ++ (Forest.start leaves).iq = List.range leaves.length := by
    simp [Forest.start]
  refine ⟨c, ?_, ?_⟩
  · have hweights : (List.range leaves.length).map (weightNat (Forest.start leaves).arena) =
        leaves.map fun p => p.2.toNat := by
      refine List.ext_getElem (by simp) fun i h1 h2 => ?_
      simp only [List.length_map] at h2
      simp [weightNat_leaf g h2]
    rwa [Forest.rootWeights, hroots, hweights]
  · have hbits : (Forest.start leaves).bitsBelowRoots count = 0 := by
      rw [Forest.bitsBelowRoots, hroots, List.sum_eq_zero_iff]
      simp only [List.mem_map, List.mem_range]
      rintro _ ⟨i, hi, rfl⟩
      exact bitsBelow_leaf g hi
    omega

/-- The two picks of a merge are the two least of the queues' nodes. -/
theorem picks_least (h : f.Grown leaves) (hw : f.Weighed leaves) (hl : leaves.Pairwise fun x y => leafLe x y = true)
    (h1 : f.pick = some (a, f1)) (h2 : f1.pick = some (b, f2)) :
    f2.arena = f.arena ∧ (f.lq ++ f.iq).Perm (a :: b :: (f2.lq ++ f2.iq))
      ∧ weightNat f.arena a ≤ weightNat f.arena b
      ∧ ∀ i ∈ f2.lq ++ f2.iq, weightNat f.arena b ≤ weightNat f.arena i := by
  obtain ⟨e1, p1⟩ := pick_perm h1
  obtain ⟨e2, p2⟩ := pick_perm h2
  obtain ⟨hlq, hiq, hlt⟩ := queues_inOrder h hw hl
  obtain ⟨ha, hlq1, hiq1, hlt1⟩ := pick_first hlq hiq hlt h1
  rw [← e1] at hlq1 hiq1
  obtain ⟨hb, -⟩ := pick_first hlq1 hiq1 hlt1 h2
  have weight : ∀ {i j : Nat}, PickLt f.arena i j → weightNat f.arena i ≤ weightNat f.arena j := by
    rintro i j (hij | ⟨hij, -⟩) <;> omega
  exact ⟨e2.trans e1, p1.trans (p2.cons a), weight (ha b (p2.mem_iff.mpr List.mem_cons_self)),
    fun i hi => weight (e1 ▸ hb i hi)⟩

/-- The new node of a merge stands behind the nodes there were. -/
theorem getElem?_join_new (f : Forest) (a b : Nat) :
    ∃ nd, (f.join a b).arena[f.arena.length]? = some nd ∧ nd.kind = .internal a b :=
  ⟨_, List.getElem?_concat_length, rfl⟩

theorem join_roots_perm (f : Forest) (a b : Nat) :
    ((f.join a b).lq ++ (f.join a b).iq).Perm (f.arena.length :: (f.lq ++ f.iq)) := by
  simp only [Forest.join, ← List.append_assoc]
  exact List.perm_append_singleton _ _

theorem weightNat_join_old (hi : i < f.arena.length) : weightNat (f.join a b).arena i = weightNat f.arena i := by
  rw [weightNat, weightAt_join_old f a b i hi, weightNat]

/-- What a merge does to the weights and the bits of the queues' nodes: two least weights give way to their sum, and
as many bits are added. -/
theorem merge_roots (h : f.Grown leaves) (hw : f.Weighed leaves) (hl : leaves.Pairwise fun x y => leafLe x y = true)
    (hsum : (leaves.map fun p => p.2.toNat).sum < 2 ^ 64) (hcount : ∀ p ∈ leaves, p.2.toNat = count p.1)
    (h1 : f.pick = some (a, f1)) (h2 : f1.pick = some (b, f2)) :
    ∃ x y ws, x ≤ y ∧ (∀ w ∈ ws, y ≤ w) ∧ f.rootWeights = x ::ₘ y ::ₘ ws
      ∧ (f2.join a b).rootWeights = (x + y) ::ₘ ws
      ∧ (f2.join a b).bitsBelowRoots count = f.bitsBelowRoots count + (x + y) := by
  obtain ⟨e, perm, hab, hb⟩ := picks_least h hw hl h1 h2
  have gj := merge_grown h h1 h2
  have wj := merge_weighed h hw hl hsum h1 h2
  have hlt : ∀ i ∈ a :: b :: (f2.lq ++ f2.iq), i < f2.arena.length := fun i hi =>
    e ▸ h.root_lt (perm.mem_iff.mpr hi)
  have hbits : ∀ i ∈ a :: b :: (f2.lq ++ f2.iq),
      bitsBelow count (f2.join a b).arena i = bitsBelow count f2.arena i := fun i hi =>
    e ▸ bitsBelow_congr h fun j hj => e ▸ getElem?_join_old f2 a b j (hj.trans_lt (hlt i hi))
  have hweight : ∀ i ∈ a :: b :: (f2.lq ++ f2.iq), weightNat (f2.join a b).arena i = weightNat f2.arena i :=
    fun i hi => weightNat_join_old (hlt i hi)
  rw [← e] at hab hb
  simp only [List.mem_cons, forall_eq_or_imp] at hbits hweight
  obtain ⟨hbitsA, hbitsB, hbits⟩ := hbits
  obtain ⟨hweightA, hweightB, hweight⟩ := hweight
  obtain ⟨nd, hnd, hk⟩ := getElem?_join_new f2 a b
  have hnew : weightNat (f2.join a b).arena f2.arena.length = weightNat f2.arena a + weightNat f2.arena b := by
    rw [weightNat_of_getElem? hnd, wj.joint _ nd a b hnd hk, hweightA, hweightB]
  refine ⟨weightNat f2.arena a, weightNat f2.arena b, ((f2.lq ++ f2.iq).map (weightNat f2.arena) : List Nat), hab,
    fun w hw => ?_, ?_, ?_, ?_⟩
  · obtain ⟨i, hi, rfl⟩ := List.mem_map.mp hw
    exact hb i hi
  · rw [Forest.rootWeights, ← e]
    exact Multiset.coe_eq_coe.mpr (perm.map _)
  · refine Multiset.coe_eq_coe.mpr (((join_roots_perm f2 a b).map _).trans ?_)
    rw [List.map_cons, hnew, List.map_congr_left hweight]
  · rw [Forest.bitsBelowRoots, Forest.bitsBelowRoots, ← e, ((join_roots_perm f2 a b).map _).sum_eq,
      (perm.map _).sum_eq, List.map_cons, List.map_congr_left hbits,
      bitsBelow_internal gj wj hcount hnd hk, hbitsA, hbitsB, hnew]
    simp only [List.map_cons, List.sum_cons]
    omega

theorem merge_optimal (h : f.Grown leaves) (hw : f.Weighed leaves) (ho : f.Optimal count leaves)
    (hl : leaves.Pairwise fun x y => leafLe x y = true) (hsum : (leaves.map fun p => p.2.toNat).sum < 2 ^ 64)
    (hcount : ∀ p ∈ leaves, p.2.toNat = count p.1)
    (h1 : f.pick = some (a, f1)) (h2 : f1.pick = some (b, f2)) : (f2.join a b).Optimal count leaves := by
  obtain ⟨x, y, ws, hxy, hy, hroots, hjoin, hbits⟩ := merge_roots h hw hl hsum hcount h1 h2
  intro K c hc
  obtain ⟨c1, hc1, hle1⟩ := ho K c hc
  rw [hroots] at hc1
  obtain ⟨c2, hc2, hle2⟩ := hc1.join hxy hy
  exact ⟨c2, hjoin ▸ hc2, by omega⟩

/-- No lengths cost less than BuildTree's forest. -/
theorem buildForest_optimal (hn : (leaves.map (·.1)).Nodup) (hl : leaves.Pairwise fun x y => leafLe x y = true)
    (hsum : (leaves.map fun p => p.2.toNat).sum < 2 ^ 64) (hcount : ∀ p ∈ leaves, p.2.toNat = count p.1) :
    (buildForest leaves).Optimal count leaves :=
  (mergeLoop_induction (P := fun f => f.Grown leaves ∧ f.Weighed leaves ∧ f.Optimal count leaves)
    (fun _ _ _ _ _ ⟨g, w, o⟩ h1 h2 => ⟨merge_grown g h1 h2, merge_weighed g w hl hsum h1 h2,
      merge_optimal g w o hl hsum hcount h1 h2⟩) leaves.length
    (Forest.start leaves) ⟨start_grown leaves hn, start_weighed leaves, start_optimal hn⟩
    (by simp [Forest.start])).1.2.2

/-! ### The code is optimal (42_tree_dictionary R155) -/

/-- With the lengths of the paths of two or more symbols, the payload of the data analyzed is the bits below the
root. -/
theorem payloadLength_of_path {len : Byte → Nat} (hd : 2 ≤ e.distinct)
    (hlen : ∀ b, 0 < (e.freqOf b).toNat → len b = (e.path b).length) :
    payloadLength e.freq len = bitsBelow (fun b => (e.freqOf b).toNat) e.forest.arena e.rootIndex := by
  have hd1 : 1 ≤ e.distinct := by omega
  have hfuel : e.forest.arena.length = e.rootIndex + 1 := by
    have := rootIndex_lt hd1
    unfold Enc.rootIndex at *
    omega
  have hpath : ∀ b, walk e.forest.arena b (e.rootIndex + 1) e.rootIndex = e.path b := fun b => by
    rw [path_eq_walk hd, hfuel]
  simp only [bitsBelow, hpath]
  rw [← sum_usedSymbols hd1 fun b => (e.freqOf b).toNat * (e.path b).length, payloadLength]
  refine congrArg List.sum (List.map_congr_left fun p hp => ?_)
  obtain ⟨hcount, hpos⟩ := (mem_usedSymbols e p).mp hp
  rw [hcount, hlen p.1 hpos]

/-- Lengths for the symbols counted are lengths for the leaves. -/
theorem affords_payloadLength {K : Nat} {len : Byte → Nat}
    (hk : ((usedSymbols e.freq).map fun p => 2 ^ (K - len p.1)).sum ≤ 2 ^ K) :
    Affords K (e.leaves.map fun p => p.2.toNat : List Nat) (payloadLength e.freq len) := by
  refine ⟨((usedSymbols e.freq).map fun p => (p.2.toNat, len p.1) : List (Nat × Nat)), ?_, ?_, ?_⟩
  · rw [Multiset.map_coe, List.map_map]
    exact Multiset.coe_eq_coe.mpr ((sortLeaves_perm _).map _).symm
  · simpa [kraftOf, Function.comp_def] using hk
  · simp [totalLength, payloadLength, Function.comp_def]

/-- Settles O37: each merge joins the two least weights, which saves as much as any lengths can (`Affords.join`);
what is left for the root costs nothing. -/
theorem dictionaryIsOptimal : Obligations.DictionaryIsOptimal := by
  intro s t _ _ hc hd _ h hok len K _ hk
  obtain ⟨hl, w, ht⟩ := encAnalyzeFinish_of_ok h hok
  have hcount : ∀ p ∈ s.enc.leaves, p.2.toNat = (s.enc.freqOf p.1).toNat := fun p hp => by
    rw [((mem_leaves _ p).mp hp).1]
  have hopt : s.enc.forest.Optimal (fun b => (s.enc.freqOf b).toNat) s.enc.leaves :=
    buildForest_optimal (leaves_nodup _) (sortLeaves_sorted _) (leaves_sum_lt hc) hcount
  obtain ⟨-, -, hroot⟩ := forest_grown (e := s.enc) (by omega)
  obtain ⟨c, -, hle⟩ := hopt K _ (affords_payloadLength hk)
  rw [Forest.bitsBelowRoots, hroot, List.map_singleton, List.sum_singleton] at hle
  refine (payloadLength_of_path hd fun b hb => ?_).trans_le (le_of_add_le_right hle)
  obtain ⟨x, hx, hpath, -⟩ := buildCode_path hl hb
  have hcode : t.enc.codeOf b = some x := by rw [ht]; exact hx
  rw [← hpath, length_codeBits, hcode]

end

section

variable {s : State}

/-! ### No symbol and one symbol (42_tree_dictionary R145, R146) -/

/-- With every transfer answered ok, ENC_COMPRESS of bytes that have codes writes the codes (43_encoder R174). -/
theorem encCompress_ok {bits : List Bool} (hf : s.enc.iof = false) (he : s.enc.estate = .analyzed)
    (hbits : encodeBytes s.enc.codeOf s.input = some bits) (hlen : bits.length < 2 ^ 64) (hc : s.enc.ew.Clean)
    (hin : ∀ k, s.answer .input k = .ok) (hok : ∀ k, s.answer .eSink k = .ok) :
    ∃ w, exec .encCompress s =
        .next (((s.withEnc (s.enc.withEw w)).withRes (BitVec.ofNat 64 bits.length)).withCode .ok)
      ∧ w.bits = s.enc.ew.bits ++ bits := by
  obtain ⟨w, hw⟩ := writeAll_completes .eSink bits s.enc.ew fun k _ _ => hok k
  obtain ⟨-, hwbits, -⟩ := writeAll_ok_bits hw hc
  have hloop := (compressLoop_eq_ok_iff (i := 0) (n := 0)).mpr ⟨bits, w, hbits, fun k _ => hin _, hw, rfl, rfl⟩
  refine ⟨w, execEncCompress_eq_next_iff.mpr (.inr (.inr ⟨hf, he, .inl ⟨_, _, hloop, ?_⟩⟩)), hwbits⟩
  rw [bitsWritten, Nat.zero_add, if_pos hlen]

/-- Settles O32: without a symbol the leaves, the tree and the entries are empty lists. -/
theorem emptyTable : Obligations.EmptyTable := by
  intro s hf he hfreq hempty hc hok
  have hused : usedSymbols s.enc.freq = [] := by
    simp [usedSymbols_eq, hfreq]
  have hentries : dictEntries s.enc.buildCode.dict = [] := by
    rw [dictEntries_buildCode hempty, hused, List.map_nil]
  have hl : codeTooLong s.enc.buildCode.dict = false := by rw [codeTooLong, hentries, List.any_nil]
  obtain ⟨w, ht, hclean, hbits⟩ := encAnalyzeFinish_ok hf he hl hc hok
  refine ⟨_, ht, rfl, ?_, fun b => ?_, ?_, ?_, fun hdf hready harg => ?_⟩
  · change (buildForest (sortLeaves (usedSymbols s.enc.freq))).arena = []
    rw [hused]
    rfl
  · change s.enc.buildCode.codeOf b = none
    rw [buildCode_codeOf, hfreq, hempty]
    rfl
  · change w.bits = _
    rw [hbits, hentries]
    rfl
  · exact execEncCompress_eq_next_iff.mpr (.inr (.inr ⟨hf, rfl, .inl ⟨_, _, rfl, rfl⟩⟩))
  · rw [exec, execDecDecode, decGuard_ok hdf, if_pos hready, if_pos harg]
    rfl

/-- The code of a single symbol, m times, is m zero bits. -/
theorem encodeBytes_replicate {code : Byte → Option Code} {a : Byte} (ha : code a = some { len := 1, bits := 0 })
    (m : Nat) : encodeBytes code (List.replicate m a) = some (List.replicate m false) := by
  induction m with
  | zero => rfl
  | succ m ih => exact encodeBytes_cons_eq_some_iff.mpr ⟨_, _, ha, ih, rfl⟩

theorem distinct_eq_one {e : Enc} {a : Byte} (ha : 0 < (e.freqOf a).toNat) (hothers : ∀ b, b ≠ a → e.freqOf b = 0) :
    e.distinct = 1 := by
  have hall : ∀ p ∈ usedSymbols e.freq, p = (a, e.freqOf a) := by
    intro p hp
    obtain ⟨hcount, hpos⟩ := (mem_usedSymbols e p).mp hp
    obtain rfl : p.1 = a := by
      by_contra hne
      rw [hothers _ hne] at hpos
      exact absurd hpos (by decide)
    exact Prod.ext rfl hcount
  have hnodup := (usedSymbols_nodup e).of_map
  rw [List.eq_replicate_of_mem hall, List.nodup_replicate] at hnodup
  exact le_antisymm hnodup (distinct_pos ha)

/-- Settles O33: the only symbol's path is one left step. -/
theorem singleSymbol : Obligations.SingleSymbol := by
  intro s a hf he ha hothers hempty hc hok
  have hd := distinct_eq_one ha hothers
  have hcode : ∀ b, s.enc.buildCode.codeOf b = if b = a then some { len := 1, bits := 0 } else none := by
    intro b
    rw [buildCode_codeOf, hempty]
    change (if _ then some (codeOfPath (s.enc.path b)) else none) = _
    rw [path_of_single hd]
    by_cases hba : b = a
    · rw [if_pos (hba ▸ ha), if_pos hba]
      rfl
    · rw [if_neg (by simp [hothers b hba]), if_neg hba]
  have hl : codeTooLong s.enc.buildCode.dict = false := by
    rw [Bool.eq_false_iff, Ne, codeTooLong_iff]
    rintro ⟨x, hx, hlong⟩
    rw [mem_dictEntries, hcode] at hx
    split at hx
    · rw [← Option.some.inj hx] at hlong
      exact absurd hlong (by decide)
    · cases hx
  obtain ⟨w, ht, hclean, -⟩ := encAnalyzeFinish_ok hf he hl hc hok
  refine ⟨_, ht, rfl, hcode, fun m hm => ?_⟩
  obtain ⟨w', hu, hbits⟩ := encCompress_ok
    (s := { (((s.withEnc (s.enc.buildCode.analyzed w)).withRes w.pos).withCode .ok) with
      input := List.replicate m a, inputIo := [] })
    hf rfl (encodeBytes_replicate ((hcode a).trans (if_pos rfl)) m) (by simpa using hm) hclean (fun _ => rfl) hok
  exact ⟨_, hu, rfl, by simp, hbits⟩

end

end Sys2Proof.Machine
end

section
/-! Proofs for 43_encoder. First the state table, which says for every command of ENC where it ends with InvalidState.
Then one part per command: its ending in the states where it runs, by how its transfers are answered. -/

namespace Sys2Proof.Machine

variable {s t : State} {i : Instr} {c : StatusCode} {e : EState} {S : Stream} {w : Writer} {bits : List Bool}
  {x y : List Byte} {b : Byte}

/-! ### The state table (43_encoder R170) -/

/-- Outside its states an ENC command ends with InvalidState. -/
theorem exec_of_not_encRunsIn (hi : unitOf i = .enc) (hf : s.enc.iof = false)
    (hr : encRunsIn i s.enc.estate = false) : exec i s = .next (s.withCode .invalidState) := by
  cases i with
  | encAnalyze => exact encGuard_illegal hf hr
  | encAnalyzeFinish => exact encGuard_illegal hf hr
  | encCompress => exact encGuard_illegal hf hr
  | encCompressFinish => exact encGuard_illegal hf hr
  | encRelease => exact encGuard_illegal hf hr
  | encPosition => cases hr
  | _ => cases hi

/-- No error but CodeTooLong moves ESTATE. -/
theorem estateAfter_of_error (hok : c ≠ .ok) (hlong : c ≠ .codeTooLong) : estateAfter i c e = e := by
  unfold estateAfter
  split
  · exact absurd rfl hok
  · exact absurd rfl hlong
  · exact absurd rfl hok
  · exact absurd rfl hok
  · rfl

theorem estateAfter_of_other_unit (hi : unitOf i ≠ .enc) : estateAfter i c e = e := by
  unfold estateAfter
  split
  · exact absurd rfl hi
  · exact absurd rfl hi
  · exact absurd rfl hi
  · exact absurd rfl hi
  · rfl

/-- ESTATE after any command is the table's, by the code the command ended with. -/
theorem exec_estate (h : exec i s = .next t) : t.enc.estate = estateAfter i t.code s.enc.estate := by
  by_cases hi : unitOf i = .enc
  · obtain ⟨-, rfl⟩ | ⟨-, -, rfl⟩ | ⟨-, -, u, v, c, rfl, he, -⟩ := enc_cases hi h
    · exact (estateAfter_of_error (by simp) (by simp)).symm
    · exact (estateAfter_of_error (by simp) (by simp)).symm
    · exact he
  · rw [(exec_commandEnd h).enc hi, estateAfter_of_other_unit hi]

/-- Settles O26: outside its states the check refuses a command, and inside them none of its ends is InvalidState. -/
theorem encStateTable : Obligations.EncStateTable := by
  refine ⟨fun i s => exec_of_not_encRunsIn, fun i s t hi hf hr h => ?_, fun i s t => exec_estate⟩
  obtain ⟨hio, -⟩ | ⟨-, hno, -⟩ | ⟨-, -, u, v, c, rfl, -, -, -, hc, -⟩ := enc_cases hi h
  · exact absurd (hf.symm.trans hio) (by decide)
  · exact absurd (hr.symm.trans hno) (by decide)
  · exact hc

/-! ### ENC_ANALYZE (43_encoder R171, 42_tree_dictionary R140) -/

/-- TOTAL grows by the number of symbols counted, where it does not wrap (10_state R31). -/
theorem countSymbols_total_toNat {u : Enc} (h : u.total.toNat + x.length < 2 ^ 64) :
    (x.foldl Enc.countSymbol u).total.toNat = u.total.toNat + x.length := by
  rw [countSymbols_total, BitVec.toNat_add, BitVec.toNat_ofNat, Nat.add_mod_mod, Nat.mod_eq_of_lt h]

/-- At TOTAL_LIMIT the command is refused. -/
theorem encAnalyze_refused (hf : s.enc.iof = false) (he : s.enc.estate = .initial)
    (hl : 2 ^ 61 ≤ s.enc.total.toNat + s.input.length) : exec .encAnalyze s = .refused .totalLimit := by
  rw [exec, execEncAnalyze, encGuard_ok (legal := (· == .initial)) hf (beq_iff_eq.mpr he)]
  exact if_pos hl

/-- With every byte of IN transferred, all its symbols are counted. -/
theorem encAnalyze_ok (hf : s.enc.iof = false) (he : s.enc.estate = .initial)
    (hl : s.enc.total.toNat + s.input.length < 2 ^ 61) (hin : s.TransfersOk .input 0 s.input.length) :
    exec .encAnalyze s = .next
      (((s.withEnc (s.input.foldl Enc.countSymbol s.enc)).withRes (resWord (8 * s.input.length))).withCode .ok) :=
  execEncAnalyze_eq_next_iff.mpr
    (.inr (.inr ⟨hf, he, hl, .inl ⟨_, analyzeLoop_eq_ok_iff.mpr ⟨hin, rfl⟩, rfl⟩⟩))

/-- When the transfer of byte k is the first to fail, the k symbols before it are counted. -/
theorem encAnalyze_io {k : Nat} (hf : s.enc.iof = false) (he : s.enc.estate = .initial)
    (hl : s.enc.total.toNat + s.input.length < 2 ^ 61) (hk : k < s.input.length) (hin : s.TransfersOk .input 0 k)
    (hfail : s.answer .input k = .fail) :
    exec .encAnalyze s = .next
      ((s.withEnc ((s.input.take k).foldl Enc.countSymbol s.enc).withFault).withCode .io) :=
  execEncAnalyze_eq_next_iff.mpr (.inr (.inr ⟨hf, he, hl,
    .inr ⟨_, analyzeLoop_eq_io_iff.mpr ⟨k, hk, hin, by rwa [Nat.zero_add], rfl⟩, rfl⟩⟩))

/-- Settles O28: the loop counts the symbols whose transfers come before the first failing one. -/
theorem encAnalyze : Obligations.EncAnalyze := by
  refine fun s => ⟨exec_of_fault (i := .encAnalyze),
    fun hf hne => exec_of_not_encRunsIn rfl hf (beq_false_of_ne hne),
    encAnalyze_refused, fun hf he hl hin => ?_, fun hf he hl k hk hin hfail => ?_⟩
  · exact ⟨_, encAnalyze_ok hf he hl hin, countSymbols_frame _ _, countSymbols_freqOf _ _,
      countSymbols_total_toNat (by omega)⟩
  · have htake : (s.input.take k).length = k := List.length_take_of_le hk.le
    have htotal := countSymbols_total_toNat (u := s.enc) (x := s.input.take k) (by omega)
    rw [htake] at htotal
    exact ⟨_, encAnalyze_io hf he hl hk hin hfail, congrArg Enc.withFault (countSymbols_frame _ _),
      countSymbols_freqOf _ _, htotal⟩

/-! ### Bits written where every push is answered ok (41_bit_writer R131) -/

/-- With the pushes of the bytes they complete answered ok, the bits follow those the writer held. -/
theorem writeAll_of_transfersOk (hc : w.Clean)
    (hok : s.TransfersOk S w.sink.length ((w.cnt.val + bits.length) / 8)) :
    ∃ w', writeAll S (s.answer S) bits w = .ok w' ∧ w'.bits = w.bits ++ bits ∧ w'.Clean ∧ w.sink <+: w'.sink
      ∧ (w.pos.toNat + bits.length < 2 ^ 64 → w'.pos.toNat = w.pos.toNat + bits.length) := by
  have hpush : ∀ k, w.sink.length ≤ k → k < (w.bitCount + bits.length) / 8 → s.answer S k = .ok := by
    intro k hlo hhi
    obtain ⟨j, rfl⟩ := Nat.exists_eq_add_of_le hlo
    rw [Writer.bitCount] at hhi
    exact hok j (by omega)
  obtain ⟨w', hw⟩ := writeAll_completes S bits w hpush
  have hsink := writeAll_sink S (s.answer S) bits w
  rw [hw] at hsink
  obtain ⟨hclean, hbits, -⟩ := writeAll_ok_bits hw hc
  exact ⟨w', hw, hbits, hclean, hsink, writeAll_ok_pos hw hc⟩

/-! ### ENC_ANALYZE_FINISH (43_encoder R172, R173) -/

theorem codeTooLong_eq_false_iff (d : Vector (Option Code) 256) :
    codeTooLong d = false ↔ ∀ u ∈ dictEntries d, u.code.len.toNat ≤ 16 := by
  rw [← Bool.not_eq_true, codeTooLong_iff]
  simp only [not_exists, not_and, not_lt]

/-- Settles O29, by the length check and then by how writing the header ends. -/
theorem encAnalyzeFinish : Obligations.EncAnalyzeFinish := by
  refine fun s => ⟨exec_of_fault (i := .encAnalyzeFinish),
    fun hf hne => exec_of_not_encRunsIn rfl hf (beq_false_of_ne hne),
    fun hf he hlong => ?_, fun hf he hshort hc => ?_⟩
  · exact execEncAnalyzeFinish_eq_next_iff.mpr (.inr (.inr ⟨hf, he, .inl ⟨(codeTooLong_iff _).mpr hlong, rfl⟩⟩))
  · have hl := (codeTooLong_eq_false_iff _).mpr hshort
    simp only [Nat.add_assoc, ← length_headerBits]
    refine ⟨fun hok => ?_, fun k hk hok hfail => ?_⟩
    · obtain ⟨w, hw, hend⟩ := writeAll_of_transfersOk hc hok
      exact ⟨w, execEncAnalyzeFinish_eq_next_iff.mpr (.inr (.inr ⟨hf, he, .inr ⟨hl, .inl ⟨w, hw, rfl⟩⟩⟩)), hend⟩
    · obtain ⟨w, hw, hend⟩ := writeAll_fails .eSink _ s.enc.ew k hc hk hok hfail
      exact ⟨w, execEncAnalyzeFinish_eq_next_iff.mpr (.inr (.inr ⟨hf, he, .inr ⟨hl, .inr ⟨w, hw, rfl⟩⟩⟩)), hend⟩

/-! ### ENC_COMPRESS (43_encoder R174) -/

theorem bitsWritten_toNat {held n : Nat} (h : n < 2 ^ 64) : (bitsWritten held n).toNat = n := by
  rw [bitsWritten, if_pos h, BitVec.toNat_ofNat, Nat.mod_eq_of_lt h]

section

variable {askIn askSink : Nat → IoAnswer} {u : Enc} (hx : encodeBytes u.codeOf x = some bits)
  (hin : ∀ k < x.length, askIn (0 + k) = .ok) (hw : writeAll .eSink askSink bits u.ew = .ok w)
include hx hin hw

/-- A byte without a code ends the loop behind the codes of the bytes before it. -/
theorem compressLoop_unknownSymbol (hb : askIn x.length = .ok) (hcode : u.codeOf b = none) :
    compressLoop askIn askSink 0 (x ++ b :: y) u 0 = .unknownSymbol (u.withEw w) bits.length := by
  rw [compressLoop_append hx hin hw, Nat.zero_add, Nat.zero_add]
  simp only [compressLoop, transferAll, hb, codeOf_withEw, hcode]

/-- A byte whose transfer fails ends the loop behind the codes of the bytes before it. -/
theorem compressLoop_input_fails (hb : askIn x.length = .fail) :
    compressLoop askIn askSink 0 (x ++ b :: y) u 0 = .io (u.withEw w).withFault := by
  rw [compressLoop_append hx hin hw, Nat.zero_add]
  simp only [compressLoop, transferAll, hb]

end

/-- In Analyzed, the command ends as its loop does. -/
theorem encCompress_of_loop_ok {u : Enc} {n : Nat} (hf : s.enc.iof = false) (he : s.enc.estate = .analyzed)
    (h : compressLoop (s.answer .input) (s.answer .eSink) 0 s.input s.enc 0 = .ok u n) :
    exec .encCompress s = .next (((s.withEnc u).withRes (bitsWritten u.ew.bitCount n)).withCode .ok) :=
  execEncCompress_eq_next_iff.mpr (.inr (.inr ⟨hf, he, .inl ⟨u, n, h, rfl⟩⟩))

theorem encCompress_of_loop_unknownSymbol {u : Enc} {n : Nat} (hf : s.enc.iof = false)
    (he : s.enc.estate = .analyzed)
    (h : compressLoop (s.answer .input) (s.answer .eSink) 0 s.input s.enc 0 = .unknownSymbol u n) :
    exec .encCompress s =
      .next (((s.withEnc u).withRes (bitsWritten u.ew.bitCount n)).withCode .unknownSymbol) :=
  execEncCompress_eq_next_iff.mpr (.inr (.inr ⟨hf, he, .inr (.inl ⟨u, n, h, rfl⟩)⟩))

theorem encCompress_of_loop_io {u : Enc} (hf : s.enc.iof = false) (he : s.enc.estate = .analyzed)
    (h : compressLoop (s.answer .input) (s.answer .eSink) 0 s.input s.enc 0 = .io u) :
    exec .encCompress s = .next ((s.withEnc u).withCode .io) :=
  execEncCompress_eq_next_iff.mpr (.inr (.inr ⟨hf, he, .inr (.inr ⟨u, h, rfl⟩)⟩))

/-- Settles O38: the codes of the bytes before the first error are written, and the loop ends at that error. -/
theorem encCompress : Obligations.EncCompress := by
  refine fun s => ⟨exec_of_fault (i := .encCompress),
    fun hf hne => exec_of_not_encRunsIn rfl hf (beq_false_of_ne hne),
    fun hf he hc bits hbits hin hok => ?_, fun hf he hc x y bits hxy hx hin k hk hok hfail => ?_,
    fun hf he hc x b y bits hxy hx hin hok => ?_⟩
  · obtain ⟨w, hw, hwbits, hclean, hsink, hpos⟩ := writeAll_of_transfersOk hc hok
    have hloop := (compressLoop_eq_ok_iff (i := 0) (n := 0)).mpr ⟨bits, w, hbits, hin, hw, rfl, rfl⟩
    rw [Nat.zero_add] at hloop
    exact ⟨w, _, encCompress_of_loop_ok hf he hloop, hwbits, hclean, hsink, bitsWritten_toNat, hpos⟩
  · obtain ⟨w, hw, hend⟩ := writeAll_fails .eSink bits s.enc.ew k hc hk hok hfail
    have hloop := compressLoop_fails (i := 0) (n := 0) (y := y) hx hin hw
    rw [← hxy] at hloop
    exact ⟨w, encCompress_of_loop_io hf he hloop, hend⟩
  · obtain ⟨w, hw, hwbits, hclean, -, -⟩ := writeAll_of_transfersOk hc hok
    refine ⟨fun hb hcode => ?_, fun hb => ?_⟩
    · have hloop := compressLoop_unknownSymbol (y := y) hx hin hw hb hcode
      rw [← hxy] at hloop
      exact ⟨w, _, encCompress_of_loop_unknownSymbol hf he hloop, hwbits, hclean, bitsWritten_toNat⟩
    · have hloop := compressLoop_input_fails (b := b) (y := y) hx hin hw hb
      rw [← hxy] at hloop
      exact ⟨w, encCompress_of_loop_io hf he hloop, hwbits, hclean⟩

/-! ### The commands that flush, and the cursor (43_encoder R175, R176, R177) -/

theorem encFlush_ok (hw : flush .eSink (s.answer .eSink) s.enc.ew = .ok w) :
    encFlush e s = .next ((s.withEnc ((s.enc.withEw w).withEState e)).withCode .ok) :=
  encFlush_eq_next_iff.mpr (.inl ⟨w, hw, rfl⟩)

theorem encFlush_io (hw : flush .eSink (s.answer .eSink) s.enc.ew = .io w) :
    encFlush e s = .next ((s.withEnc (s.enc.withEw w).withFault).withCode .io) :=
  encFlush_eq_next_iff.mpr (.inr ⟨w, hw, rfl⟩)

/-- Settles O39: in the command's states, by the ending of the flush that CNT and the push's answer select. -/
theorem encFlushCommands : Obligations.EncFlushCommands := by
  intro i e hmem s
  obtain ⟨hi, hrun⟩ : unitOf i = .enc
      ∧ (s.enc.iof = false → encRunsIn i s.enc.estate = true → exec i s = encFlush e s) := by
    simp only [List.mem_cons, Prod.mk.injEq, List.not_mem_nil, or_false] at hmem
    obtain ⟨rfl, rfl⟩ | ⟨rfl, rfl⟩ := hmem <;> exact ⟨rfl, encGuard_ok⟩
  refine ⟨fun hf => exec_of_fault (by rwa [hi]), exec_of_not_encRunsIn hi, fun hf hr h0 => ?_,
    fun hf hr h0 hok => ?_, fun hf hr h0 hfail => ?_⟩
  · exact (hrun hf hr).trans (encFlush_ok (flush_of_cnt_zero h0))
  · exact ⟨_, (hrun hf hr).trans (encFlush_ok (flush_pushes h0 hok)), Writer.advance_toNat⟩
  · exact (hrun hf hr).trans (encFlush_io (flush_push_fails h0 hfail))

/-- Settles O40: no ESTATE refuses the command, only the fault does. -/
theorem encPosition : Obligations.EncPosition := fun _ => ⟨encGuardIo_fault, encGuardIo_ok⟩

end Sys2Proof.Machine
end

section
/-! Proofs for 44_decoder. First what the parse of a header ends in, by where its bits stand and how its bytes are
transferred. Then the loop of DEC_DECODE behind the codes of the symbols emitted so far: each of its ends is one more
step from there. Last, the round trip: the bits ENC writes are a header and the members' codes, so both commands find
theirs. -/

namespace Sys2Proof.Machine

section

variable {ask : Nat → IoAnswer} {source : List Byte} {r : Reader} {es : List (InvEntry × BitVec 8)} {s t : State}
  {u : List InvEntry}

/-! ### The parse of a header (44_decoder R202, R203) -/

theorem length_rawHeaderBits (es : List (InvEntry × BitVec 8)) : (rawHeaderBits es).length = 16 + 40 * es.length := by
  rw [rawHeaderBits, List.length_append, length_bitsMsb, List.length_flatMap]
  simp [rawEntryBits, length_bitsMsb]
  omega

/-- Behind bits that stand in a source shorter than 2^61 bytes the cursor is exact. -/
theorem BitsAt.pos_add_toNat {p : Pos} {bits : List Bool} (h : BitsAt source p.toNat bits)
    (hs : source.length < 2 ^ 61) : (p + BitVec.ofNat 64 bits.length).toNat = p.toNat + bits.length := by
  by_cases hne : bits = []
  · simp [hne]
  · exact Machine.pos_add_toNat (h.length_le hne) hs

/-- A header is its count and, behind it, its entries. -/
theorem BitsAt.rawHeader (h : BitsAt source r.pos.toNat (rawHeaderBits es)) (hs : source.length < 2 ^ 61) :
    BitsAt source r.pos.toNat (bitsMsb 16 es.length)
      ∧ (r.pos + BitVec.ofNat 64 16).toNat = r.pos.toNat + 16
      ∧ BitsAt source (r.pos + BitVec.ofNat 64 16).toNat (es.flatMap rawEntryBits) := by
  have hpos := h.left.pos_add_toNat hs
  have hentries := h.right
  rw [length_bitsMsb] at hpos hentries
  exact ⟨h.left, hpos, hpos.symm ▸ hentries⟩

/-- With every byte transferred, a whole header gives the map of its entries when they are consistent and their symbol
lengths are 1, and InvalidHeader otherwise. -/
theorem parseHeader_raw (hask : ∀ k, ask k = .ok) (hs : source.length < 2 ^ 61) (hn : es.length < 2 ^ 16)
    (h : BitsAt source r.pos.toNat (rawHeaderBits es)) :
    (ConsistentDict (es.map (·.1)) ∧ (∀ p ∈ es, p.2 = 1) →
      ∃ u, parseHeader ask source r = .ok u { r with pos := r.pos + BitVec.ofNat 64 (16 + 40 * es.length) }
        ∧ u.Perm (es.map (·.1)))
    ∧ (¬ (ConsistentDict (es.map (·.1)) ∧ ∀ p ∈ es, p.2 = 1) → ∃ r', parseHeader ask source r = .invalidHeader r') := by
  obtain ⟨hcount, -, hentries⟩ := h.rawHeader hs
  have hparse := parseEntries_raw hask hs es [] { r with pos := r.pos + BitVec.ofNat 64 16 } consistentDict_nil hentries
  rwa [BitVec.add_assoc, ← BitVec.ofNat_add,
    ← parseField_of_bits (rest := fun n => parseEntries ask source n []) (fun k _ => hask k) (by omega) hn hcount]
    at hparse

/-- The first byte of a consistent header that is not transferred ends the parse with Io (20_memory R56). -/
theorem parseHeader_io {q : Nat} (hs : source.length < 2 ^ 61) (hn : es.length < 2 ^ 16)
    (h : BitsAt source r.pos.toNat (rawHeaderBits es)) (hc : ConsistentDict (es.map (·.1))) (h1 : ∀ p ∈ es, p.2 = 1)
    (hlo : r.pos.toNat / 8 ≤ q) (hhi : q ≤ (r.pos.toNat + 15 + 40 * es.length) / 8)
    (hok : ∀ k, r.pos.toNat / 8 ≤ k → k < q → ask k = .ok) (hfail : ask q = .fail) :
    ∃ r', parseHeader ask source r = .io r' := by
  obtain ⟨hcount, hpos, hentries⟩ := h.rawHeader hs
  refine parseField_io (by omega) hn hcount hlo hok hfail fun hq => ?_
  refine parseEntries_io hs es [] { r with pos := r.pos + BitVec.ofNat 64 16 } consistentDict_nil hc h1 hentries q
    (by rwa [hpos]) (by rw [hpos]; omega) (fun k hk => hok k ?_) hfail
  rw [hpos] at hk
  omega

/-- A source that ends inside a header is InvalidHeader: in the count, or in the entries the count announces
(90_conflicts C5). -/
theorem parseHeader_truncated (hask : ∀ k, ask k = .ok) (hs : source.length < 2 ^ 61) (hn : es.length < 2 ^ 16)
    (hlen : 8 * source.length - r.pos.toNat < (rawHeaderBits es).length)
    (h : streamBits source r.pos.toNat (8 * source.length - r.pos.toNat) <+: rawHeaderBits es) :
    ∃ r', parseHeader ask source r = .invalidHeader r' := by
  rw [length_rawHeaderBits] at hlen
  by_cases h16 : 8 * source.length < r.pos.toNat + 16
  · exact ⟨r, parseField_short h16⟩
  · have hcount : BitsAt source r.pos.toNat (bitsMsb 16 es.length) := by
      refine ⟨.inr (by rw [length_bitsMsb]; omega), ?_⟩
      obtain ⟨n, hn⟩ : ∃ n, 8 * source.length - r.pos.toNat = 16 + n := Nat.exists_eq_add_of_le (by omega)
      obtain ⟨rest, hrest⟩ := h
      rw [hn, streamBits_append, List.append_assoc] at hrest
      rw [length_bitsMsb]
      exact (List.append_inj hrest (by rw [length_streamBits, length_bitsMsb])).1
    have hpos := hcount.pos_add_toNat hs
    rw [length_bitsMsb] at hpos
    rw [parseHeader, parseField_of_bits (fun k _ => hask k) (by omega) hn hcount]
    exact parseEntries_short hask hs es.length [] _ (by rw [hpos]; omega) (by rw [hpos]; omega)

/-! ### DEC_NEW (44_decoder R200, R201) -/

/-- DEC_NEW ends as the parse at ARG0 does. -/
theorem decNew_of_parse_ok (hf : s.dec.iof = false)
    (h : parseHeader (s.answer .dsrc) s.params.dsrc { pos := s.arg0, pb := [] } = .ok u r) :
    exec .decNew s = .next (((s.withDec (s.dec.construct u r)).withRes r.pos).withCode .ok) :=
  execDecNew_eq_next_iff.mpr (.inr ⟨hf, .inl ⟨u, r, h, rfl⟩⟩)

theorem decNew_of_parse_invalidHeader (hf : s.dec.iof = false)
    (h : parseHeader (s.answer .dsrc) s.params.dsrc { pos := s.arg0, pb := [] } = .invalidHeader r) :
    exec .decNew s = .next ((s.withDec (s.dec.discard r)).withCode .invalidHeader) :=
  execDecNew_eq_next_iff.mpr (.inr ⟨hf, .inr (.inl ⟨r, h, rfl⟩)⟩)

theorem decNew_of_parse_io (hf : s.dec.iof = false)
    (h : parseHeader (s.answer .dsrc) s.params.dsrc { pos := s.arg0, pb := [] } = .io r) :
    exec .decNew s = .next ((s.withDec (s.dec.discard r).withFault).withCode .io) :=
  execDecNew_eq_next_iff.mpr (.inr ⟨hf, .inr (.inr ⟨r, h, rfl⟩)⟩)

/-- The longest length of a consistent table fits in MAXLEN. -/
theorem toNat_ofNat_maxLenOf (hu : ConsistentDict u) : (BitVec.ofNat 5 (maxLenOf u)).toNat = maxLenOf u := by
  have hle := maxLenOf_le hu.1
  rw [BitVec.toNat_ofNat]
  exact Nat.mod_eq_of_lt (by omega)

/-- Settles O41: the parse of a whole header, by whether its entries are consistent and which byte fails. -/
theorem decNewParsesTheHeader : Obligations.DecNewParsesTheHeader := by
  intro s es hf hn hs h
  refine ⟨fun hask hc => ?_, fun hask hc => ?_, fun hc h1 q hlo hhi hok hfail => ?_⟩
  · obtain ⟨u, hparse, hperm⟩ := (parseHeader_raw (r := ⟨s.arg0, []⟩) hask hs hn h).1 hc
    have hmax := toNat_ofNat_maxLenOf (hc.1.perm hperm.symm)
    have hend := h.pos_add_toNat hs
    rw [length_rawHeaderBits, ← Nat.add_assoc] at hend
    have hmem : ∀ {x}, x ∈ u ↔ ∃ p ∈ es, p.1 = x := by
      intro x
      rw [hperm.mem_iff, List.mem_map]
    refine ⟨u, _, _, decNew_of_parse_ok hf hparse, hend, hperm, fun p hp => ?_, fun hnil => ?_, fun hne => ?_⟩
    · rw [hmax]
      exact le_maxLenOf (hmem.mpr ⟨p, hp, rfl⟩)
    · subst hnil
      rw [hperm.eq_nil]
      rfl
    · have hu : u ≠ [] := by
        rintro rfl
        exact hne (List.map_eq_nil_iff.mp hperm.symm.eq_nil)
      obtain ⟨x, hx, hlen⟩ := maxLenOf_attained hu
      obtain ⟨p, hp, rfl⟩ := hmem.mp hx
      exact ⟨p, hp, hlen.trans hmax.symm⟩
  · obtain ⟨r, hparse⟩ := (parseHeader_raw (r := ⟨s.arg0, []⟩) hask hs hn h).2 hc
    exact ⟨r, decNew_of_parse_invalidHeader hf hparse⟩
  · obtain ⟨r, hparse⟩ := parseHeader_io (r := ⟨s.arg0, []⟩) hs hn h hc h1 hlo hhi hok hfail
    exact ⟨r, decNew_of_parse_io hf hparse⟩

/-- Settles O42: the parse of a truncated header is InvalidHeader. -/
theorem decNewTruncatedHeader : Obligations.DecNewTruncatedHeader := by
  intro s es hf hn hs hask hlen h
  obtain ⟨r, hparse⟩ := parseHeader_truncated (r := ⟨s.arg0, []⟩) hask hs hn hlen h
  exact ⟨r, decNew_of_parse_invalidHeader hf hparse⟩

end

section

variable {ask askOut : Nat → IoAnswer} {source : List Byte} {s t : State} {d : Dec} {r : Reader} {k : Nat}
  {x : List Byte} {b : Byte} {bits rest : List Bool}

/-! ### The codes of bytes (30_encoding R91) -/

theorem encodeBytes_append_singleton {code : Byte → Option Code} (h : encodeBytes code (x ++ [b]) = some bits) :
    ∃ codes c, encodeBytes code x = some codes ∧ code b = some c ∧ bits = codes ++ codeBits c := by
  induction x generalizing bits with
  | nil =>
    obtain ⟨c, rest, hc, hrest, rfl⟩ := encodeBytes_cons_eq_some_iff.mp h
    cases hrest
    exact ⟨[], c, rfl, hc, by simp⟩
  | cons a x ih =>
    obtain ⟨ca, rest, ha, hrest, rfl⟩ := encodeBytes_cons_eq_some_iff.mp h
    obtain ⟨codes, c, hx, hc, rfl⟩ := ih hrest
    exact ⟨codeBits ca ++ codes, c, encodeBytes_cons_eq_some_iff.mpr ⟨ca, codes, ha, hx, rfl⟩, hc,
      (List.append_assoc _ _ _).symm⟩

/-! ### Bits of a source -/

theorem BitsAt.append {p : Nat} (hb : BitsAt source p bits) (hrest : BitsAt source (p + bits.length) rest) :
    BitsAt source p (bits ++ rest) := by
  refine ⟨?_, by rw [List.length_append, streamBits_append, hb.2, hrest.2]⟩
  rw [List.length_append, ← Nat.add_assoc]
  by_cases h : rest = []
  · subst h
    simpa using hb.1
  · exact .inr (hrest.length_le h)

/-- The first of the bits that are left stand in the source. -/
theorem bitsAt_of_prefix {p n : Nat} (h : bits <+: streamBits source p n) (hn : n ≤ 8 * source.length - p) :
    BitsAt source p bits := by
  have hlen := h.length_le
  rw [length_streamBits] at hlen
  obtain ⟨m, rfl⟩ := Nat.exists_eq_add_of_le hlen
  obtain ⟨c, hc⟩ := h
  rw [streamBits_append] at hc
  refine ⟨?_, (List.append_inj hc (length_streamBits ..).symm).1.symm⟩
  rw [← List.length_eq_zero_iff]
  omega

/-! ### The loop of DEC_DECODE behind the symbols emitted (44_decoder R204, R205) -/

theorem decodeLoop_of_match_io (h : matchSymbol ask source d.inv d.maxLen.toNat d.rd = .io r) :
    decodeLoop ask askOut source (k + 1) d = .io (d.withRd r).withFault := by
  simp only [decodeLoop, h]

theorem decodeLoop_of_match_corrupt (h : matchSymbol ask source d.inv d.maxLen.toNat d.rd = .corrupt r) :
    decodeLoop ask askOut source (k + 1) d = .corrupt (d.withRd r) := by
  simp only [decodeLoop, h]

theorem decodeLoop_of_match_push_fails (h : matchSymbol ask source d.inv d.maxLen.toNat d.rd = .ok b r)
    (hfail : askOut d.out.length = .fail) :
    decodeLoop ask askOut source (k + 1) d = .io (d.withRd r).withFault := by
  simp only [decodeLoop, h, transferAll, hfail]

section

variable (hs : source.length < 2 ^ 61) (hd : ConsistentDict d.inv) (hm : d.maxLen.toNat = maxLenOf d.inv)
  (hx : encodeBytes (codeIn d.inv) x = some bits) (hb : BitsAt source d.rd.pos.toNat bits)
  (hask : ∀ j < bits.length, ask ((d.rd.pos.toNat + j) / 8) = .ok)
  (hout : ∀ j < x.length, askOut (d.out.length + j) = .ok)
include hs hd hm hx hb hask hout

/-- One more code is read, and the push of its byte fails. -/
theorem decodeLoop_push_fails {c : Code} (hc : codeIn d.inv b = some c)
    (hcode : BitsAt source (d.rd.pos.toNat + bits.length) (codeBits c))
    (hask' : ∀ j < (codeBits c).length, ask ((d.rd.pos.toNat + bits.length + j) / 8) = .ok)
    (hfail : askOut (d.out.length + x.length) = .fail) :
    ∃ r, decodeLoop ask askOut source (x.length + k + 1) d =
      .io ((d.emitted x bits.length).withRd r).withFault := by
  have hpos : (d.emitted x bits.length).rd.pos.toNat = _ := hb.pos_add_toNat hs
  rw [← hpos] at hcode hask'
  rw [length_codeBits] at hask'
  have hmatch := matchSymbol_finds hd hs ((codeIn_eq_some_iff hd).mp hc) hcode hask'
  rw [← hm] at hmatch
  rw [← List.length_append] at hfail
  rw [Nat.add_assoc, decodeLoop_emits hs bits (k + 1) d hd hm hx hb hask hout]
  exact ⟨_, decodeLoop_of_match_push_fails hmatch hfail⟩

/-- The next symbol's match ends with a failing transfer. -/
theorem decodeLoop_read_fails (hrest : BitsAt source (d.rd.pos.toNat + bits.length) rest)
    (hask' : ∀ j < rest.length, ask ((d.rd.pos.toNat + bits.length + j) / 8) = .ok)
    (hlen : rest.length < maxLenOf d.inv) (hnone : ∀ e ∈ d.inv, ¬ codeBits e.code <+: rest)
    (hin : d.rd.pos.toNat + bits.length + rest.length < 8 * source.length)
    (hfail : ask ((d.rd.pos.toNat + bits.length + rest.length) / 8) = .fail) :
    ∃ r, decodeLoop ask askOut source (x.length + k + 1) d =
      .io ((d.emitted x bits.length).withRd r).withFault := by
  have hpos : (d.emitted x bits.length).rd.pos.toNat = _ := hb.pos_add_toNat hs
  rw [← hpos] at hrest hask' hin hfail
  have hmatch := matchSymbol_io hd hs hlen hrest hin hask' hfail hnone
  rw [← hm] at hmatch
  rw [Nat.add_assoc, decodeLoop_emits hs bits (k + 1) d hd hm hx hb hask hout]
  exact ⟨_, decodeLoop_of_match_io hmatch⟩

/-- No code begins the bits that are left, at most MAXLEN of them: they are read. -/
theorem decodeLoop_no_match (hok : ∀ k, ask k = .ok) {n : Nat}
    (hn : n = min (8 * source.length - (d.rd.pos.toNat + bits.length)) d.maxLen.toNat)
    (hnone : ∀ e ∈ d.inv, ¬ codeBits e.code <+: streamBits source (d.rd.pos.toNat + bits.length) n) :
    decodeLoop ask askOut source (x.length + k + 1) d = .corrupt (d.emitted x (bits.length + n)) := by
  have hpos : (d.emitted x bits.length).rd.pos.toNat = _ := hb.pos_add_toNat hs
  subst hn
  rw [← hpos, hm] at hnone
  have hmatch := matchSymbol_fails hd hok hs hnone
  rw [← hm, hpos] at hmatch
  rw [Nat.add_assoc, decodeLoop_emits hs bits (k + 1) d hd hm hx hb hask hout, decodeLoop_of_match_corrupt hmatch]
  simp only [Dec.withRd, Dec.emitted, BitVec.add_assoc, BitVec.ofNat_add]

end

/-- With every transfer of DSRC and OUT answered ok, a loop that ends in CorruptStream emitted the symbols whose codes
stand at the cursor, and no code begins the bits behind them. -/
theorem codes_of_decodeLoop_corrupt (hask : ∀ k, ask k = .ok) (hout : ∀ k, askOut k = .ok)
    (hs : source.length < 2 ^ 61) {d' : Dec} (hd : ConsistentDict d.inv) (hm : d.maxLen.toNat = maxLenOf d.inv)
    (h : decodeLoop ask askOut source k d = .corrupt d') :
    ∃ x bits, x.length < k ∧ encodeBytes (codeIn d.inv) x = some bits ∧ BitsAt source d.rd.pos.toNat bits
      ∧ ∀ e ∈ d.inv, ¬ codeBits e.code <+: streamBits source (d.rd.pos.toNat + bits.length)
          (min (8 * source.length - (d.rd.pos.toNat + bits.length)) d.maxLen.toNat) := by
  induction k generalizing d with
  | zero => cases h
  | succ k ih =>
    by_cases hnone : ∀ e ∈ d.inv, ¬ codeBits e.code <+:
        streamBits source d.rd.pos.toNat (min (8 * source.length - d.rd.pos.toNat) d.maxLen.toNat)
    · exact ⟨[], [], Nat.succ_pos k, rfl, ⟨.inl rfl, rfl⟩, hnone⟩
    · push Not at hnone
      obtain ⟨e, he, hcode⟩ := hnone
      have hbits := bitsAt_of_prefix hcode (min_le_left _ _)
      have hsym : encodeBytes (codeIn d.inv) [e.sym] = some (codeBits e.code) :=
        encodeBytes_cons_eq_some_iff.mpr
          ⟨_, [], (codeIn_eq_some_iff hd).mpr he, rfl, (List.append_nil _).symm⟩
      have hpos : (d.emitted [e.sym] (codeBits e.code).length).rd.pos.toNat = _ := hbits.pos_add_toNat hs
      rw [Nat.add_comm, show 1 = [e.sym].length from rfl, decodeLoop_emits hs _ k d hd hm hsym hbits (fun _ _ => hask _)
        fun _ _ => hout _] at h
      obtain ⟨x, bits, hlen, hx, hxbits, hrest⟩ := ih (by exact hd) (by exact hm) h
      rw [hpos] at hxbits
      rw [hpos, Nat.add_assoc, ← List.length_append] at hrest
      exact ⟨[e.sym] ++ x, codeBits e.code ++ bits, by simpa using hlen, encodeBytes_append hsym hx,
        hbits.append hxbits, hrest⟩

/-! ### DEC_DECODE (44_decoder R204) -/

/-- The end of DEC_DECODE, by the end of its loop. -/
def State.decodeEnd (s : State) : DecodeRes → Result
  | .ok d => .next (((s.withDec d).withRes (d.rd.pos - s.arg0)).withCode .ok)
  | .corrupt d => .next (((s.withDec d).withRes (d.rd.pos - s.arg0)).withCode .corruptStream)
  | .io d => .next ((s.withDec d).withCode .io)
  | .stuck S i => .fault (.transferNeverAnswers S i)

/-- For a length that is not 0 the command is its loop. -/
theorem decDecode_eq_decodeEnd (hf : s.dec.iof = false) (hr : s.dec.dstate = .ready) (h0 : s.arg1 ≠ 0) :
    exec .decDecode s =
      s.decodeEnd (decodeLoop (s.answer .dsrc) (s.answer .out) s.params.dsrc (s.arg1.toNat / 8) s.decAtArg0) := by
  have hstart : s.dec.withRd (s.dec.rd.setPosition s.arg0) = s.decAtArg0 := rfl
  rw [exec, execDecDecode, decGuard_ok hf, if_pos hr, if_neg h0, hstart, bytesOwed]
  cases decodeLoop (s.answer .dsrc) (s.answer .out) s.params.dsrc (s.arg1.toNat / 8) s.decAtArg0 <;> rfl

/-- Settles O45: the length is checked before the seek. -/
theorem decDecodeZeroLength : Obligations.DecDecodeZeroLength :=
  fun _ hf hr h0 => execDecDecode_eq_next_iff.mpr (.inr (.inr (.inl ⟨hf, hr, h0, rfl⟩)))

/-- RES counts the bits DR moved over. -/
theorem pos_add_sub (p : Pos) (n : Nat) : p + BitVec.ofNat 64 n - p = BitVec.ofNat 64 n := by
  rw [BitVec.add_comm, BitVec.add_sub_cancel]

/-- Settles O44: the loop emits x, and its next step is the end, the failing push or the failing read. -/
theorem decDecodeEmitsTheSymbols : Obligations.DecDecodeEmitsTheSymbols := by
  intro s bits hf hr h0 hd hm hs hb hask
  rw [decDecode_eq_decodeEnd hf hr h0]
  refine ⟨fun x hx hcodes hout => ?_, fun x b hx hcodes hout hfail => ?_,
    fun x codes rest hx hcodes hbits hlen hnone hout hin hfail => ?_⟩
  · have hloop := decodeLoop_emits hs bits 0 s.decAtArg0 hd hm hcodes hb hask hout
    rw [Nat.add_zero, hx] at hloop
    rw [hloop, decodeLoop, State.decodeEnd,
      show (s.decAtArg0.emitted x bits.length).rd.pos - s.arg0 = _ from pos_add_sub s.arg0 _]
    rfl
  · obtain ⟨codes, c, hcx, hcb, rfl⟩ := encodeBytes_append_singleton hcodes
    obtain ⟨k, hk⟩ := Nat.exists_eq_add_of_lt hx
    rw [List.length_append] at hask
    obtain ⟨r, hloop⟩ := decodeLoop_push_fails (k := k) (askOut := s.answer .out) hs (d := s.decAtArg0) hd hm hcx
      hb.left (fun j hj => hask j (by omega)) hout hcb hb.right
      (fun j hj => by rw [Nat.add_assoc]; exact hask _ (by omega)) hfail
    rw [hk, hloop]
    exact ⟨r, rfl⟩
  · subst hbits
    obtain ⟨k, hk⟩ := Nat.exists_eq_add_of_lt hx
    rw [List.length_append] at hask
    rw [List.length_append, ← Nat.add_assoc] at hin hfail
    obtain ⟨r, hloop⟩ := decodeLoop_read_fails (k := k) (askOut := s.answer .out) hs (d := s.decAtArg0) hd hm hcodes
      hb.left (fun j hj => hask j (by omega)) hout hb.right
      (fun j hj => by rw [Nat.add_assoc]; exact hask _ (by omega)) (hm ▸ hlen) hnone hin hfail
    rw [hk, hloop]
    exact ⟨r, rfl⟩

/-- Settles O46: a loop that ends in CorruptStream emitted codes and met bits no code begins, and from such bits the
command has only one end. -/
theorem decDecodeCorruptStream : Obligations.DecDecodeCorruptStream := by
  intro s hf hr h0 hd hm hs hask hout t
  have corrupt : ∀ {x bits rest}, x.length < s.arg1.toNat / 8 → encodeBytes (codeIn s.dec.inv) x = some bits →
      BitsAt s.params.dsrc s.arg0.toNat bits →
      rest = streamBits s.params.dsrc (s.arg0.toNat + bits.length)
        (min (8 * s.params.dsrc.length - (s.arg0.toNat + bits.length)) s.dec.maxLen.toNat) →
      (∀ e ∈ s.dec.inv, ¬ codeBits e.code <+: rest) →
      exec .decDecode s = .next (((s.withDec (s.decAtArg0.emitted x (bits.length + rest.length))).withRes
        (BitVec.ofNat 64 (bits.length + rest.length))).withCode .corruptStream) := by
    intro x bits rest hx hcodes hb hrest hnone
    obtain ⟨k, hk⟩ := Nat.exists_eq_add_of_lt hx
    have hn := congrArg List.length hrest
    rw [length_streamBits] at hn
    rw [← hn] at hrest
    rw [decDecode_eq_decodeEnd hf hr h0, hk, decodeLoop_no_match (d := s.decAtArg0) hs hd hm hcodes hb
      (fun _ _ => hask _) (fun _ _ => hout _) hask hn (hrest ▸ hnone), ← pos_add_sub s.arg0]
    rfl
  constructor
  · rintro ⟨h, hcode⟩
    have hend := h
    rw [decDecode_eq_decodeEnd hf hr h0] at hend
    cases hloop : decodeLoop (s.answer .dsrc) (s.answer .out) s.params.dsrc (s.arg1.toNat / 8) s.decAtArg0 with
    | corrupt d =>
      obtain ⟨x, bits, hx, hcodes, hb, hnone⟩ :=
        codes_of_decodeLoop_corrupt (d := s.decAtArg0) hask hout hs hd hm hloop
      exact ⟨x, bits, _, hx, hcodes, hb, rfl, hnone,
        Host.Outcome.next.inj (h.symm.trans (corrupt hx hcodes hb rfl hnone))⟩
    | ok d => rw [hloop] at hend; cases hend; cases hcode
    | io d => rw [hloop] at hend; cases hend; cases hcode
    | stuck S i => rw [hloop] at hend; cases hend
  · rintro ⟨x, bits, rest, hx, hcodes, hb, hrest, hnone, rfl⟩
    exact ⟨corrupt hx hcodes hb hrest hnone, rfl⟩

end

section

variable {s t : State}

/-! ### DSTATE (44_decoder R200) -/

/-- Settles O43, by the ends of the parse and of the commands of DEC. -/
theorem decStateTransitions : Obligations.DecStateTransitions := by
  refine ⟨fun s t hf h => ?_, fun s t h => ?_, fun s hf hd => ?_⟩
  · obtain ⟨hio, -⟩ | ⟨-, ⟨u, r, -, rfl⟩ | ⟨r, -, rfl⟩ | ⟨r, -, rfl⟩⟩ := execDecNew_eq_next_iff.mp h
    · exact absurd (hf.symm.trans hio) (by decide)
    · exact .inl ⟨rfl, rfl, hf⟩
    · exact .inr (.inl ⟨rfl, rfl, rfl, rfl, hf, rfl, rfl⟩)
    · exact .inr (.inr ⟨rfl, rfl, rfl, rfl, rfl, rfl, rfl⟩)
  · obtain ⟨-, rfl⟩ | ⟨-, -, -, rfl⟩ | ⟨-, d, v, c, rfl, -, -, -, -, -, -, hdecode, -⟩ := dec_cases rfl h
    · exact ⟨rfl, rfl, rfl⟩
    · exact ⟨rfl, rfl, rfl⟩
    · exact hdecode rfl
  · exact execDecDecode_eq_next_iff.mpr (.inr (.inl ⟨hf, by simp [hd], rfl⟩))

end

section

variable {ask askOut askOut' : Nat → IoAnswer} {source : List Byte} {s t : State} {d d' : Dec} {r : Reader} {k : Nat}
  {b : Byte} {a a' : DecodeRes}

/-! ### Members decode independently (44_decoder R208) -/

/-- Two ends of the loop are the same but for what DEC held before it: the same bytes follow those in OUT, and DR is
the same. -/
inductive SameDecode (d d' : Dec) : DecodeRes → DecodeRes → Prop
  | ok (r : Reader) (x : List Byte) :
    SameDecode d d' (.ok { d with rd := r, out := d.out ++ x }) (.ok { d' with rd := r, out := d'.out ++ x })
  | corrupt (r : Reader) (x : List Byte) :
    SameDecode d d' (.corrupt { d with rd := r, out := d.out ++ x })
      (.corrupt { d' with rd := r, out := d'.out ++ x })
  | io (r : Reader) (x : List Byte) :
    SameDecode d d' (.io { d with rd := r, out := d.out ++ x, iof := true })
      (.io { d' with rd := r, out := d'.out ++ x, iof := true })
  | stuck (i : Nat) : SameDecode d d' (.stuck .dsrc i) (.stuck .dsrc i)

/-- A byte emitted before the ends is one of the bytes they append. -/
theorem SameDecode.of_emit (h : SameDecode ((d.withRd r).emit b) ((d'.withRd r).emit b) a a') :
    SameDecode d d' a a' := by
  cases h with
  | ok r x => simpa [Dec.emit, Dec.withRd] using SameDecode.ok (d := d) (d' := d') r (b :: x)
  | corrupt r x => simpa [Dec.emit, Dec.withRd] using SameDecode.corrupt (d := d) (d' := d') r (b :: x)
  | io r x => simpa [Dec.emit, Dec.withRd] using SameDecode.io (d := d) (d' := d') r (b :: x)
  | stuck i => exact .stuck i

/-- The loop depends on INV, MAXLEN and DR alone, where every push is answered ok. -/
theorem decodeLoop_same (hout : ∀ k, askOut k = .ok) (hout' : ∀ k, askOut' k = .ok) (hrd : d.rd = d'.rd)
    (hinv : d.inv = d'.inv) (hmax : d.maxLen = d'.maxLen) :
    SameDecode d d' (decodeLoop ask askOut source k d) (decodeLoop ask askOut' source k d') := by
  induction k generalizing d d' with
  | zero =>
    have h := SameDecode.ok (d := d) (d' := d') d.rd []
    rw [List.append_nil, List.append_nil, show ({ d' with rd := d.rd } : Dec) = d' by rw [hrd]] at h
    exact h
  | succ k ih =>
    simp only [decodeLoop, hrd, hinv, hmax, transferAll, hout, hout']
    cases matchSymbol ask source d'.inv d'.maxLen.toNat d'.rd with
    | ok b r => exact .of_emit (ih rfl hinv hmax)
    | corrupt r => simpa [Dec.withRd] using SameDecode.corrupt (d := d) (d' := d') r []
    | io r => simpa [Dec.withRd, Dec.withFault] using SameDecode.io (d := d) (d' := d') r []
    | stuck i => exact .stuck i

/-- Settles O47: the loops of the two machines have the same end. -/
theorem membersDecodeIndependently : Obligations.MembersDecodeIndependently := by
  intro s s' t t' hf hf' hstate hinv hmax hsrc harg0 harg1 hask hout hout' h h'
  have hloop : SameDecode s.decAtArg0 s'.decAtArg0
      (decodeLoop (s.answer .dsrc) (s.answer .out) s.params.dsrc (s.arg1.toNat / 8) s.decAtArg0)
      (decodeLoop (s'.answer .dsrc) (s'.answer .out) s'.params.dsrc (s'.arg1.toNat / 8) s'.decAtArg0) := by
    rw [funext hask, hsrc, harg1]
    exact decodeLoop_same hout hout' (by simp only [State.decAtArg0, harg0]) hinv hmax
  cases hr : s.dec.dstate with
  | unconstructed =>
    obtain ⟨-, -, hinvalid⟩ := decStateTransitions
    rw [hinvalid s hf hr] at h
    rw [hinvalid s' hf' (hstate ▸ hr)] at h'
    cases h
    cases h'
    exact ⟨rfl, ⟨[], by simp⟩, by rintro (h | h) <;> cases h⟩
  | ready =>
    by_cases h0 : s.arg1 = 0
    · rw [decDecodeZeroLength s hf hr h0] at h
      rw [decDecodeZeroLength s' hf' (hstate ▸ hr) (harg1 ▸ h0)] at h'
      cases h
      cases h'
      exact ⟨rfl, ⟨[], by simp⟩, fun _ => rfl⟩
    · rw [decDecode_eq_decodeEnd hf hr h0] at h
      rw [decDecode_eq_decodeEnd hf' (hstate ▸ hr) (harg1 ▸ h0)] at h'
      generalize decodeLoop (s.answer .dsrc) (s.answer .out) s.params.dsrc (s.arg1.toNat / 8) s.decAtArg0 = a at *
      generalize decodeLoop (s'.answer .dsrc) (s'.answer .out) s'.params.dsrc (s'.arg1.toNat / 8) s'.decAtArg0 = a' at *
      cases hloop with
      | ok r x =>
        cases h
        cases h'
        exact ⟨rfl, ⟨x, rfl, rfl⟩, fun _ => congrArg (r.pos - ·) harg0⟩
      | corrupt r x =>
        cases h
        cases h'
        exact ⟨rfl, ⟨x, rfl, rfl⟩, fun _ => congrArg (r.pos - ·) harg0⟩
      | io r x =>
        cases h
        cases h'
        exact ⟨rfl, ⟨x, rfl, rfl⟩, by rintro (h | h) <;> cases h⟩
      | stuck i => cases h

end

section

variable {s t u : State} {x : List Byte} {bits bits' : List Bool} {S : Stream} {ask : Nat → IoAnswer} {w : Writer}
  {base : Pos} {es inv : List InvEntry}

/-! ### What ENC writes (43_encoder R172, R174, R175) -/

theorem answer_eq_of_params (h : t.params = s.params) (hS : S ≠ .input) : t.answer S = s.answer S := by
  funext k
  cases S with
  | input => exact absurd rfl hS
  | _ => simp only [State.answer, h]

/-- A writer that held nothing holds the bits written, and its cursor counts them where that fits in 64 bits. -/
theorem writeAll_reset (h : writeAll S ask bits (Writer.reset base) = .ok w) :
    w.Clean ∧ w.bits = bits ∧ (base.toNat + bits.length < 2 ^ 64 → w.pos.toNat = base.toNat + bits.length) := by
  obtain ⟨hclean, -⟩ := Writer.inv_reset base
  obtain ⟨hc, hbits, -⟩ := writeAll_ok_bits h hclean
  exact ⟨hc, hbits, writeAll_ok_pos h hclean⟩

theorem writeAll_append_ok {w' w'' : Writer} (h : writeAll S ask bits w = .ok w')
    (h' : writeAll S ask bits' w' = .ok w'') : writeAll S ask (bits ++ bits') w = .ok w'' := by
  rw [writeAll_append, h]
  exact h'

/-- From s to t ENC wrote the bits and changed nothing of the unit but EW. -/
structure State.Wrote (s : State) (bits : List Bool) (t : State) : Prop where
  params : t.params = s.params
  frame : t.enc = s.enc.withEw t.enc.ew
  writes : writeAll .eSink (s.answer .eSink) bits s.enc.ew = .ok t.enc.ew

theorem State.Wrote.refl (s : State) : s.Wrote [] s := ⟨rfl, rfl, rfl⟩

theorem State.Wrote.answer (h : s.Wrote bits t) : t.answer .eSink = s.answer .eSink :=
  answer_eq_of_params h.params (by decide)

theorem State.Wrote.trans (h : s.Wrote bits t) (h' : t.Wrote bits' u) : s.Wrote (bits ++ bits') u where
  params := h'.params.trans h.params
  frame := by rw [h'.frame, h.frame]; rfl
  writes := writeAll_append_ok h.writes (h.answer ▸ h'.writes)

/-- ENC_ANALYZE_FINISH that ends with OK wrote the header of the code it built. -/
theorem encAnalyzeFinish_writes_header (h : exec .encAnalyzeFinish s = .next t) (hok : t.code = .ok) :
    codeTooLong s.enc.buildCode.dict = false
      ∧ writeAll .eSink (s.answer .eSink) (headerBits (dictEntries s.enc.buildCode.dict)) s.enc.ew = .ok t.enc.ew
      ∧ t.params = s.params ∧ t.enc = s.enc.buildCode.analyzed t.enc.ew ∧ t.res = t.enc.ew.pos := by
  obtain ⟨-, rfl⟩ | ⟨-, -, rfl⟩ | ⟨-, -, ⟨-, rfl⟩ | ⟨hl, ⟨w, hw, rfl⟩ | ⟨w, -, rfl⟩⟩⟩ :=
    execEncAnalyzeFinish_eq_next_iff.mp h
  · cases hok
  · cases hok
  · cases hok
  · exact ⟨hl, hw, rfl, rfl, rfl⟩
  · cases hok

/-- ENC_COMPRESS that ends with OK wrote the codes of its bytes, and RES is the number of their bits. -/
theorem encCompress_wrote (h : exec .encCompress { s with input := x, inputIo := [] } = .next t)
    (hok : t.code = .ok) : ∃ bits, encodeBytes s.enc.codeOf x = some bits ∧ s.Wrote bits t
      ∧ t.res = bitsWritten t.enc.ew.bitCount bits.length := by
  obtain ⟨-, rfl⟩ | ⟨-, -, rfl⟩ | ⟨-, -, ⟨e, n, he, rfl⟩ | ⟨e, n, -, rfl⟩ | ⟨e, -, rfl⟩⟩ :=
    execEncCompress_eq_next_iff.mp h
  · cases hok
  · cases hok
  · obtain ⟨bits, w, hbits, -, hw, rfl, rfl⟩ := compressLoop_eq_ok_iff.mp he
    exact ⟨bits, hbits, ⟨rfl, rfl, hw⟩, by rw [Nat.zero_add]; rfl⟩
  · cases hok
  · cases hok

/-- In Analyzed, with every push answered ok, ENC_COMPRESS of bytes that have codes ends with OK. -/
theorem encCompress_code_ok (hf : s.enc.iof = false) (he : s.enc.estate = .analyzed)
    (hcodes : ∀ b ∈ x, (s.enc.codeOf b).isSome = true) (hok : ∀ k, s.answer .eSink k = .ok)
    (h : exec .encCompress { s with input := x, inputIo := [] } = .next t) : t.code = .ok := by
  obtain ⟨bits, hbits⟩ := Option.isSome_iff_exists.mp (encodeBytes_isSome_iff.mpr hcodes)
  obtain ⟨w, hw⟩ := writeAll_completes .eSink bits s.enc.ew fun k _ _ => hok k
  have hend := encCompress_of_loop_ok (s := { s with input := x, inputIo := [] }) hf he
    (compressLoop_eq_ok_iff.mpr ⟨bits, w, hbits, fun _ _ => rfl, hw, rfl, rfl⟩)
  cases h.symm.trans hend
  rfl

/-- Members compressed with OK wrote some bits, one after another. -/
theorem compressMembers_wrote {xs : List (List Byte)} (h : compressMembers xs s = some t) :
    ∃ bits, s.Wrote bits t := by
  induction xs generalizing s with
  | nil => cases h; exact ⟨[], .refl _⟩
  | cons x xs ih =>
    rw [compressMembers] at h
    split at h
    next v hv =>
      split at h
      next hok =>
        obtain ⟨bits, -, hwrote, -⟩ := encCompress_wrote hv hok
        obtain ⟨bits', hwrote'⟩ := ih h
        exact ⟨bits ++ bits', hwrote.trans hwrote'⟩
      next => cases h
    next => cases h

/-- ENC_COMPRESS_FINISH, its push answered ok, leaves the bits EW held in the sink, with padding behind them. -/
theorem encCompressFinish_sink (hf : s.enc.iof = false) (he : s.enc.estate = .analyzed) (hc : s.enc.ew.Clean)
    (hok : ∀ k, s.answer .eSink k = .ok) (h : exec .encCompressFinish s = .next t) :
    ∃ pad, allBits t.enc.ew.sink = s.enc.ew.bits ++ pad := by
  rw [exec, execEncCompressFinish, encGuard_ok (legal := (· == .analyzed)) hf (beq_iff_eq.mpr he),
    encFlush_eq_next_iff] at h
  obtain ⟨w, hw, rfl⟩ | ⟨w, hw, -⟩ := h
  · obtain ⟨-, hcnt, hbits⟩ := flush_ok_bits hw hc
    exact ⟨_, (Writer.bits_of_cnt_zero hcnt).symm.trans hbits⟩
  · obtain ⟨-, e⟩ | ⟨-, -, e⟩ | ⟨-, hfail, -⟩ | ⟨-, -, e⟩ := flush_cases .eSink (s.answer .eSink) s.enc.ew
    · rw [e] at hw; cases hw
    · rw [e] at hw; cases hw
    · rw [hok] at hfail; cases hfail
    · rw [e] at hw; cases hw

/-! ### What DEC reads back (44_decoder R201, R204) -/

/-- DEC_NEW at a header of consistent entries constructs their map. -/
theorem decNew_of_header (hf : s.dec.iof = false) (hask : ∀ k, s.answer .dsrc k = .ok)
    (hs : s.params.dsrc.length < 2 ^ 61) (hd : ConsistentDict es)
    (h : BitsAt s.params.dsrc s.arg0.toNat (headerBits es)) :
    ∃ inv v, exec .decNew s = .next (((s.withDec (s.dec.construct inv ⟨v, []⟩)).withRes v).withCode .ok)
      ∧ inv.Perm es ∧ v.toNat = s.arg0.toNat + (headerBits es).length := by
  have hv := h.pos_add_toNat hs
  have hlen := hd.length_le
  rw [length_headerBits] at hv ⊢
  rw [headerBits_eq_raw] at h
  have hfst : (es.map fun e => (e, (1 : BitVec 8))).map (·.1) = es := by simp [Function.comp_def]
  obtain ⟨hparse, -⟩ := parseHeader_raw (r := ⟨s.arg0, []⟩) hask hs (by rw [List.length_map]; omega) h
  rw [hfst, List.length_map] at hparse
  obtain ⟨inv, hinv, hperm⟩ := hparse ⟨hd, by simp⟩
  exact ⟨inv, _, decNew_of_parse_ok hf hinv, hperm, hv⟩

/-- A symbol's code does not depend on the order of a consistent dictionary's entries. -/
theorem codeIn_perm (hd : ConsistentDict es) (hp : inv.Perm es) : codeIn inv = codeIn es := by
  funext b
  refine Option.ext fun c => ?_
  rw [codeIn_eq_some_iff (hd.perm hp.symm), codeIn_eq_some_iff hd, hp.mem_iff]

/-- DEC_DECODE where the codes of x stand emits x and counts their bits, an empty x included. -/
theorem decDecode_of_codes (hf : s.dec.iof = false) (hr : s.dec.dstate = .ready) (hd : ConsistentDict s.dec.inv)
    (hm : s.dec.maxLen.toNat = maxLenOf s.dec.inv) (hs : s.params.dsrc.length < 2 ^ 61)
    (hask : ∀ k, s.answer .dsrc k = .ok) (hout : ∀ k, s.answer .out k = .ok)
    (hx : encodeBytes (codeIn s.dec.inv) x = some bits) (hb : BitsAt s.params.dsrc s.arg0.toNat bits)
    (hlen : s.arg1.toNat = 8 * x.length) :
    ∃ t, exec .decDecode s = .next t ∧ t.code = .ok ∧ t.dec.out = s.dec.out ++ x
      ∧ t.res = BitVec.ofNat 64 bits.length := by
  by_cases h0 : s.arg1 = 0
  · have hnil : x = [] := by
      rw [h0] at hlen
      exact List.eq_nil_of_length_eq_zero (by simpa using hlen.symm)
    subst hnil
    cases hx
    exact ⟨_, decDecodeZeroLength s hf hr h0, rfl, (List.append_nil _).symm, rfl⟩
  · obtain ⟨hemit, -, -⟩ := decDecodeEmitsTheSymbols s bits hf hr h0 hd hm hs hb fun _ _ => hask _
    exact ⟨_, hemit x (by omega) hx fun _ _ => hout _, rfl, rfl, rfl⟩

/-- Where DSRC holds a header and, behind it, the codes of x, DEC_NEW at the header and then DEC_DECODE at the codes
give x back. -/
theorem decodes_archive {lead pre rest : List Bool} (hf : s.dec.iof = false) (hok : s.AllTransfersOk)
    (hs : s.params.dsrc.length < 2 ^ 61) (hd : ConsistentDict es) (hx : encodeBytes (codeIn es) x = some bits)
    (hbits : allBits s.params.dsrc = lead ++ (headerBits es ++ (pre ++ (bits ++ rest))))
    (hlead : lead.length = s.arg0.toNat) :
    ∃ t, exec .decNew s = .next t ∧ t.code = .ok ∧ t.res.toNat = s.arg0.toNat + (headerBits es).length
      ∧ ∀ f : State, f.dec = t.dec → f.params = t.params →
          f.arg0.toNat = s.arg0.toNat + (headerBits es).length + pre.length → f.arg1.toNat = 8 * x.length →
          ∃ g, exec .decDecode f = .next g ∧ g.code = .ok ∧ g.dec.out = f.dec.out ++ x
            ∧ g.res = BitVec.ofNat 64 bits.length := by
  obtain ⟨inv, v, ht, hperm, hv⟩ := decNew_of_header hf (hok .dsrc) hs hd (hlead ▸ bitsAt_of_allBits_eq hbits)
  have hinv := hd.perm hperm.symm
  refine ⟨_, ht, rfl, hv, fun f hdec hpar harg0 harg1 => ?_⟩
  replace hpar : f.params = s.params := hpar
  have hanswer : ∀ S, S ≠ .input → ∀ k, f.answer S k = .ok := fun S hS k => by
    rw [answer_eq_of_params hpar hS]
    exact hok S k
  have hat : BitsAt f.params.dsrc f.arg0.toNat bits := by
    rw [← List.append_assoc, ← List.append_assoc] at hbits
    have h := bitsAt_of_allBits_eq hbits
    rwa [List.length_append, List.length_append, hlead, ← harg0, ← hpar] at h
  have hfinv : f.dec.inv = inv := congrArg Dec.inv hdec
  have hmax : f.dec.maxLen.toNat = maxLenOf inv :=
    (congrArg (·.maxLen.toNat) hdec).trans (toNat_ofNat_maxLenOf hinv)
  rw [← hfinv] at hinv hmax
  rw [← codeIn_perm hd hperm, ← hfinv] at hx
  exact decDecode_of_codes ((congrArg Dec.iof hdec).trans hf) (congrArg Dec.dstate hdec) hinv hmax (by rwa [hpar])
    (hanswer _ (by decide)) (hanswer _ (by decide)) hx hat harg1

/-! ### The round trip (44_decoder R209) -/

/-- In t, after ENC_ANALYZE_FINISH in s, ENC still compresses by the code built there, and EW holds the header and the
bits behind it. -/
structure State.Payload (s : State) (bits : List Bool) (t : State) : Prop where
  iof : t.enc.iof = false
  analyzed : t.enc.estate = .analyzed
  code : t.enc.codeOf = s.enc.buildCode.codeOf
  pushes : ∀ k, t.answer .eSink k = .ok
  clean : t.enc.ew.Clean
  held : t.enc.ew.bits = headerBits (dictEntries s.enc.buildCode.dict) ++ bits
  pos : s.params.wBase.toNat + (headerBits (dictEntries s.enc.buildCode.dict) ++ bits).length < 2 ^ 64 →
    t.enc.ew.pos.toNat = s.params.wBase.toNat + (headerBits (dictEntries s.enc.buildCode.dict) ++ bits).length

theorem payload_of_wrote {a : State} (hf : s.enc.iof = false) (hok : s.AllTransfersOk)
    (hew : s.enc.ew = Writer.reset s.params.wBase) (ha : exec .encAnalyzeFinish s = .next a) (hcode : a.code = .ok)
    (h : a.Wrote bits t) : s.Payload bits t := by
  obtain ⟨-, hheader, hparams, henc, -⟩ := encAnalyzeFinish_writes_header ha hcode
  have hanswer : a.answer .eSink = s.answer .eSink := answer_eq_of_params hparams (by decide)
  have hframe : t.enc = (s.enc.buildCode.analyzed a.enc.ew).withEw t.enc.ew := henc ▸ h.frame
  rw [hew] at hheader
  obtain ⟨hclean, hbits, hpos⟩ := writeAll_reset (writeAll_append_ok hheader (hanswer ▸ h.writes))
  exact ⟨(congrArg Enc.iof hframe).trans hf, congrArg Enc.estate hframe, by rw [hframe]; rfl,
    fun k => by rw [h.answer, hanswer]; exact hok .eSink k, hclean, hbits, hpos⟩

/-- Settles O48: ESINK holds the header, the codes of the members before x, the codes of x and what follows, so the
header stands at W_BASE and the codes of x where EW was. -/
theorem roundTrip : Obligations.RoundTrip := by
  intro s a b c t d before after x lead hf he hok hempty hew hcount ha hacode hbefore hc hafter hdf hdok harg0 hlead
    ⟨u, hu, hdsrc⟩ hs
  obtain ⟨hl, -, -, -, hares⟩ := encAnalyzeFinish_writes_header ha hacode
  have payload : ∀ {v bits}, a.Wrote bits v → s.Payload bits v := payload_of_wrote hf hok hew ha hacode
  have hapos := (payload (.refl a)).pos
  -- the members before x, x, and the members behind it
  obtain ⟨pre, hpre⟩ := compressMembers_wrote hbefore
  have hb := payload hpre
  have hbpos := hb.pos
  have hccode : c.code = .ok := by
    refine encCompress_code_ok hb.iof hb.analyzed (fun y hy => ?_) hb.pushes hc
    rw [hb.code]
    exact (buildCode_isSome_iff hempty y).mpr (hcount y hy)
  obtain ⟨xbits, hxbits, hx, hcres⟩ := encCompress_wrote hc hccode
  rw [hb.code, ← funext (codeIn_dictEntries _)] at hxbits
  obtain ⟨post, hpost⟩ := compressMembers_wrote hafter
  have ht := payload (hpre.trans (hx.trans hpost))
  obtain ⟨pad, hpad⟩ := encCompressFinish_sink ht.iof ht.analyzed ht.clean ht.pushes hu
  -- what DEC finds in DSRC
  have hbits : allBits d.params.dsrc = allBits lead ++ (headerBits (dictEntries s.enc.buildCode.dict)
      ++ (pre ++ (xbits ++ (post ++ pad)))) := by
    rw [hdsrc, allBits_append, hpad, ht.held]
    simp only [List.append_assoc]
  obtain ⟨e, he, hecode, heres, hdecode⟩ := decodes_archive hdf hdok hs (buildCode_consistent hempty hl) hxbits hbits
    (by rw [length_allBits, hlead, harg0])
  have hlen := congrArg List.length hbits
  simp only [List.length_append, length_allBits, hlead, List.length_nil] at hlen hapos hbpos
  rw [harg0] at heres hdecode
  refine ⟨hccode, e, he, hecode, ?_, fun f hfdec hfpar hfarg0 hfarg1 => ?_⟩
  · refine BitVec.eq_of_toNat_eq ?_
    rw [hares, hapos (by omega), heres, Nat.add_zero]
  · have hat := hbpos (by omega)
    rw [← hfarg0, ← Nat.add_assoc] at hat
    obtain ⟨g, hg, hgcode, hgout, hgres⟩ := hdecode f hfdec hfpar hat hfarg1
    exact ⟨g, hg, hgcode, hgout, by rw [hgres, hcres, bitsWritten, if_pos (by omega)]⟩

end

end Sys2Proof.Machine
end

section
/-! Proofs for 60_exceptions. First how every command can end that does end: with a code the table lists, and RES kept
on most errors. Then that a command does end, unless a transfer of its own unit is never answered or ENC_ANALYZE reaches
TOTAL_LIMIT. -/

namespace Sys2Proof.Machine

variable {s t : State} {i : Instr} {own : Stream → Prop} {body : Result}

/-! ### Codes and RES (60_exceptions R230, R231) -/

/-- The command `i` may end with its code, and RES is kept on every error but CorruptStream and UnknownSymbol. -/
structure ListedEnd (i : Instr) (s t : State) : Prop where
  code : mayEndWith i t.code = true
  res : t.code ≠ .ok → t.code ≠ .corruptStream → t.code ≠ .unknownSymbol → t.res = s.res

/-- An end that writes a listed code alone. -/
theorem ListedEnd.withCode {c : StatusCode} (h : mayEndWith i c = true) : ListedEnd i s (s.withCode c) :=
  ⟨h, fun _ _ _ => rfl⟩

/-- An end with OK may write RES. -/
theorem ListedEnd.of_ok (h : t.code = .ok) : ListedEnd i s t :=
  ⟨by rw [h]; rfl, fun hne => absurd h hne⟩

/-- A new fault leaves RES. -/
theorem ListedEnd.of_io (h : t.code = .io) (hres : t.res = s.res) : ListedEnd i s t :=
  ⟨by rw [h]; rfl, fun _ _ _ => hres⟩

theorem mayEndWith_invalidState_of_bw (hi : unitOf i = .bw) (hne : i ≠ .bwPosition) :
    mayEndWith i .invalidState = true := by
  simp [mayEndWith, hi, hne]

theorem mayEndWith_endOfStream (h : 0 < readWidth i) : mayEndWith i .endOfStream = true :=
  decide_eq_true h

/-- Only the commands the state table keeps out of a state end with InvalidState; ENC_POSITION is none of them. -/
theorem mayEndWith_invalidState_of_enc {e : EState} (hi : unitOf i = .enc) (hr : encRunsIn i e = false) :
    mayEndWith i .invalidState = true := by
  have hne : i ≠ .encPosition := by rintro rfl; cases hr
  simp [mayEndWith, hi, hne]

theorem ListedEnd.of_br (h : BrEnd i s t) : ListedEnd i s t := by
  obtain ⟨-, rfl⟩ | ⟨-, v, rd, -, -, rfl⟩ | ⟨-, hw, rfl⟩ | ⟨-, rfl⟩ := h
  · exact .withCode rfl
  · exact .of_ok rfl
  · exact .withCode (mayEndWith_endOfStream hw)
  · exact .of_io rfl rfl

theorem ListedEnd.of_bw (hi : unitOf i = .bw) (h : BwEnd i s t) : ListedEnd i s t := by
  obtain ⟨-, rfl⟩ | ⟨-, -, hne, rfl⟩ | ⟨-, -, rfl⟩ | ⟨-, -, -, w, rel, -, -, rfl⟩ | ⟨-, -, w, -, rfl⟩ := h
  · exact .withCode rfl
  · exact .withCode (mayEndWith_invalidState_of_bw hi hne)
  · exact .of_ok rfl
  · exact .of_ok rfl
  · exact .of_io rfl rfl

theorem ListedEnd.of_enc (hi : unitOf i = .enc) (h : EncEnd i s t) : ListedEnd i s t := by
  obtain ⟨-, rfl⟩ | ⟨-, hr, rfl⟩ | ⟨-, -, e, v, c, rfl, -, -, hc, -, -, hv, -⟩ := h
  · exact .withCode rfl
  · exact .withCode (mayEndWith_invalidState_of_enc hi hr)
  · exact ⟨hc, fun hok _ hsym => hv hok hsym⟩

theorem ListedEnd.of_dec (h : DecEnd i s t) : ListedEnd i s t := by
  obtain ⟨-, rfl⟩ | ⟨-, rfl, -, rfl⟩ | ⟨-, d, v, c, rfl, -, hc, -, hv, -⟩ := h
  · exact .withCode rfl
  · exact .withCode rfl
  · exact ⟨hc, fun hok hcorrupt _ => hv hok hcorrupt⟩

theorem exec_listedEnd (h : exec i s = .next t) : ListedEnd i s t := by
  cases hi : unitOf i with
  | br => exact .of_br (br_cases hi h)
  | bw => exact .of_bw hi (bw_cases hi h)
  | enc => exact .of_enc hi (enc_cases hi h)
  | dec => exact .of_dec (dec_cases hi h)

/-- Settles O23, by the ends of the commands of each unit. -/
theorem codesAndRes : Obligations.CodesAndRes :=
  fun _ _ _ h => ⟨(exec_listedEnd h).code, (exec_listedEnd h).res⟩

/-! ### Where a command has no end (60_exceptions R240) -/

/-- A result is a next state, or the stop at a transfer that the environment never answers, of one of the streams
`own`. -/
def State.EndsOrWaits (s : State) (own : Stream → Prop) (r : Result) : Prop :=
  (∃ t, r = .next t) ∨ ∃ S k, r = .fault (.transferNeverAnswers S k) ∧ s.answer S k = .never ∧ own S

/-- The streams whose bytes a unit transfers (20_memory R50). -/
def UnitName.Transfers (u : UnitName) (S : Stream) : Prop :=
  match u with
  | .br => S = .src
  | .bw => S = .bwSink
  | .enc => S = .input ∨ S = .eSink
  | .dec => S = .dsrc ∨ S = .out

theorem State.EndsOrWaits.next : s.EndsOrWaits own (.next t) := .inl ⟨t, rfl⟩

theorem State.EndsOrWaits.waits {S : Stream} {k : Nat} (h : s.answer S k = .never) (hS : own S) :
    s.EndsOrWaits own (.fault (.transferNeverAnswers S k)) :=
  .inr ⟨S, k, rfl, h, hS⟩

/-! A check at the start of a command only adds ends. -/

theorem brGuard_endsOrWaits (h : s.EndsOrWaits own body) : s.EndsOrWaits own (brGuard s body) := by
  cases hf : s.br.iof with
  | false => rwa [brGuard_ok hf]
  | true => rw [brGuard_fault hf]; exact .next

theorem bwGuardIo_endsOrWaits (h : s.EndsOrWaits own body) : s.EndsOrWaits own (bwGuardIo s body) := by
  cases hf : s.bw.iof with
  | false => rwa [bwGuardIo_ok hf]
  | true => rw [bwGuardIo_fault hf]; exact .next

theorem bwGuard_endsOrWaits (h : s.EndsOrWaits own body) : s.EndsOrWaits own (bwGuard s body) := by
  refine bwGuardIo_endsOrWaits ?_
  split
  · exact .next
  · exact h

theorem encGuardIo_endsOrWaits (h : s.EndsOrWaits own body) : s.EndsOrWaits own (encGuardIo s body) := by
  cases hf : s.enc.iof with
  | false => rwa [encGuardIo_ok hf]
  | true => rw [encGuardIo_fault hf]; exact .next

theorem encGuard_endsOrWaits {legal : EState → Bool} (h : s.EndsOrWaits own body) :
    s.EndsOrWaits own (encGuard legal s body) := by
  refine encGuardIo_endsOrWaits ?_
  split
  · exact h
  · exact .next

theorem decGuard_endsOrWaits (h : s.EndsOrWaits own body) : s.EndsOrWaits own (decGuard s body) := by
  cases hf : s.dec.iof with
  | false => rwa [decGuard_ok hf]
  | true => rw [decGuard_fault hf]; exact .next

/-! A primitive stops only at a transfer that is never answered. -/

section
variable {S : Stream} {ask : Nat → IoAnswer} {source : List Byte} {k : Nat}

theorem readBit_stuck_never {r : Reader} (h : (readBit ask source r).bitValue = .stuck k) : ask k = .never := by
  cases hr : readBit ask source r <;> rw [hr] at h <;> cases h
  exact (readBit_eq_stuck_iff.mp hr).2.1

theorem readBits_stuck_never {n : Nat} {r : Reader} (h : readBits ask source n r = .stuck k) : ask k = .never := by
  obtain ⟨-, -, -, -, hk⟩ := (transferAll_eq_stuck_iff _ _ _).mp (readBits_eq_stuck_iff.mp h).2
  exact hk

theorem writeBit_stuck_never {b : Bool} {w : Writer} (h : writeBit S ask b w = .stuck k) : ask k = .never := by
  have hs := writeBit_sink S ask b w
  rw [h] at hs
  exact hs.2

theorem writeAll_stuck_never {bits : List Bool} {w : Writer} (h : writeAll S ask bits w = .stuck k) :
    ask k = .never := by
  have hs := writeAll_sink S ask bits w
  rw [h] at hs
  exact hs.2

theorem flush_stuck_never {w : Writer} (h : flush S ask w = .stuck k) : ask k = .never := by
  obtain ⟨-, e⟩ | ⟨-, -, e⟩ | ⟨-, -, e⟩ | ⟨-, hk, e⟩ := flush_cases S ask w <;> rw [e] at h <;> cases h
  exact hk

theorem parseHeader_stuck_never {r : Reader} (h : parseHeader ask source r = .stuck k) : ask k = .never := by
  have hs := parseHeader_sound (ask := ask) (source := source) r
  rwa [h] at hs

end

/-! The ends of the commands, unit by unit. -/

theorem brFinish_endsOrWaits {r : ReadRes Nat} (h : ∀ k, r = .stuck k → s.answer .src k = .never) :
    s.EndsOrWaits UnitName.br.Transfers (brFinish s r) := by
  cases r with
  | stuck k => exact .waits (h k rfl) rfl
  | _ => exact .next

theorem bwFinish_endsOrWaits {r : WriteRes} {rel : Bool} (h : ∀ k, r = .stuck k → s.answer .bwSink k = .never) :
    s.EndsOrWaits UnitName.bw.Transfers (bwFinish s rel r) := by
  cases r with
  | stuck k => exact .waits (h k rfl) rfl
  | _ => exact .next

theorem encFlush_endsOrWaits {e : EState} : s.EndsOrWaits UnitName.enc.Transfers (encFlush e s) := by
  unfold encFlush
  cases h : flush .eSink (s.answer .eSink) s.enc.ew with
  | stuck k => exact .waits (flush_stuck_never h) (.inr rfl)
  | _ => exact .next

theorem br_endsOrWaits (hi : unitOf i = .br) : s.EndsOrWaits UnitName.br.Transfers (exec i s) := by
  have read : ∀ n, s.EndsOrWaits UnitName.br.Transfers (brRead n s) := fun _ =>
    brGuard_endsOrWaits (brFinish_endsOrWaits fun _ => readBits_stuck_never)
  cases i with
  | brReadBit => exact brGuard_endsOrWaits (brFinish_endsOrWaits fun _ => readBit_stuck_never)
  | brReadU8 => exact read 8
  | brReadU16 => exact read 16
  | brReadU32 => exact read 32
  | brReadU64 => exact read 64
  | brSkipBits => exact brGuard_endsOrWaits .next
  | brSetPosition => exact brGuard_endsOrWaits .next
  | brPosition => exact brGuard_endsOrWaits .next
  | _ => cases hi

theorem bw_endsOrWaits (hi : unitOf i = .bw) : s.EndsOrWaits UnitName.bw.Transfers (exec i s) := by
  have write : ∀ n, s.EndsOrWaits UnitName.bw.Transfers (bwWrite n s) := fun _ =>
    bwGuard_endsOrWaits (bwFinish_endsOrWaits fun _ => writeAll_stuck_never)
  cases i with
  | bwWriteBit b => exact bwGuard_endsOrWaits (bwFinish_endsOrWaits fun _ => writeBit_stuck_never)
  | bwWriteU8 => exact write 8
  | bwWriteU16 => exact write 16
  | bwWriteU32 => exact write 32
  | bwWriteU64 => exact write 64
  | bwFlush => exact bwGuard_endsOrWaits (bwFinish_endsOrWaits fun _ => flush_stuck_never)
  | bwPosition => exact bwGuardIo_endsOrWaits .next
  | bwRelease => exact bwGuard_endsOrWaits (bwFinish_endsOrWaits fun _ => flush_stuck_never)
  | _ => cases hi

/-- Below TOTAL_LIMIT, ENC_ANALYZE stops only at a byte of IN. -/
theorem encAnalyze_endsOrWaits (hl : s.enc.total.toNat + s.input.length < 2 ^ 61) :
    s.EndsOrWaits UnitName.enc.Transfers (exec .encAnalyze s) := by
  refine encGuard_endsOrWaits (legal := (· == .initial)) ?_
  rw [if_neg (show ¬ Config.totalLimit ≤ _ from Nat.not_le.mpr hl)]
  cases h : analyzeLoop (s.answer .input) 0 s.input s.enc with
  | stuck k => exact .waits (analyzeLoop_stuck h) (.inl rfl)
  | _ => exact .next

theorem encAnalyzeFinish_endsOrWaits : s.EndsOrWaits UnitName.enc.Transfers (exec .encAnalyzeFinish s) := by
  refine encGuard_endsOrWaits (legal := (· == .initial)) ?_
  dsimp only
  split
  · exact .next
  · cases h : writeAll .eSink (s.answer .eSink) (headerBits (dictEntries s.enc.buildCode.dict)) s.enc.buildCode.ew with
    | stuck k => exact .waits (writeAll_stuck_never h) (.inr rfl)
    | _ => exact .next

theorem encCompress_endsOrWaits : s.EndsOrWaits UnitName.enc.Transfers (exec .encCompress s) := by
  refine encGuard_endsOrWaits (legal := (· == .analyzed)) ?_
  have hframe := compressLoop_frame (s.answer .input) (s.answer .eSink) 0 s.input s.enc 0
  cases h : compressLoop (s.answer .input) (s.answer .eSink) 0 s.input s.enc 0 with
  | stuck S k =>
    rw [h] at hframe
    obtain ⟨rfl, hk⟩ | ⟨rfl, hk⟩ := hframe
    · exact .waits hk (.inl rfl)
    · exact .waits hk (.inr rfl)
  | _ => exact .next

theorem enc_endsOrWaits (hi : unitOf i = .enc) (hne : i ≠ .encAnalyze) :
    s.EndsOrWaits UnitName.enc.Transfers (exec i s) := by
  cases i with
  | encAnalyze => exact absurd rfl hne
  | encAnalyzeFinish => exact encAnalyzeFinish_endsOrWaits
  | encCompress => exact encCompress_endsOrWaits
  | encCompressFinish => exact encGuard_endsOrWaits (legal := (· == .analyzed)) encFlush_endsOrWaits
  | encPosition => exact encGuardIo_endsOrWaits .next
  | encRelease => exact encGuard_endsOrWaits (legal := (· != .released)) encFlush_endsOrWaits
  | _ => cases hi

theorem decNew_endsOrWaits : s.EndsOrWaits UnitName.dec.Transfers (exec .decNew s) := by
  refine decGuard_endsOrWaits ?_
  cases h : parseHeader (s.answer .dsrc) s.params.dsrc (s.dec.rd.setPosition s.arg0) with
  | stuck k => exact .waits (parseHeader_stuck_never h) (.inl rfl)
  | _ => exact .next

theorem decodeEnd_endsOrWaits (n : Nat) : s.EndsOrWaits UnitName.dec.Transfers
    (s.decodeEnd (decodeLoop (s.answer .dsrc) (s.answer .out) s.params.dsrc n s.decAtArg0)) := by
  have hframe := decodeLoop_frame (s.answer .dsrc) (s.answer .out) s.params.dsrc n s.decAtArg0
  cases h : decodeLoop (s.answer .dsrc) (s.answer .out) s.params.dsrc n s.decAtArg0 with
  | stuck S k =>
    rw [h] at hframe
    obtain ⟨rfl, hk⟩ | ⟨rfl, hk⟩ := hframe
    · exact .waits hk (.inl rfl)
    · exact .waits hk (.inr rfl)
  | _ => exact .next

theorem decDecode_endsOrWaits : s.EndsOrWaits UnitName.dec.Transfers (exec .decDecode s) := by
  cases hf : s.dec.iof with
  | true => rw [exec_of_fault (i := .decDecode) hf]; exact .next
  | false =>
    by_cases hr : s.dec.dstate = .ready
    · by_cases h0 : s.arg1 = 0
      · rw [decDecodeZeroLength s hf hr h0]; exact .next
      · rw [decDecode_eq_decodeEnd hf hr h0]; exact decodeEnd_endsOrWaits _
    · exact .inl ⟨_, execDecDecode_eq_next_iff.mpr (.inr (.inl ⟨hf, hr, rfl⟩))⟩

theorem dec_endsOrWaits (hi : unitOf i = .dec) : s.EndsOrWaits UnitName.dec.Transfers (exec i s) := by
  cases i with
  | decNew => exact decNew_endsOrWaits
  | decDecode => exact decDecode_endsOrWaits
  | _ => cases hi

/-- Every command but ENC_ANALYZE ends, or waits for a transfer of its own unit. -/
theorem exec_endsOrWaits (hne : i ≠ .encAnalyze) : s.EndsOrWaits (unitOf i).Transfers (exec i s) := by
  cases hi : unitOf i with
  | br => exact br_endsOrWaits hi
  | bw => exact bw_endsOrWaits hi
  | enc => exact enc_endsOrWaits hi hne
  | dec => exact dec_endsOrWaits hi

/-- ENC_ANALYZE ends or waits too, except where it could run and would reach TOTAL_LIMIT (43_encoder R171). -/
theorem encAnalyze_endsOrWaits_or_refused :
    s.EndsOrWaits UnitName.enc.Transfers (exec .encAnalyze s)
    ∨ (exec .encAnalyze s = .refused .totalLimit ∧ s.enc.iof = false ∧ s.enc.estate = .initial
      ∧ 2 ^ 61 ≤ s.enc.total.toNat + s.input.length) := by
  obtain hl | hl := Nat.lt_or_ge (s.enc.total.toNat + s.input.length) (2 ^ 61)
  · exact .inl (encAnalyze_endsOrWaits hl)
  · cases hf : s.enc.iof with
    | true => exact .inl (.inl ⟨_, exec_of_fault (i := .encAnalyze) hf⟩)
    | false =>
      by_cases he : s.enc.estate = .initial
      · exact .inr ⟨encAnalyze_refused hf he hl, rfl, he, hl⟩
      · exact .inl (.inl ⟨_, exec_of_not_encRunsIn rfl hf (beq_false_of_ne he)⟩)

/-- Settles O24: each unit's commands stop only at a transfer of their own, and ENC_ANALYZE also at TOTAL_LIMIT. -/
theorem commandsEnd : Obligations.CommandsEnd := by
  intro i s
  by_cases hi : i = .encAnalyze
  · subst hi
    obtain (hnext | hwait) | ⟨hrefused, hf, he, hl⟩ := encAnalyze_endsOrWaits_or_refused (s := s)
    · exact .inl hnext
    · exact .inr (.inl hwait)
    · exact .inr (.inr ⟨hrefused, rfl, hf, he, hl⟩)
  · obtain hnext | hwait := exec_endsOrWaits (s := s) hi
    · exact .inl hnext
    · exact .inr (.inl hwait)

end Sys2Proof.Machine
end

section
/-! Proofs for 70_reset_and_hazards. The fields of reset that a function reads out (STATUS, FREQ, DICT) have a lemma
each; the other fields are written out in `State.resetWith`. The four invariants are the base cases of the statements
proved by `step_keeps`. -/

namespace Sys2Proof.Machine

/-- STATUS reads 0 after reset: CODE, ESTATE and DSTATE are each the value encoded as 0, and no flag is set. -/
theorem resetWith_status (p : Params) : (State.resetWith p).status = 0 := by
  simp [State.status, State.resetWith, Br.reset, Bw.reset, Enc.reset, Dec.reset, StatusCode.number, EState.number,
    DState.number]

theorem Enc.reset_freqOf (base : Pos) (b : Byte) : (Enc.reset base).freqOf b = 0 := by
  simp [Enc.freqOf, Enc.reset]

theorem Enc.reset_codeOf (base : Pos) (b : Byte) : (Enc.reset base).codeOf b = none := by
  simp [Enc.codeOf, Enc.reset]

/-- Settles O7: the reset move leaves the reset state of the new run, with the moves that come after it. -/
theorem resetSetsEveryField : Obligations.ResetSetsEveryField := by
  intro s p ms hc hh
  exact ⟨(State.resetWith p).withHost ms, step_hostMove hc hh,
    -- ARG0, ARG1, RES, CMD, then STATUS whole and by its fields
    rfl, rfl, rfl, rfl, resetWith_status p, rfl, rfl, rfl, rfl, rfl, rfl, rfl, rfl,
    -- BR and BW
    rfl, rfl, rfl, rfl, rfl, rfl,
    -- ENC's tables and EW
    Enc.reset_freqOf p.wBase, rfl, rfl, Enc.reset_codeOf p.wBase, rfl, rfl, rfl, rfl, rfl,
    -- DEC, the parameters and the host's moves
    rfl, rfl, rfl, rfl, rfl, rfl, rfl⟩

/-- Settles O53: a run that starts with legal parameters has empty queues, writers at their bases, nothing counted,
and no dictionary. -/
theorem invariantsHoldAtReset : Obligations.InvariantsHoldAtReset := fun p hp =>
  ⟨streamInv_reset (ms := []) hp (List.forall_mem_nil _), countInv_reset p, dictInv_reset p,
    inverseInv_of_empty rfl rfl⟩

end Sys2Proof.Machine
end
